-- ==== Sys2Proof/Word.lean ====
section
/-! DEFINITION. The plainest types of the model: the byte and the 32-bit word (`00_scope.md` R10). -/

namespace Sys2Proof

/-- A byte is 8 bits (R10). -/
abbrev Byte := BitVec 8

/-- A word is 32 bits (R10): the registers of the bus, the command word, the SHA-256 words. -/
abbrev Word := BitVec 32

end Sys2Proof
end

