-- ==== Sys2Proof/Machine/Codec.lean ====
section
/-! DEFINITION. The big-endian byte codec and bit length of `00_scope.md` R11 and R12, on which the integer
blocks of the bus (`20_memory.md` R66) and the commands `B2I` and `I2B` (`40_integer_kernel.md` R126) rest. -/

namespace Sys2Proof.Machine

open Sys2Proof

/-- `BE(bs)`: the value of a byte string, most significant byte first; 0 for the empty string (R12). -/
def beVal (bs : List Byte) : Nat := bs.foldl (fun acc b => acc * 256 + b.toNat) 0

/-- Puts the base-256 digits of `v` in front of `acc`; `fuel` ≥ the number of digits. -/
def minBytesLoop : Nat → Nat → List Byte → List Byte
  | 0, _, acc => acc
  | fuel + 1, v, acc => if v = 0 then acc else minBytesLoop fuel (v / 256) (BitVec.ofNat 8 v :: acc)

/-- `MINBYTES(v)`: the shortest byte string with `BE` = `v`, empty for 0 (R12). -/
def minBytes (v : Nat) : List Byte := minBytesLoop v v []

/-- `bitlen(n)`: the least k with n < 2^k (R11). -/
def bitlen (n : Nat) : Nat := if n = 0 then 0 else Nat.log2 n + 1

/-- The integer of a raw form (R22): a sign bit and a magnitude. A zero magnitude gives 0 with either sign. -/
def signedVal (sign : BitVec 1) (mag : Nat) : Int := if sign = 1 then -(mag : Int) else (mag : Int)

/-- `SIGN` of the canonical raw form of an integer (R26). -/
def canonSign (v : Int) : BitVec 1 := if v < 0 then 1 else 0

/-- `MAG[0..LEN−1]` of the canonical raw form of an integer (R26). -/
def canonMag (v : Int) : List Byte := minBytes v.natAbs

end Sys2Proof.Machine
end

