-- ==== Sys2Proof/Machine/Arith.lean ====
section
/-! DEFINITION. The internal functions of the integer kernel (`40_integer_kernel.md` R110 to R126), exact
arithmetic on the integers: `modPow`, `gcd`, `lcm`, `egcd`, `modInv`, and `ceil_sqrt` and primality, which the
discrete-log solver uses. `%` on `Int` with a positive divisor is the spec's floor remainder `mod`; `tdiv` and
`tmod` are its truncating pair (`00_scope.md` R11). -/

namespace Sys2Proof.Machine

open Sys2Proof

/-- The exponentiation datapath (R111). -/
structure PowerPath where
  /-- `ACC`. -/
  acc : Int
  /-- `SQ`. -/
  sq : Int
  /-- `EX`. -/
  ex : Nat
  deriving DecidableEq, Repr

/-- One iteration of the loop of R111. -/
def PowerPath.iterate (m : Int) (d : PowerPath) : PowerPath where
  acc := if d.ex % 2 = 1 then (d.acc * d.sq) % m else d.acc
  sq := (d.sq * d.sq) % m
  ex := d.ex / 2

/-- The loop of R111: at most `n` iterations, ending when `EX` is 0. -/
def powLoop (m : Int) : Nat → PowerPath → PowerPath
  | 0, d => d
  | n + 1, d => if d.ex = 0 then d else powLoop m n (d.iterate m)

/-- The datapath at the start of the loop of R111. -/
def powStart (b e m : Int) : PowerPath := ⟨1, b % m, e.toNat⟩

/-- `modPow(b, e, m)`, for m ≥ 1 and e ≥ 0 (R111): right-to-left binary exponentiation. -/
def modPow (b e m : Int) : Int :=
  if m = 1 then 0 else (powLoop m (bitlen e.toNat) (powStart b e m)).acc

/-- The Euclid loop of R114 on magnitudes; `n` ≥ `v` iterations are enough, as `v` strictly decreases. -/
def gcdLoop : Nat → Nat → Nat → Nat
  | 0, u, _ => u
  | n + 1, u, v => if v = 0 then u else gcdLoop n v (u % v)

/-- `gcd(a, b)` (R114), never negative. -/
def gcdOf (a b : Int) : Int := (gcdLoop b.natAbs a.natAbs b.natAbs : Nat)

/-- `lcm(a, b)` (R117), never negative, 0 when an argument is 0. -/
def lcmOf (a b : Int) : Int := if a = 0 ∨ b = 0 then 0 else ((a * b).natAbs : Int) / gcdOf a b

/-- A triple (g, x, y) of the extended Euclid (R119). -/
structure Bezout where
  /-- The gcd. -/
  g : Int
  /-- The coefficient of the first argument. -/
  x : Int
  /-- The coefficient of the second argument. -/
  y : Int
  deriving DecidableEq, Repr

/-- Sign normalisation of R119: the gcd is made non-negative. -/
def Bezout.normalise (t : Bezout) : Bezout := if t.g < 0 then ⟨-t.g, -t.x, -t.y⟩ else t

/-- The recursive definition of R119; `n` ≥ |b| unfoldings are enough. -/
def egcdRec : Nat → Int → Int → Bezout
  | 0, a, _ => ⟨a, 1, 0⟩
  | n + 1, a, b =>
    if b = 0 then ⟨a, 1, 0⟩
    else
      let t := egcdRec n b (a.tmod b)
      ⟨t.g, t.y, t.x - a.tdiv b * t.y⟩

/-- `egcd(a, b)` as R119 defines it, recursively: the normative definition. -/
def egcdNormative (a b : Int) : Bezout := (egcdRec b.natAbs a b).normalise

/-- The Euclid datapath (R119). -/
structure EuclidPath where
  /-- `r0`. -/
  r0 : Int
  /-- `r1`. -/
  r1 : Int
  /-- `s0`. -/
  s0 : Int
  /-- `s1`. -/
  s1 : Int
  /-- `t0`. -/
  t0 : Int
  /-- `t1`. -/
  t1 : Int
  deriving DecidableEq, Repr

/-- One iteration of the hardware loop of R119. -/
def EuclidPath.iterate (d : EuclidPath) : EuclidPath :=
  let q := d.r0.tdiv d.r1
  ⟨d.r1, d.r0 - q * d.r1, d.s1, d.s0 - q * d.s1, d.t1, d.t0 - q * d.t1⟩

/-- The hardware loop of R119: at most `n` iterations, ending when `r1` is 0. -/
def euclidLoop : Nat → EuclidPath → EuclidPath
  | 0, d => d
  | n + 1, d => if d.r1 = 0 then d else euclidLoop n d.iterate

/-- `egcd(a, b)` as the hardware computes it (R119): the iterative datapath, then sign normalisation. -/
def egcd (a b : Int) : Bezout :=
  let d := euclidLoop b.natAbs ⟨a, b, 1, 0, 0, 1⟩
  Bezout.normalise ⟨d.r0, d.s0, d.t0⟩

/-- `modInv(a, m)`, for m ≥ 1 (R122): the inverse in [0, m), or none when gcd(a, m) ≠ 1. -/
def modInv (a m : Int) : Option Int :=
  let t := egcd (a % m) m
  if t.g = 1 then some (t.x % m) else none

/-- Binary digits of the square root, from bit `k − 1` down: the greatest `r` ≥ the start with r·r ≤ p. -/
def isqrtLoop (p : Nat) : Nat → Nat → Nat
  | 0, r => r
  | k + 1, r => isqrtLoop p k (if (r + 2 ^ k) * (r + 2 ^ k) ≤ p then r + 2 ^ k else r)

/-- The greatest r with r·r ≤ p. -/
def isqrt (p : Nat) : Nat := isqrtLoop p (bitlen p) 0

/-- `ceil_sqrt(p)`: the least m ≥ 0 with m·m ≥ p (R11). -/
def ceilSqrt (p : Nat) : Nat := if isqrt p * isqrt p = p then isqrt p else isqrt p + 1

/-- Trial division of `p` by `d`, `d + 1`, …; `n` ≥ `p` trials are enough. -/
def primeLoop (p : Nat) : Nat → Nat → Bool
  | 0, _ => true
  | n + 1, d => if p < d * d then true else if p % d = 0 then false else primeLoop p n (d + 1)

/-- p is a prime number: p ≥ 2 with no divisor d, 1 < d < p (`43_discrete_log.md` R166). The method is the
model's, the value is the spec's (U15, log entry 12: safe). -/
def isPrime (p : Nat) : Bool := decide (2 ≤ p) && primeLoop p p 2

end Sys2Proof.Machine
end

