-- ==== Sys2Proof/Config.lean ====
section
/-! DEFINITION. The implementation parameters of `00_scope.md` R8: the only things the spec lets a model
take as arguments. A value of `Params` is one implementation; `State.cfg` holds it and no step changes it. -/

namespace Sys2Proof

/-- The parameters of R8 that are chosen freely; the derived capacities are functions below. -/
structure Params where
  /-- `OPB`: greatest number of magnitude bytes a host can load into an operand register. -/
  opb : Nat
  /-- `IBUF_CAP`: bytes of the input buffer. -/
  ibufCap : Nat
  /-- `TRACE_CAP`: greatest number of trace records. -/
  traceCap : Nat
  /-- `MAP_CAP`: the mapper's safety maximum. -/
  mapCap : Nat
  /-- `E_DEFAULT`: the RSA deriver's default exponent candidate. -/
  eDefault : Int
  /-- `E_ATTEMPTS`: the RSA deriver's bound on tested candidates. -/
  eAttempts : Nat
  deriving DecidableEq, Repr

/-- `RESB` = 2·OPB, the magnitude bytes of a result register (R8). -/
def Params.resb (c : Params) : Nat := 2 * c.opb

/-- `OBUF_CAP` = max(32, OPB) (R8). -/
def Params.obufCap (c : Params) : Nat := max 32 c.opb

/-- `PBUF_CAP` = 64·ceil((IBUF_CAP + 9) / 64) (R8). -/
def Params.pbufCap (c : Params) : Nat := 64 * ((c.ibufCap + 9 + 63) / 64)

/-- The constraints R8 puts on the parameters. `traceCap` and `mapCap` are in addition below 2^32, because
`TRACE_LEN` and `MAP_LEN` are 32-bit registers (DEDUCED, log entry 9: safe). -/
def Params.ok (c : Params) : Bool :=
  decide (1 ≤ c.opb) && decide (c.opb ≤ 0x7F00)
  && decide (32 ≤ c.ibufCap) && decide (c.ibufCap ≤ 0xFF00)
  && decide (c.pbufCap ≤ c.traceCap) && decide (41 ≤ c.traceCap) && decide (c.traceCap < 2 ^ 32)
  && decide (1 ≤ c.mapCap) && decide (c.mapCap < 2 ^ 32)
  && decide (1 ≤ c.eAttempts)

/-- `E_DEFAULT`, left OPEN by R8 and U1: no body, so nothing can lean on its value (log entry 2: safe). -/
opaque Config.eDefault : Int

/-- `E_ATTEMPTS` less 1, left OPEN by R8 and U2 (log entry 2: safe). -/
opaque Config.eAttemptsLessOne : Nat

/-- The implementation at reset: the defaults of R8, with the two OPEN parameters left open. -/
def Params.default : Params where
  opb := 512
  ibufCap := 4096
  traceCap := 65536
  mapCap := 2000
  eDefault := Config.eDefault
  eAttempts := Config.eAttemptsLessOne + 1

/-- The implementation the test vectors of `95_test_vectors.md` use: `E_DEFAULT` = 3, `E_ATTEMPTS` = 1000. -/
def Params.vectors : Params :=
  { opb := 512, ibufCap := 4096, traceCap := 65536, mapCap := 2000, eDefault := 3, eAttempts := 1000 }

end Sys2Proof
end

