-- ==== Sys2Proof/Machine/State.lean ====
section
/-! DEFINITION. The state of the block, as plain data (`10_state.md` R20 to R55), the bus events a step
performs (`20_memory.md` R62, `70_reset_and_hazards.md` R300), and the reasons a step can stop. -/

namespace Sys2Proof.Machine

open Sys2Proof

/-- The host-written byte locations of the address space (`X[k].MAG[i]` and `IBUF[i]`), by bus offset:
offsets strictly rising, no byte equal to 0, which is what an unlisted location reads as (R55). -/
abbrev Memory := List Host.Cell

/-- `SIGN` and `LEN` of one operand register (R22); its magnitude bytes are in `State.mem`. -/
structure OpReg where
  /-- `X[k].SIGN`, 0 or 1. -/
  sign : BitVec 1
  /-- `X[k].LEN`, the number of magnitude bytes. -/
  len : Word
  deriving DecidableEq, Repr

/-- One trace record (R43). A field a record kind does not use is 0. -/
structure Record where
  /-- `KIND` (R44). -/
  kind : Word
  /-- `FLAGS`: bit 0 is `FOUND`. -/
  flags : Word
  /-- `A`: first index. -/
  a : Word
  /-- `B`: second index. -/
  b : Word
  /-- `W[0..9]`: SHA-256 words. -/
  w : Vector Word 10
  /-- `S[0..15]`: AES state matrix. -/
  s : Vector Byte 16
  /-- `KEY[0..15]`: AES round key. -/
  key : Vector Byte 16
  /-- `F[0..3]`: integer fields. -/
  f : Vector Int 4
  deriving DecidableEq, Repr

/-- What the record window shows beyond `TRACE_LEN` (R42): every field 0. -/
def Record.zero : Record where
  kind := 0
  flags := 0
  a := 0
  b := 0
  w := Vector.replicate 10 0
  s := Vector.replicate 16 0
  key := Vector.replicate 16 0
  f := Vector.replicate 4 0

/-- The result state: what the block owns and alone writes (R20). `OBUF_LEN`, `PBUF_LEN`, `MAP_LEN` and
`TRACE_LEN` are the lengths of the lists; bytes and elements above them are 0 (log entry 7: safe). -/
structure ResultState where
  /-- `STATUS` (R34). -/
  status : Word
  /-- `R[0..3]` (R25), by value; their raw form is the canonical one of R26. -/
  r : Vector Int 4
  /-- `OBUF[0..OBUF_LEN−1]` (R39). -/
  obuf : List Byte
  /-- `PBUF[0..PBUF_LEN−1]` (R40). -/
  pbuf : List Byte
  /-- `MAP[0..MAP_LEN−1]` (R41). -/
  map : List Int
  /-- `TRACE[0..TRACE_LEN−1]` (R42). -/
  trace : List Record
  deriving DecidableEq, Repr

/-- One bus access of the host, by offset from the block's base (R62). -/
inductive BusAccess where
  /-- `MemRead(addr, 4)`. -/
  | read32 (addr : Nat)
  /-- `MemRead(addr, 1)`. -/
  | read8 (addr : Nat)
  /-- `MemWrite(addr, 4, v)`. -/
  | write32 (addr : Nat) (v : Word)
  /-- `MemWrite(addr, 1, v)`. -/
  | write8 (addr : Nat) (v : Byte)
  deriving DecidableEq, Repr

/-- What can reach the block from outside: a bus access, or reset (R300). -/
inductive BusEvent where
  /-- A bus access granted to a host. -/
  | access (a : BusAccess)
  /-- A reset, between commands (U9, log entry 6). -/
  | reset
  deriving DecidableEq, Repr

/-- What the bus answers to one access. -/
inductive BusReply where
  /-- The value of a read: the 32-bit value of a 4-byte read, or the byte of a 1-byte read zero-extended to the
  width of the bus (`00_scope.md` R13, `20_memory.md` R62). -/
  | value (v : Word)
  /-- A write has completed. -/
  | done
  deriving DecidableEq, Repr

/-- The whole state: the parameters (R8), the host-owned input state and the block-owned result state (R20),
and two fields of the model's own, the pending bus events and the replies (log entries 3 and 4). -/
structure State where
  /-- The implementation parameters of R8; no step changes them (log entry 1). -/
  cfg : Params
  /-- `SIGN` and `LEN` of `X[0..3]` (R21, R22). -/
  x : Vector OpReg 4
  /-- `X[k].MAG[i]` (R22) and `IBUF[i]` (R38), by bus offset. -/
  mem : Memory
  /-- `IBUF_LEN` (R38). -/
  ibufLen : Word
  /-- `CMD` (R33). -/
  cmd : Word
  /-- `TRACE_IDX` (R42). -/
  traceIdx : Word
  /-- `MAP_IDX` (R41). -/
  mapIdx : Word
  /-- The result state. -/
  out : ResultState
  /-- The model's own: bus events granted and not yet performed, in bus order (R71). -/
  pending : List BusEvent
  /-- The model's own: what the bus has answered, newest first. -/
  replies : List BusReply
  deriving DecidableEq, Repr

/-- Why the machine stops with a fault. -/
inductive Fault where
  /-- Raised by a bus access to an offset where the block has no location of any width (R69 (a), (e)): the
  bus signals an error to the host and nothing changes. Safe: the block itself goes on with its next access. -/
  | noLocation (addr : Nat)
  deriving DecidableEq, Repr

/-- Why a step is not offered. -/
inductive Refusal where
  /-- Raised by `exec` for an instruction without a meaning. Safe. -/
  | notModelled (mnemonic : String)
  /-- Raised by a 1-byte access to a 32-bit location or a 4-byte access to a byte location (R69 (b)). Safe. -/
  | wrongWidth (addr : Nat)
  /-- Raised by a 4-byte access inside a 32-bit location but not at its exact offset (R69 (b)). Safe. -/
  | misaligned (addr : Nat)
  /-- Raised by a write to a read-only location (R69 (c)). Safe. -/
  | readOnly (addr : Nat)
  /-- Raised by a write of `X[k].LEN` > `OPB`, `X[k].SIGN` > 1 or `IBUF_LEN` > `IBUF_CAP` (R69 (d)). Safe. -/
  | valueOutOfRange (addr : Nat)
  deriving DecidableEq, Repr

/-- The error codes of `60_exceptions.md` R270; `OK` is the absence of one. -/
inductive ErrorCode where
  /-- 1, `INVALID_INPUT`. -/
  | invalidInput
  /-- 2, `SEARCH_EXHAUSTED`. -/
  | searchExhausted
  /-- 3, `ILLEGAL_COMMAND`. -/
  | illegalCommand
  /-- 4, `RESOURCE_LIMIT`. -/
  | resourceLimit
  deriving DecidableEq, Repr

/-- The one-bit fields of `STATUS` (R34). -/
inductive StatusFlag where
  /-- Bit 8, `ABSENT`. -/
  | absent
  /-- Bit 9, `TRUNCATED`. -/
  | truncated
  /-- Bit 10, `CLAMPED`. -/
  | clamped
  /-- Bit 16, `W_NONPRIME`. -/
  | wNonprime
  /-- Bit 17, `W_BASE_FACTOR`. -/
  | wBaseFactor
  /-- Bit 18, `W_TARGET_FACTOR`. -/
  | wTargetFactor
  /-- Bit 19, `W_NO_INVERSE`. -/
  | wNoInverse
  /-- Bit 31, `READY`. -/
  | ready
  deriving DecidableEq, Repr

/-- The result state after reset (R55). -/
def ResultState.reset : ResultState where
  status := 0
  r := Vector.replicate 4 0
  obuf := []
  pbuf := []
  map := []
  trace := []

/-- The state after reset of an implementation with parameters `cfg` (R55), with no access pending. -/
def State.resetOf (cfg : Params) : State where
  cfg := cfg
  x := Vector.replicate 4 ⟨0, 0⟩
  mem := []
  ibufLen := 0
  cmd := 0
  traceIdx := 0
  mapIdx := 0
  out := ResultState.reset
  pending := []
  replies := []

/-- The machine right after reset (R55, R300), with the default parameters of R8. -/
def State.reset : State := State.resetOf Params.default

end Sys2Proof.Machine
end

