-- ==== Sys2Proof/Machine/Flags.lean ====
section
/-! DEFINITION. The fields of `STATUS` (`10_state.md` R34, R35) and every computation of a flag the spec gives:
the completion code (`60_exceptions.md` R270), the discrete-log warnings (`43_discrete_log.md` R166), the
mapper's clamp (`44_bijection_mapper.md` R191) and `READY` (`47_system.md` R260). -/

namespace Sys2Proof.Machine

open Sys2Proof

/-- The bit of `STATUS` a flag is (R34). -/
def StatusFlag.bit : StatusFlag → Nat
  | .absent => 8
  | .truncated => 9
  | .clamped => 10
  | .wNonprime => 16
  | .wBaseFactor => 17
  | .wTargetFactor => 18
  | .wNoInverse => 19
  | .ready => 31

/-- The word with only the flag's bit set. -/
def StatusFlag.mask (f : StatusFlag) : Word := 1#32 <<< f.bit

/-- `STATUS.f`. -/
def getFlag (st : Word) (f : StatusFlag) : Bool := st.getLsbD f.bit

/-- `STATUS.f <- b`. -/
def setFlag (st : Word) (f : StatusFlag) (b : Bool) : Word := if b then st ||| f.mask else st &&& ~~~f.mask

/-- The number of a completion code (R270). -/
def ErrorCode.number : ErrorCode → Word
  | .invalidInput => 1
  | .searchExhausted => 2
  | .illegalCommand => 3
  | .resourceLimit => 4

/-- `STATUS.CODE` (R34). -/
def statusCode (st : Word) : BitVec 4 := st.extractLsb' 0 4

/-- `STATUS.CODE <- c`. -/
def setCode (st : Word) (c : ErrorCode) : Word := (st &&& 0xFFFFFFF0) ||| c.number

/-- `STATUS` after the prologue of a command (R97): code `OK`, every flag 0, `READY` set. -/
def readyStatus : Word := StatusFlag.ready.mask

/-- The bits of `STATUS` that R34 does not reserve. -/
def statusUsed : Word := 0x800F070F

/-- The three warnings of `dl_entry` (R166), from the base, the target and the modulus. -/
def dlogWarnings (g y p : Int) (st : Word) : Word :=
  setFlag
    (setFlag
      (setFlag st .wNonprime (!isPrime p.toNat))
      .wBaseFactor (decide (1 < gcdOf g p)))
    .wTargetFactor (decide (1 < gcdOf y p))

/-- `CLAMPED` of `MAPEXP` (R191): the count exceeds `MAP_CAP`. -/
def clampFlag (count : Int) (cap : Nat) (st : Word) : Word :=
  if (cap : Int) < count then setFlag st .clamped true else st

end Sys2Proof.Machine
end

