-- ==== Sys2Proof/Machine/Ops.lean ====
section
/-! DEFINITION. The named operations over memory and registers, and the two ends of a command: `raise`
(`60_exceptions.md` R272), which is this hardware's exception, and `return` (`30_encoding.md` R98). -/

namespace Sys2Proof.Machine

open Sys2Proof

/-! ## Byte locations -/

/-- The canonical form of a memory: offsets strictly rising, no byte equal to what an unlisted one reads as. -/
abbrev Memory.wf (m : Memory) : Prop := m.Pairwise (fun c d => c.1 < d.1) ∧ ∀ c ∈ m, c.2 ≠ 0

/-- What an unlisted location reads as: 0, the reset value of every `MAG[i]` and `IBUF[i]` (R55). -/
def Memory.unlisted : Byte := 0

/-- The byte at an offset. -/
def Memory.read : Memory → Nat → Byte
  | [], _ => Memory.unlisted
  | (k, b) :: m, a => if k = a then b else Memory.read m a

/-- Writes the byte at an offset and keeps the canonical form. -/
def Memory.write : Memory → Nat → Byte → Memory
  | [], a, b => if b = Memory.unlisted then [] else [(a, b)]
  | (k, c) :: m, a, b =>
    if a < k then (if b = Memory.unlisted then (k, c) :: m else (a, b) :: (k, c) :: m)
    else if a = k then (if b = Memory.unlisted then m else (a, b) :: m)
    else (k, c) :: Memory.write m a b

/-- The offset of the integer block of `X[k]` (`20_memory.md` R61). -/
def xBase (k : Fin 4) : Nat := 0x010000 + 0x10000 * k.val

/-- The offset of `X[k].MAG[i]` (R61, R66). -/
def xMagAddr (k : Fin 4) (i : Nat) : Nat := xBase k + 0x100 + i

/-- The offset of `IBUF[i]` (R61). -/
def ibufAddr (i : Nat) : Nat := 0x090000 + i

/-! ## Result state -/

/-- The result state as the prologue of R97 leaves it: everything 0 but `READY`. -/
def ResultState.cleared : ResultState := { ResultState.reset with status := readyStatus }

/-- `R[k] <- v`. -/
def ResultState.setR (o : ResultState) (k : Fin 4) (v : Int) : ResultState := { o with r := o.r.set k v }

/-- `STATUS.f <- b`. -/
def ResultState.setFlag (o : ResultState) (f : StatusFlag) (b : Bool) : ResultState :=
  { o with status := Machine.setFlag o.status f b }

/-- `OBUF[0..] <- bs; OBUF_LEN <- length(bs)`; a string longer than the buffer raises `RESOURCE_LIMIT` (R276). -/
def ResultState.putObuf (c : Params) (bs : List Byte) (o : ResultState) : Except ErrorCode ResultState :=
  if bs.length ≤ c.obufCap then .ok { o with obuf := bs } else .error .resourceLimit

/-- `PBUF[0..] <- bs; PBUF_LEN <- length(bs)`; a string longer than the buffer raises `RESOURCE_LIMIT` (R276). -/
def ResultState.putPbuf (c : Params) (bs : List Byte) (o : ResultState) : Except ErrorCode ResultState :=
  if bs.length ≤ c.pbufCap then .ok { o with pbuf := bs } else .error .resourceLimit

/-- `emit(rec)` (R46). -/
def ResultState.emit (c : Params) (rec : Record) (o : ResultState) : Except ErrorCode ResultState :=
  if o.trace.length < c.traceCap then .ok { o with trace := o.trace ++ [rec] } else .error .resourceLimit

/-- `emit` of several records, in order; the first that does not fit raises. -/
def ResultState.emitAll (c : Params) : List Record → ResultState → Except ErrorCode ResultState
  | [], o => .ok o
  | rec :: recs, o =>
    match o.emit c rec with
    | .ok o' => ResultState.emitAll c recs o'
    | .error e => .error e

/-! ## Beginning and end of a command -/

/-- The common prologue of R97 after `CMD <- w`: all result state cleared, `READY` set, nothing else touched. -/
def State.prologue (s : State) : State := { s with out := ResultState.cleared }

/-- `raise <Code>` (R272): all result state cleared as in the prologue, then the code. -/
def State.raise (s : State) (c : ErrorCode) : State :=
  { s with out := { ResultState.cleared with status := setCode readyStatus c } }

/-- `return` (R98): the result state is what the command's rule wrote, with code `OK`. -/
def State.complete (s : State) (o : ResultState) : State := { s with out := o }

/-- Runs the rule of a command: the prologue, then the rule from the cleared result state, then `return` or
`raise` (R97, R98). Every meaning is a call of it. -/
def runCommand (rule : State → ResultState → Except ErrorCode ResultState) (s : State) :
    Host.Outcome State Fault Refusal :=
  match rule s.prologue ResultState.cleared with
  | .ok o => .next (s.prologue.complete o)
  | .error c => .next (s.prologue.raise c)

end Sys2Proof.Machine
end

