-- ==== Sys2Proof/Machine/Operands.lean ====
section
/-! DEFINITION. The operands of the commands (`30_encoding.md` R96): the integer values of `X[0..3]`
(`10_state.md` R22) and the input bytes `IBUF[0..IBUF_LEN−1]` (R38). The command word has no operand fields
beyond `CARM` and `HINT` (R91), so these two are every operand form there is. -/

namespace Sys2Proof.Machine

open Sys2Proof

/-- `n` bytes of the byte locations from offset `a` on. -/
def Memory.bytes (m : Memory) (a n : Nat) : List Byte := (List.range n).map (fun i => m.read (a + i))

/-- `X[k].MAG[0..LEN−1]`. -/
def State.xMag (s : State) (k : Fin 4) : List Byte := s.mem.bytes (xMagAddr k 0) s.x[k].len.toNat

/-- The integer value of `X[k]`, the only thing a command reads of it (R22). -/
def State.xVal (s : State) (k : Fin 4) : Int := signedVal s.x[k].sign (beVal (s.xMag k))

/-- `IBUF[0..IBUF_LEN−1]` (R38). -/
def State.ibuf (s : State) : List Byte := s.mem.bytes (ibufAddr 0) s.ibufLen.toNat

end Sys2Proof.Machine
end

