-- ==== Sys2Proof/Machine/Bus.lean ====
section
/-! DEFINITION. The address map and the bus accesses other than the write to `CMD` (`20_memory.md` R60 to R69):
which location an offset is, what a read of it returns, what a write to it does, and why an access is refused. -/

namespace Sys2Proof.Machine

open Sys2Proof

/-! ## Locations -/

/-- An integer block of R61 and R66. -/
inductive IntBlock where
  /-- `X[k]`, read and write. -/
  | x (k : Fin 4)
  /-- `R[k]`, read only. -/
  | r (k : Fin 4)
  /-- `TRACE[TRACE_IDX].F[f]`, read only. -/
  | f (k : Fin 4)
  /-- `MAP[MAP_IDX]`, read only. -/
  | map
  deriving DecidableEq, Repr

/-- A location of width 32 (R61, R66, R67). -/
inductive WordLoc where
  /-- `CMD`. -/
  | cmd
  /-- `STATUS`. -/
  | status
  /-- `IBUF_LEN`. -/
  | ibufLen
  /-- `OBUF_LEN`. -/
  | obufLen
  /-- `PBUF_LEN`. -/
  | pbufLen
  /-- `TRACE_LEN`. -/
  | traceLen
  /-- `TRACE_IDX`. -/
  | traceIdx
  /-- `MAP_LEN`. -/
  | mapLen
  /-- `MAP_IDX`. -/
  | mapIdx
  /-- `SIGN` of an integer block. -/
  | sign (b : IntBlock)
  /-- `LEN` of an integer block. -/
  | len (b : IntBlock)
  /-- `KIND` of the record window. -/
  | recKind
  /-- `FLAGS` of the record window. -/
  | recFlags
  /-- `A` of the record window. -/
  | recA
  /-- `B` of the record window. -/
  | recB
  /-- `W[j]` of the record window. -/
  | recW (j : Fin 10)
  deriving DecidableEq, Repr

/-- A location of width 8 (R61, R66, R67). -/
inductive ByteLoc where
  /-- `MAG[i]` of an integer block. -/
  | mag (b : IntBlock) (i : Nat)
  /-- `IBUF[i]`. -/
  | ibuf (i : Nat)
  /-- `OBUF[i]`. -/
  | obuf (i : Nat)
  /-- `PBUF[i]`. -/
  | pbuf (i : Nat)
  /-- `S[i]` of the record window. -/
  | recS (i : Fin 16)
  /-- `KEY[i]` of the record window. -/
  | recKey (i : Fin 16)
  deriving DecidableEq, Repr

/-- The 64 KiB page of an integer block (R61). -/
def IntBlock.page : IntBlock → Nat
  | .x k => 0x01 + k.val
  | .r k => 0x05 + k.val
  | .f k => 0x0D + k.val
  | .map => 0x11

/-- The integer block of a page, if it is one (R61). -/
def blockOfPage (page : Nat) : Option IntBlock :=
  if h : 0x01 ≤ page ∧ page < 0x05 then some (.x ⟨page - 0x01, by omega⟩)
  else if h : 0x05 ≤ page ∧ page < 0x09 then some (.r ⟨page - 0x05, by omega⟩)
  else if h : 0x0D ≤ page ∧ page < 0x11 then some (.f ⟨page - 0x0D, by omega⟩)
  else if page = 0x11 then some .map
  else none

/-- The number of magnitude bytes of an integer block: OPB for `X[k]`, RESB for every other (R66). -/
def IntBlock.cap (c : Params) : IntBlock → Nat
  | .x _ => c.opb
  | .r _ => c.resb
  | .f _ => c.resb
  | .map => c.resb

/-- The location of width 32 at exactly an offset (R61, R66, R67). -/
def wordLocAt (addr : Nat) : Option WordLoc :=
  let page := addr / 0x10000
  let off := addr % 0x10000
  if page = 0x00 then
    match off with
    | 0x00 => some .cmd
    | 0x04 => some .status
    | 0x08 => some .ibufLen
    | 0x0C => some .obufLen
    | 0x10 => some .pbufLen
    | 0x14 => some .traceLen
    | 0x18 => some .traceIdx
    | 0x1C => some .mapLen
    | 0x20 => some .mapIdx
    | _ => none
  else if page = 0x0C then
    match off with
    | 0x00 => some .recKind
    | 0x04 => some .recFlags
    | 0x08 => some .recA
    | 0x0C => some .recB
    | _ =>
      if h : 0x10 ≤ off ∧ off < 0x38 ∧ off % 4 = 0 then some (.recW ⟨(off - 0x10) / 4, by omega⟩) else none
  else
    match blockOfPage page with
    | some b => if off = 0x00 then some (.sign b) else if off = 0x04 then some (.len b) else none
    | none => none

/-- The location of width 8 at an offset, of an implementation with parameters `c` (R61, R66, R67). -/
def byteLocAt (c : Params) (addr : Nat) : Option ByteLoc :=
  let page := addr / 0x10000
  let off := addr % 0x10000
  if page = 0x09 then (if off < c.ibufCap then some (.ibuf off) else none)
  else if page = 0x0A then (if off < c.obufCap then some (.obuf off) else none)
  else if page = 0x0B then (if off < c.pbufCap then some (.pbuf off) else none)
  else if page = 0x0C then
    if h : 0x40 ≤ off ∧ off < 0x50 then some (.recS ⟨off - 0x40, by omega⟩)
    else if h : 0x50 ≤ off ∧ off < 0x60 then some (.recKey ⟨off - 0x50, by omega⟩)
    else none
  else
    match blockOfPage page with
    | some b => if 0x100 ≤ off ∧ off - 0x100 < b.cap c then some (.mag b (off - 0x100)) else none
    | none => none

/-- The offset of a location of width 32 (R61, R66, R67). -/
def WordLoc.addr : WordLoc → Nat
  | .cmd => 0x00
  | .status => 0x04
  | .ibufLen => 0x08
  | .obufLen => 0x0C
  | .pbufLen => 0x10
  | .traceLen => 0x14
  | .traceIdx => 0x18
  | .mapLen => 0x1C
  | .mapIdx => 0x20
  | .sign b => 0x10000 * b.page
  | .len b => 0x10000 * b.page + 0x04
  | .recKind => 0x0C0000
  | .recFlags => 0x0C0004
  | .recA => 0x0C0008
  | .recB => 0x0C000C
  | .recW j => 0x0C0010 + 4 * j.val

/-- The offset of a location of width 8 (R61, R66, R67). -/
def ByteLoc.addr : ByteLoc → Nat
  | .mag b i => 0x10000 * b.page + 0x100 + i
  | .ibuf i => 0x090000 + i
  | .obuf i => 0x0A0000 + i
  | .pbuf i => 0x0B0000 + i
  | .recS i => 0x0C0040 + i.val
  | .recKey i => 0x0C0050 + i.val

/-- The index of a location of width 8 lies within its array, with parameters `c` (R61, R66). -/
def ByteLoc.inRange (c : Params) : ByteLoc → Bool
  | .mag b i => decide (i < b.cap c)
  | .ibuf i => decide (i < c.ibufCap)
  | .obuf i => decide (i < c.obufCap)
  | .pbuf i => decide (i < c.pbufCap)
  | .recS _ => true
  | .recKey _ => true

/-! ## Reads (R66 to R68) -/

/-- `TRACE[TRACE_IDX]`, all 0 for `TRACE_IDX` ≥ `TRACE_LEN` (R42, R67). -/
def State.windowRecord (s : State) : Record := s.out.trace.getD s.traceIdx.toNat Record.zero

/-- `MAP[MAP_IDX]`, 0 for `MAP_IDX` ≥ `MAP_LEN` (R41). -/
def State.windowEntry (s : State) : Int := s.out.map.getD s.mapIdx.toNat 0

/-- The integer a read-only block shows; `X[k]` for the block of an operand. -/
def State.blockVal (s : State) : IntBlock → Int
  | .x k => s.xVal k
  | .r k => s.out.r[k]
  | .f k => s.windowRecord.f[k]
  | .map => s.windowEntry

/-- `SIGN` of a block: as loaded for `X[k]`, canonical for the others (R22, R26, R66). -/
def State.readSign (s : State) : IntBlock → Word
  | .x k => s.x[k].sign.setWidth 32
  | .r k => (canonSign (s.blockVal (.r k))).setWidth 32
  | .f k => (canonSign (s.blockVal (.f k))).setWidth 32
  | .map => (canonSign (s.blockVal .map)).setWidth 32

/-- `LEN` of a block: as loaded for `X[k]`, minimal for the others (R22, R26, R66). -/
def State.readLen (s : State) : IntBlock → Word
  | .x k => s.x[k].len
  | .r k => BitVec.ofNat 32 (canonMag (s.blockVal (.r k))).length
  | .f k => BitVec.ofNat 32 (canonMag (s.blockVal (.f k))).length
  | .map => BitVec.ofNat 32 (canonMag (s.blockVal .map)).length

/-- `MAG[i]` of a block: as loaded for `X[k]`, canonical, with zeros above `LEN`, for the others (R22, R26, R66). -/
def State.readMag (s : State) (i : Nat) : IntBlock → Byte
  | .x k => s.mem.read (xMagAddr k i)
  | .r k => (canonMag (s.blockVal (.r k))).getD i 0
  | .f k => (canonMag (s.blockVal (.f k))).getD i 0
  | .map => (canonMag (s.blockVal .map)).getD i 0

/-- What a 4-byte read of a location returns. -/
def State.readWord (s : State) : WordLoc → Word
  | .cmd => s.cmd
  | .status => s.out.status
  | .ibufLen => s.ibufLen
  | .obufLen => BitVec.ofNat 32 s.out.obuf.length
  | .pbufLen => BitVec.ofNat 32 s.out.pbuf.length
  | .traceLen => BitVec.ofNat 32 s.out.trace.length
  | .traceIdx => s.traceIdx
  | .mapLen => BitVec.ofNat 32 s.out.map.length
  | .mapIdx => s.mapIdx
  | .sign b => s.readSign b
  | .len b => s.readLen b
  | .recKind => s.windowRecord.kind
  | .recFlags => s.windowRecord.flags
  | .recA => s.windowRecord.a
  | .recB => s.windowRecord.b
  | .recW j => s.windowRecord.w[j]

/-- What a 1-byte read of a location returns. -/
def State.readByte (s : State) : ByteLoc → Byte
  | .mag b i => s.readMag i b
  | .ibuf i => s.mem.read (ibufAddr i)
  | .obuf i => s.out.obuf.getD i 0
  | .pbuf i => s.out.pbuf.getD i 0
  | .recS i => s.windowRecord.s[i]
  | .recKey i => s.windowRecord.key[i]

/-! ## Refusals and writes (R69) -/

/-- Why an access takes no step. -/
inductive BusStop where
  /-- No location at the offset. -/
  | fault (r : Fault)
  /-- A location, but not for this access. -/
  | refused (r : Refusal)
  deriving DecidableEq, Repr

/-- Why a 4-byte access at an offset that is no 32-bit location is refused: a byte location is there (R69 (b)),
or the offset lies inside a 32-bit location (R69 (b)), or nothing is there (R69 (a), (e)). -/
def stop32 (c : Params) (addr : Nat) : BusStop :=
  if (byteLocAt c addr).isSome then .refused (.wrongWidth addr)
  else if (wordLocAt (addr - addr % 4)).isSome then .refused (.misaligned addr)
  else .fault (.noLocation addr)

/-- Why a 1-byte access at an offset that is no byte location is refused: the offset lies in a 32-bit location
(R69 (b)), or nothing is there (R69 (a), (e)). -/
def stop8 (addr : Nat) : BusStop :=
  if (wordLocAt (addr - addr % 4)).isSome then .refused (.wrongWidth addr) else .fault (.noLocation addr)

/-- `MemRead(addr, 4)` (R62). -/
def State.read32 (s : State) (addr : Nat) : Except BusStop Word :=
  match wordLocAt addr with
  | some loc => .ok (s.readWord loc)
  | none => .error (stop32 s.cfg addr)

/-- `zext_32` of a byte: the only extension the block uses (`00_scope.md` R13). -/
def zext32 (b : Byte) : Word := b.setWidth 32

/-- `MemRead(addr, 1)`: the byte, zero-extended to the width of the bus (R62). -/
def State.read8 (s : State) (addr : Nat) : Except BusStop Word :=
  match byteLocAt s.cfg addr with
  | some loc => .ok (zext32 (s.readByte loc))
  | none => .error (stop8 addr)

/-- A 4-byte write to a location other than `CMD`: it changes exactly the location written (R68), unless the
location is read-only or the value out of range (R69 (c), (d)). -/
def State.writeWord (s : State) (addr : Nat) (loc : WordLoc) (v : Word) : Except BusStop State :=
  match loc with
  | .ibufLen =>
    if v.toNat ≤ s.cfg.ibufCap then .ok { s with ibufLen := v } else .error (.refused (.valueOutOfRange addr))
  | .traceIdx => .ok { s with traceIdx := v }
  | .mapIdx => .ok { s with mapIdx := v }
  | .sign (.x k) =>
    if v.toNat ≤ 1 then .ok { s with x := s.x.set k { s.x[k] with sign := v.setWidth 1 } }
    else .error (.refused (.valueOutOfRange addr))
  | .len (.x k) =>
    if v.toNat ≤ s.cfg.opb then .ok { s with x := s.x.set k { s.x[k] with len := v } }
    else .error (.refused (.valueOutOfRange addr))
  | _ => .error (.refused (.readOnly addr))

/-- A 1-byte write: to `X[k].MAG[i]` or `IBUF[i]`; every other byte location is read-only (R61, R69 (c)). -/
def State.writeByte (s : State) (addr : Nat) (loc : ByteLoc) (v : Byte) : Except BusStop State :=
  match loc with
  | .mag (.x k) i => .ok { s with mem := s.mem.write (xMagAddr k i) v }
  | .ibuf i => .ok { s with mem := s.mem.write (ibufAddr i) v }
  | _ => .error (.refused (.readOnly addr))

end Sys2Proof.Machine
end

