-- ==== Sys2Proof/Syntax.lean ====
section
/-! DEFINITION. The fifteen commands of `30_encoding.md` R92, one constructor per row of
spec/opcode_table.json. Every data operand comes from fixed registers (R91, R96), so only `DERIVE`
carries operand bits. -/

namespace Sys2Proof

/-- A command of the block (R92). -/
inductive Instr where
  /-- `INIT`: one-time initialisation (`47_system.md` R261). -/
  | init
  /-- `MODPOW`: modular power (`40_integer_kernel.md` R112). -/
  | modpow
  /-- `GCD`: greatest common divisor (R116). -/
  | gcd
  /-- `LCM`: least common multiple (R118). -/
  | lcm
  /-- `EGCD`: extended Euclid (R120). -/
  | egcd
  /-- `MODINV`: modular inverse (R124). -/
  | modinv
  /-- `B2I`: big-endian bytes to integer (R128). -/
  | b2i
  /-- `I2B`: integer to big-endian bytes (R130). -/
  | i2b
  /-- `DERIVE`: RSA parameters (`41_rsa_deriver.md` R144); `carm` selects the Carmichael function,
  `hint` says that `X[2]` holds an exponent hint (R90). -/
  | derive (carm hint : Bool)
  /-- `DHX`: Diffie–Hellman exchange with trace (`42_diffie_hellman.md` R156). -/
  | dhx
  /-- `DLBF`: discrete log by brute force (`43_discrete_log.md` R167). -/
  | dlbf
  /-- `DLBSGS`: discrete log by baby steps and giant steps (R172). -/
  | dlbsgs
  /-- `MAPEXP`: the mapping i ↦ (i^e mod n) mod count (`44_bijection_mapper.md` R191). -/
  | mapexp
  /-- `AESENC`: AES-128 encryption of one block with trace (`45_aes128.md` R212). -/
  | aesenc
  /-- `SHA256`: SHA-256 of one message with trace (`46_sha256.md` R240). -/
  | sha256
  deriving DecidableEq, Repr

/-- The fields of a command word (R90), as written, legal or not. -/
structure CommandFields where
  /-- Bits 7:0, `OP`. -/
  op : BitVec 8
  /-- Bit 8, `CARM`. -/
  carm : Bool
  /-- Bit 9, `HINT`. -/
  hint : Bool
  /-- Bits 31:10, which must be 0. -/
  zero : BitVec 22
  deriving DecidableEq, Repr

end Sys2Proof
end

