-- ==== Sys2Proof/WellFormed.lean ====
section
/-! DEFINITION. Which command fields stand for a command (`30_encoding.md` R90, R93, R94). A term of `Instr`
cannot be ill-formed (its only operands are two one-bit values, each legal with `DERIVE`); what can be
ill-formed is the `CommandFields` a host writes, and these are its checks. -/

namespace Sys2Proof

/-- The legal opcodes (R92, R94). -/
def legalOpcodes : List (BitVec 8) :=
  [0x01, 0x10, 0x11, 0x12, 0x13, 0x14, 0x15, 0x16, 0x20, 0x30, 0x40, 0x41, 0x50, 0x60, 0x70]

/-- Bits 31:10 are 0 (R90). -/
def CommandFields.reservedClear (f : CommandFields) : Bool := f.zero == 0

/-- `CARM` and `HINT` are set only with the opcode of `DERIVE` (R93). -/
def CommandFields.modifiersAllowed (f : CommandFields) : Bool := f.op == 0x20 || !(f.carm || f.hint)

/-- The opcode is one of R92. -/
def CommandFields.opcodeKnown (f : CommandFields) : Bool := legalOpcodes.contains f.op

/-- The fields stand for a command: exactly the words R94 calls legal. -/
def CommandFields.wf (f : CommandFields) : Bool :=
  f.reservedClear && f.modifiersAllowed && f.opcodeKnown

end Sys2Proof
end

