-- ==== Sys2Proof/Decode.lean ====
section
/-! DEFINITION. Decoding and encoding of the 32-bit command word (`30_encoding.md` R90 to R95). Decoding is
total on every word and refuses an illegal word by the name of the check of R94 that it fails. -/

namespace Sys2Proof

/-- Why R94 calls a word illegal, in the order it checks. -/
inductive DecodeError where
  /-- A bit of 31:10 is set. -/
  | reservedBits
  /-- Bit 8 or 9 is set and the opcode is not that of `DERIVE` (R93). -/
  | modifierBits
  /-- The opcode is not one of R92. -/
  | unknownOpcode
  deriving DecidableEq, Repr

/-- The fields of a command word (R90). -/
def fieldsOf (w : Word) : CommandFields where
  op := w.extractLsb' 0 8
  carm := w.getLsbD 8
  hint := w.getLsbD 9
  zero := w.extractLsb' 10 22

/-- The command word with given fields (R90). -/
def CommandFields.word (f : CommandFields) : Word :=
  f.zero ++ BitVec.ofBool f.hint ++ BitVec.ofBool f.carm ++ f.op

/-- The opcodes of R92 that take no modifier bits. -/
def plainOpcode (op : BitVec 8) : Option Instr :=
  match op.toNat with
  | 0x01 => some .init
  | 0x10 => some .modpow
  | 0x11 => some .gcd
  | 0x12 => some .lcm
  | 0x13 => some .egcd
  | 0x14 => some .modinv
  | 0x15 => some .b2i
  | 0x16 => some .i2b
  | 0x30 => some .dhx
  | 0x40 => some .dlbf
  | 0x41 => some .dlbsgs
  | 0x50 => some .mapexp
  | 0x60 => some .aesenc
  | 0x70 => some .sha256
  | _ => none

/-- `decode` of R94 on the fields of a word. -/
def decodeFields (f : CommandFields) : Except DecodeError Instr :=
  if f.zero ≠ 0 then .error .reservedBits
  else if f.op = 0x20 then .ok (.derive f.carm f.hint)
  else if f.carm || f.hint then .error .modifierBits
  else match plainOpcode f.op with
    | some i => .ok i
    | none => .error .unknownOpcode

/-- `decode` of R94: the command a word stands for, or why it is illegal. -/
def decode (w : Word) : Except DecodeError Instr := decodeFields (fieldsOf w)

/-- The instruction an opcode-table row's bits decode to (`nbits` is 32 in every row; bit 0 of `w` is bit 0 of
the command word, which is one 32-bit value with no byte order of its own, `20_memory.md` R65). -/
def decodeTableWord (nbits w : Nat) : Option Instr :=
  match decode (BitVec.ofNat 32 (w % 2 ^ nbits)) with
  | .ok i => some i
  | .error _ => none

/-- The fields that stand for a command: the opcode column of R92. -/
def Instr.fields : Instr → CommandFields
  | .init => ⟨0x01, false, false, 0⟩
  | .modpow => ⟨0x10, false, false, 0⟩
  | .gcd => ⟨0x11, false, false, 0⟩
  | .lcm => ⟨0x12, false, false, 0⟩
  | .egcd => ⟨0x13, false, false, 0⟩
  | .modinv => ⟨0x14, false, false, 0⟩
  | .b2i => ⟨0x15, false, false, 0⟩
  | .i2b => ⟨0x16, false, false, 0⟩
  | .derive carm hint => ⟨0x20, carm, hint, 0⟩
  | .dhx => ⟨0x30, false, false, 0⟩
  | .dlbf => ⟨0x40, false, false, 0⟩
  | .dlbsgs => ⟨0x41, false, false, 0⟩
  | .mapexp => ⟨0x50, false, false, 0⟩
  | .aesenc => ⟨0x60, false, false, 0⟩
  | .sha256 => ⟨0x70, false, false, 0⟩

/-- The command word of an instruction (R90, R92). -/
def encode (i : Instr) : Word := i.fields.word

end Sys2Proof
end

