-- ==== Sys2Proof/Machine/Aes.lean ====
section
/-! DEFINITION. The AES-128 round pipeline `AESENC` (`45_aes128.md` R200 to R218). -/

namespace Sys2Proof.Machine

open Sys2Proof

/-- A 16-byte block: the state matrix or a round key, byte `r + 4c` being row r, column c (R201). -/
abbrev AesBlock := Vector Byte 16

/-- A four-byte word of the key schedule: one column (R201, R209). -/
abbrev AesWord := Vector Byte 4

/-! ## Arithmetic in GF(2^8) (R202) -/

/-- `xtime(a)`: a times x. -/
def xtime (a : Byte) : Byte := (a <<< 1) ^^^ (if a.getLsbD 7 then 0x1b else 0)

/-- The sum, over the bits of `b` from bit 8 − n up that are 1, of the matching multiple of `a`. -/
def gmulLoop : Nat → Byte → Byte → Byte
  | 0, _, _ => 0
  | n + 1, a, b => (if b.getLsbD 0 then a else 0) ^^^ gmulLoop n (xtime a) (b >>> 1)

/-- `gmul(a, b)`: multiplication in the field. -/
def gmul (a b : Byte) : Byte := gmulLoop 8 a b

/-! ## The transformations -/

/-- The rows of the substitution table (R203). -/
def sboxRows : List (List Byte) :=
  [[0x63, 0x7c, 0x77, 0x7b, 0xf2, 0x6b, 0x6f, 0xc5, 0x30, 0x01, 0x67, 0x2b, 0xfe, 0xd7, 0xab, 0x76],
   [0xca, 0x82, 0xc9, 0x7d, 0xfa, 0x59, 0x47, 0xf0, 0xad, 0xd4, 0xa2, 0xaf, 0x9c, 0xa4, 0x72, 0xc0],
   [0xb7, 0xfd, 0x93, 0x26, 0x36, 0x3f, 0xf7, 0xcc, 0x34, 0xa5, 0xe5, 0xf1, 0x71, 0xd8, 0x31, 0x15],
   [0x04, 0xc7, 0x23, 0xc3, 0x18, 0x96, 0x05, 0x9a, 0x07, 0x12, 0x80, 0xe2, 0xeb, 0x27, 0xb2, 0x75],
   [0x09, 0x83, 0x2c, 0x1a, 0x1b, 0x6e, 0x5a, 0xa0, 0x52, 0x3b, 0xd6, 0xb3, 0x29, 0xe3, 0x2f, 0x84],
   [0x53, 0xd1, 0x00, 0xed, 0x20, 0xfc, 0xb1, 0x5b, 0x6a, 0xcb, 0xbe, 0x39, 0x4a, 0x4c, 0x58, 0xcf],
   [0xd0, 0xef, 0xaa, 0xfb, 0x43, 0x4d, 0x33, 0x85, 0x45, 0xf9, 0x02, 0x7f, 0x50, 0x3c, 0x9f, 0xa8],
   [0x51, 0xa3, 0x40, 0x8f, 0x92, 0x9d, 0x38, 0xf5, 0xbc, 0xb6, 0xda, 0x21, 0x10, 0xff, 0xf3, 0xd2],
   [0xcd, 0x0c, 0x13, 0xec, 0x5f, 0x97, 0x44, 0x17, 0xc4, 0xa7, 0x7e, 0x3d, 0x64, 0x5d, 0x19, 0x73],
   [0x60, 0x81, 0x4f, 0xdc, 0x22, 0x2a, 0x90, 0x88, 0x46, 0xee, 0xb8, 0x14, 0xde, 0x5e, 0x0b, 0xdb],
   [0xe0, 0x32, 0x3a, 0x0a, 0x49, 0x06, 0x24, 0x5c, 0xc2, 0xd3, 0xac, 0x62, 0x91, 0x95, 0xe4, 0x79],
   [0xe7, 0xc8, 0x37, 0x6d, 0x8d, 0xd5, 0x4e, 0xa9, 0x6c, 0x56, 0xf4, 0xea, 0x65, 0x7a, 0xae, 0x08],
   [0xba, 0x78, 0x25, 0x2e, 0x1c, 0xa6, 0xb4, 0xc6, 0xe8, 0xdd, 0x74, 0x1f, 0x4b, 0xbd, 0x8b, 0x8a],
   [0x70, 0x3e, 0xb5, 0x66, 0x48, 0x03, 0xf6, 0x0e, 0x61, 0x35, 0x57, 0xb9, 0x86, 0xc1, 0x1d, 0x9e],
   [0xe1, 0xf8, 0x98, 0x11, 0x69, 0xd9, 0x8e, 0x94, 0x9b, 0x1e, 0x87, 0xe9, 0xce, 0x55, 0x28, 0xdf],
   [0x8c, 0xa1, 0x89, 0x0d, 0xbf, 0xe6, 0x42, 0x68, 0x41, 0x99, 0x2d, 0x0f, 0xb0, 0x54, 0xbb, 0x16]]

/-- `SBOX[a]`: row of the high digit, column of the low digit (R203). -/
def sbox (a : Byte) : Byte := (sboxRows.getD (a.toNat / 16) []).getD (a.toNat % 16) 0

/-- SubBytes (R204). -/
def subBytes (s : AesBlock) : AesBlock := s.map sbox

/-- ShiftRows (R205): byte r + 4c comes from column (c + r) mod 4 of row r. -/
def shiftRows (s : AesBlock) : AesBlock :=
  Vector.ofFn fun i : Fin 16 => s.get ⟨i.val % 4 + 4 * ((i.val / 4 + i.val % 4) % 4), by omega⟩

/-- One column of MixColumns (R206). -/
def mixColumn (a0 a1 a2 a3 : Byte) : AesWord :=
  #v[gmul a0 2 ^^^ gmul a1 3 ^^^ a2 ^^^ a3,
     a0 ^^^ gmul a1 2 ^^^ gmul a2 3 ^^^ a3,
     a0 ^^^ a1 ^^^ gmul a2 2 ^^^ gmul a3 3,
     gmul a0 3 ^^^ a1 ^^^ a2 ^^^ gmul a3 2]

/-- MixColumns (R206). -/
def mixColumns (s : AesBlock) : AesBlock :=
  Vector.ofFn fun i : Fin 16 =>
    (mixColumn (s.get ⟨4 * (i.val / 4), by omega⟩) (s.get ⟨4 * (i.val / 4) + 1, by omega⟩)
      (s.get ⟨4 * (i.val / 4) + 2, by omega⟩) (s.get ⟨4 * (i.val / 4) + 3, by omega⟩)).get
      ⟨i.val % 4, by omega⟩

/-- AddRoundKey (R207). -/
def addRoundKey (s key : AesBlock) : AesBlock := Vector.zipWith (· ^^^ ·) s key

/-! ## Key schedule (R208, R209) -/

/-- `RCON[1..10]` (R208). -/
def rconTable : List Byte := [0x01, 0x02, 0x04, 0x08, 0x10, 0x20, 0x40, 0x80, 0x1b, 0x36]

/-- `RCON[i]`, 1 ≤ i ≤ 10. -/
def rcon (i : Nat) : Byte := rconTable.getD (i - 1) 0

/-- RotWord: (t0, t1, t2, t3) ↦ (t1, t2, t3, t0) (R209). -/
def rotWord (t : AesWord) : AesWord := #v[t[1], t[2], t[3], t[0]]

/-- SubWord: the table on each of the four bytes (R209). -/
def subWord (t : AesWord) : AesWord := t.map sbox

/-- Word `j` ≥ 4 of the schedule from the words before it (R209). -/
def nextKeyWord (j : Nat) (w : List AesWord) : AesWord :=
  let prev := w.getD (j - 1) (Vector.replicate 4 0)
  let t :=
    if j % 4 = 0 then
      Vector.zipWith (· ^^^ ·) (subWord (rotWord prev)) #v[rcon (j / 4), 0, 0, 0]
    else prev
  Vector.zipWith (· ^^^ ·) (w.getD (j - 4) (Vector.replicate 4 0)) t

/-- The schedule extended by `n` words. -/
def extendKey : Nat → List AesWord → List AesWord
  | 0, w => w
  | n + 1, w => extendKey n (w ++ [nextKeyWord w.length w])

/-- Word j of the key itself, j = 0..3 (R209). -/
def keyWord (key : AesBlock) (j : Fin 4) : AesWord :=
  Vector.ofFn fun b : Fin 4 => key.get ⟨4 * j.val + b.val, by omega⟩

/-- The 44 words of the schedule (R209). -/
def keySchedule (key : AesBlock) : List AesWord :=
  extendKey 40 [keyWord key 0, keyWord key 1, keyWord key 2, keyWord key 3]

/-- `RK[k]`: the words 4k to 4k + 3 (R209). -/
def roundKey (w : List AesWord) (k : Nat) : AesBlock :=
  Vector.ofFn fun i : Fin 16 => (w.getD (4 * k + i.val / 4) (Vector.replicate 4 0)).get ⟨i.val % 4, by omega⟩

/-! ## The rounds and the command (R210, R212) -/

/-- A stage number of an `AES` record (R214). -/
inductive AesStage where
  /-- 0. -/
  | input
  /-- 1. -/
  | subBytes
  /-- 2. -/
  | shiftRows
  /-- 3. -/
  | mixColumns
  /-- 4. -/
  | addRoundKey
  deriving DecidableEq, Repr

/-- The number of a stage (R214). -/
def AesStage.number : AesStage → Word
  | .input => 0
  | .subBytes => 1
  | .shiftRows => 2
  | .mixColumns => 3
  | .addRoundKey => 4

/-- The `AES` record of a stage that adds no key (R214). -/
def aesRecord (round : Nat) (stage : AesStage) (s : AesBlock) : Record :=
  { Record.zero with kind := 5, a := BitVec.ofNat 32 round, b := stage.number, s := s }

/-- The `AES` record of an `ADDROUNDKEY` stage (R214). -/
def aesKeyRecord (round : Nat) (s key : AesBlock) : Record :=
  { aesRecord round .addRoundKey s with key := key }

/-- An encryption so far: the records, in order, and the state register. -/
structure AesRun where
  /-- The records. -/
  records : List Record
  /-- The state register `S`. -/
  s : AesBlock
  deriving DecidableEq, Repr

/-- Round `r` ≥ 1 (R210, R212): MixColumns is left out in round 10. -/
def aesRound (w : List AesWord) (r : Nat) (run : AesRun) : AesRun :=
  let sub := subBytes run.s
  let shifted := shiftRows sub
  let rk := roundKey w r
  if r = 10 then
    let added := addRoundKey shifted rk
    ⟨run.records ++ [aesRecord r .subBytes sub, aesRecord r .shiftRows shifted, aesKeyRecord r added rk], added⟩
  else
    let mixed := mixColumns shifted
    let added := addRoundKey mixed rk
    ⟨run.records ++ [aesRecord r .subBytes sub, aesRecord r .shiftRows shifted, aesRecord r .mixColumns mixed,
      aesKeyRecord r added rk], added⟩

/-- Round 0 (R210, R216): the input, then the original key added. -/
def aesRoundZero (w : List AesWord) (pt : AesBlock) : AesRun :=
  let added := addRoundKey pt (roundKey w 0)
  ⟨[aesRecord 0 .input pt, aesKeyRecord 0 added (roundKey w 0)], added⟩

/-- The whole encryption of R212: round 0, then rounds 1 to 10. -/
def aesEncrypt (pt key : AesBlock) : AesRun :=
  let w := keySchedule key
  [1, 2, 3, 4, 5, 6, 7, 8, 9, 10].foldl (fun run r => aesRound w r run) (aesRoundZero w pt)

/-- Sixteen bytes of a byte string from index `start` on (R200). -/
def blockAt (bs : List Byte) (start : Nat) : AesBlock := Vector.ofFn fun i : Fin 16 => bs.getD (start + i.val) 0

/-- The rule of `AESENC` (R212). -/
def aesencRule (s : State) (o : ResultState) : Except ErrorCode ResultState :=
  if s.ibufLen ≠ 32 then .error .invalidInput
  else
    let run := aesEncrypt (blockAt s.ibuf 0) (blockAt s.ibuf 16)
    match o.emitAll s.cfg run.records with
    | .ok o' => o'.putObuf s.cfg run.s.toList
    | .error c => .error c

/-- `AESENC` (R212). -/
def execAesenc (s : State) : Host.Outcome State Fault Refusal := runCommand aesencRule s

end Sys2Proof.Machine
end

