-- ==== Sys2Proof/Machine/DiffieHellman.lean ====
section
/-! DEFINITION. The Diffie–Hellman tracer `DHX` (`42_diffie_hellman.md` R155 to R159). -/

namespace Sys2Proof.Machine

open Sys2Proof

/-- The `DH` record of one step (R157): step number, base as used, exponent, modulus, value. -/
def dhRecord (step : Word) (base exponent modulus value : Int) : Record :=
  { Record.zero with kind := 1, a := step, f := #v[base, exponent, modulus, value] }

/-- The rule of `DHX` (R156). The two shared values are separate runs of the datapath (R158). -/
def dhxRule (s : State) (o : ResultState) : Except ErrorCode ResultState :=
  let p := s.xVal 0
  let g := s.xVal 1
  let a := s.xVal 2
  let b := s.xVal 3
  if p ≤ 0 then .error .invalidInput
  else if a < 0 ∨ b < 0 then .error .invalidInput
  else
    let pubA := modPow g a p
    let pubB := modPow g b p
    let sharedA := modPow pubB a p
    let sharedB := modPow pubA b p
    match o.emitAll s.cfg
        [dhRecord 1 g a p pubA, dhRecord 2 g b p pubB, dhRecord 3 pubB a p sharedA, dhRecord 4 pubA b p sharedB] with
    | .ok o' => .ok ((((o'.setR 0 pubA).setR 1 pubB).setR 2 sharedA).setR 3 sharedB)
    | .error c => .error c

/-- `DHX` (R156). -/
def execDhx (s : State) : Host.Outcome State Fault Refusal := runCommand dhxRule s

end Sys2Proof.Machine
end

