-- ==== Sys2Proof/Machine/DiscreteLog.lean ====
section
/-! DEFINITION. The discrete-log solver `DLBF` and `DLBSGS` (`43_discrete_log.md` R165 to R177). A search loop
runs over the room left in `TRACE`: every iteration emits one record, and the record that finds no room raises
`RESOURCE_LIMIT` (`10_state.md` R46, `70_reset_and_hazards.md` R310). -/

namespace Sys2Proof.Machine

open Sys2Proof

/-- The inputs of both commands after `dl_entry` (R166). -/
structure DlogInput where
  /-- The base reduced modulo p. -/
  gg : Int
  /-- The target reduced modulo p. -/
  yy : Int
  /-- The modulus. -/
  p : Int
  /-- The step budget M. -/
  budget : Int
  deriving DecidableEq, Repr

/-- `dl_entry` (R166): the checks, the warnings, the reductions. -/
def dlEntry (s : State) (o : ResultState) : Except ErrorCode (DlogInput × ResultState) :=
  let g := s.xVal 0
  let y := s.xVal 1
  let p := s.xVal 2
  let m := s.xVal 3
  if p ≤ 0 then .error .invalidInput
  else if m < 0 then .error .invalidInput
  else .ok (⟨g % p, y % p, p, m⟩, { o with status := dlogWarnings g y p o.status })

/-- How a search ends. -/
inductive SearchEnd where
  /-- A solution. -/
  | found (x : Int)
  /-- Every exponent covered, no match. -/
  | exhausted
  /-- The budget is used up. -/
  | truncated
  /-- The giant-step factor has no inverse (R175). -/
  | noInverse
  /-- A record finds no room in `TRACE` (R46). -/
  | overflow
  deriving DecidableEq, Repr

/-- A finished search: the records it emitted, in order, and how it ended. -/
structure SearchRun where
  /-- The records. -/
  records : List Record
  /-- The end. -/
  ending : SearchEnd
  deriving DecidableEq, Repr

/-- The run with one record emitted before it. -/
def SearchRun.after (rec : Record) (run : SearchRun) : SearchRun := { run with records := rec :: run.records }

/-- The outcome of a search on the result state: `return` with `R[0]`, `ABSENT`, `TRUNCATED`, `W_NO_INVERSE`
and `TRACE` (R167, R172, R175), or `raise RESOURCE_LIMIT`. -/
def SearchRun.commit (run : SearchRun) (o : ResultState) : Except ErrorCode ResultState :=
  let o' := { o with trace := o.trace ++ run.records }
  match run.ending with
  | .found x => .ok (o'.setR 0 x)
  | .exhausted => .ok (o'.setFlag .absent true)
  | .truncated => .ok ((o'.setFlag .absent true).setFlag .truncated true)
  | .noInverse => .ok ((o'.setFlag .wNoInverse true).setFlag .absent true)
  | .overflow => .error .resourceLimit

/-- `FLAGS` with `FOUND` (R43). -/
def foundFlag (b : Bool) : Word := if b then 1 else 0

/-- The `DL_BF` record (R168). -/
def bfRecord (x v : Int) (found : Bool) : Record :=
  { Record.zero with kind := 2, flags := foundFlag found, f := #v[x, v, 0, 0] }

/-- The loop of `DLBF` (R167) at exponent `x` with running power `v`; `room` records still fit. -/
def bfLoop (d : DlogInput) : Nat → Int → Int → SearchRun
  | 0, x, _ => if x = d.p then ⟨[], .exhausted⟩ else if x = d.budget then ⟨[], .truncated⟩ else ⟨[], .overflow⟩
  | room + 1, x, v =>
    if x = d.p then ⟨[], .exhausted⟩
    else if x = d.budget then ⟨[], .truncated⟩
    else if v = d.yy then ⟨[bfRecord x v true], .found x⟩
    else (bfLoop d room (x + 1) ((v * d.gg) % d.p)).after (bfRecord x v false)

/-- The rule of `DLBF` (R167). -/
def dlbfRule (s : State) (o : ResultState) : Except ErrorCode ResultState :=
  match dlEntry s o with
  | .error c => .error c
  | .ok (d, o') => (bfLoop d (s.cfg.traceCap - o'.trace.length) 0 (1 % d.p)).commit o'

/-- `DLBF` (R167). -/
def execDlbf (s : State) : Host.Outcome State Fault Refusal := runCommand dlbfRule s

/-- The baby-step table `TAB`: residue and least index. -/
abbrev BabyTable := List (Int × Int)

/-- `TAB[v]`, or none when `v` is not a key. -/
def BabyTable.find : BabyTable → Int → Option Int
  | [], _ => none
  | (k, j) :: t, v => if k = v then some j else BabyTable.find t v

/-- `if v is not a key of TAB: TAB[v] <- j` (R172). -/
def BabyTable.add (t : BabyTable) (v j : Int) : BabyTable :=
  match t.find v with
  | some _ => t
  | none => (v, j) :: t

/-- The `DL_BABY` record (R173). -/
def babyRecord (j v : Int) : Record := { Record.zero with kind := 3, f := #v[j, v, 0, 0] }

/-- The `DL_GIANT` record of a miss (R173). -/
def giantMiss (i gam : Int) : Record := { Record.zero with kind := 4, f := #v[i, gam, 0, 0] }

/-- The `DL_GIANT` record of the hit (R173). -/
def giantHit (i gam j x : Int) : Record :=
  { Record.zero with kind := 4, flags := foundFlag true, f := #v[i, gam, j, x] }

/-- The giant phase of R172 at step `i` with giant value `gam`, `n` records emitted so far, `room` still fitting. -/
def giantLoop (d : DlogInput) (m inv : Int) (tab : BabyTable) : Nat → Int → Int → Int → SearchRun
  | 0, n, i, _ => if i = m then ⟨[], .exhausted⟩ else if n = d.budget then ⟨[], .truncated⟩ else ⟨[], .overflow⟩
  | room + 1, n, i, gam =>
    if i = m then ⟨[], .exhausted⟩
    else if n = d.budget then ⟨[], .truncated⟩
    else match tab.find gam with
      | some j => ⟨[giantHit i gam j (i * m + j)], .found (i * m + j)⟩
      | none => (giantLoop d m inv tab room (n + 1) (i + 1) ((gam * inv) % d.p)).after (giantMiss i gam)

/-- Between the phases (R172): the inverse of g^m, then the giant phase, or the no-inverse end (R175). -/
def giantPhase (d : DlogInput) (m : Int) (tab : BabyTable) (room : Nat) (n v : Int) : SearchRun :=
  match modInv v d.p with
  | none => ⟨[], .noInverse⟩
  | some inv => giantLoop d m inv tab room n 0 d.yy

/-- The baby phase of R172 at step `j` (which is also the number of records emitted) with power `v`, then the
giant phase; `room` records still fit. -/
def babyLoop (d : DlogInput) (m : Int) : Nat → BabyTable → Int → Int → SearchRun
  | 0, tab, j, v =>
    if j = m then giantPhase d m tab 0 j v
    else if j = d.budget then ⟨[], .truncated⟩ else ⟨[], .overflow⟩
  | room + 1, tab, j, v =>
    if j = m then giantPhase d m tab (room + 1) j v
    else if j = d.budget then ⟨[], .truncated⟩
    else (babyLoop d m room (tab.add v j) (j + 1) ((v * d.gg) % d.p)).after (babyRecord j v)

/-- The rule of `DLBSGS` (R172), with m = ceil_sqrt(p). -/
def dlbsgsRule (s : State) (o : ResultState) : Except ErrorCode ResultState :=
  match dlEntry s o with
  | .error c => .error c
  | .ok (d, o') =>
    (babyLoop d (ceilSqrt d.p.toNat) (s.cfg.traceCap - o'.trace.length) [] 0 (1 % d.p)).commit o'

/-- `DLBSGS` (R172). -/
def execDlbsgs (s : State) : Host.Outcome State Fault Refusal := runCommand dlbsgsRule s

end Sys2Proof.Machine
end

