-- ==== Sys2Proof/Machine/Kernel.lean ====
section
/-! DEFINITION. The integer kernel commands (`40_integer_kernel.md`): `MODPOW`, `GCD`, `LCM`, `EGCD`, `MODINV`,
`B2I`, `I2B`. -/

namespace Sys2Proof.Machine

open Sys2Proof

/-- The rule of `MODPOW` (R112). -/
def modpowRule (s : State) (o : ResultState) : Except ErrorCode ResultState :=
  if s.xVal 2 ≤ 0 then .error .invalidInput
  else if s.xVal 1 < 0 then .error .invalidInput
  else .ok (o.setR 0 (modPow (s.xVal 0) (s.xVal 1) (s.xVal 2)))

/-- `MODPOW` (R112). -/
def execModpow (s : State) : Host.Outcome State Fault Refusal := runCommand modpowRule s

/-- The rule of `GCD` (R116). -/
def gcdRule (s : State) (o : ResultState) : Except ErrorCode ResultState :=
  .ok (o.setR 0 (gcdOf (s.xVal 0) (s.xVal 1)))

/-- `GCD` (R116). -/
def execGcd (s : State) : Host.Outcome State Fault Refusal := runCommand gcdRule s

/-- The rule of `LCM` (R118). -/
def lcmRule (s : State) (o : ResultState) : Except ErrorCode ResultState :=
  .ok (o.setR 0 (lcmOf (s.xVal 0) (s.xVal 1)))

/-- `LCM` (R118). -/
def execLcm (s : State) : Host.Outcome State Fault Refusal := runCommand lcmRule s

/-- The rule of `EGCD` (R120). -/
def egcdRule (s : State) (o : ResultState) : Except ErrorCode ResultState :=
  let t := egcd (s.xVal 0) (s.xVal 1)
  .ok (((o.setR 0 t.g).setR 1 t.x).setR 2 t.y)

/-- `EGCD` (R120). -/
def execEgcd (s : State) : Host.Outcome State Fault Refusal := runCommand egcdRule s

/-- The rule of `MODINV` (R124). -/
def modinvRule (s : State) (o : ResultState) : Except ErrorCode ResultState :=
  if s.xVal 1 ≤ 0 then .error .invalidInput
  else
    match modInv (s.xVal 0) (s.xVal 1) with
    | none => .ok (o.setFlag .absent true)
    | some r => .ok (o.setR 0 r)

/-- `MODINV` (R124). -/
def execModinv (s : State) : Host.Outcome State Fault Refusal := runCommand modinvRule s

/-- The rule of `B2I` (R128). -/
def b2iRule (s : State) (o : ResultState) : Except ErrorCode ResultState :=
  if s.cfg.resb < (minBytes (beVal s.ibuf)).length then .error .resourceLimit
  else .ok (o.setR 0 (beVal s.ibuf))

/-- `B2I` (R128). -/
def execB2i (s : State) : Host.Outcome State Fault Refusal := runCommand b2iRule s

/-- The rule of `I2B` (R130). -/
def i2bRule (s : State) (o : ResultState) : Except ErrorCode ResultState :=
  if s.xVal 0 < 0 then .error .invalidInput
  else o.putObuf s.cfg (minBytes (s.xVal 0).toNat)

/-- `I2B` (R130). -/
def execI2b (s : State) : Host.Outcome State Fault Refusal := runCommand i2bRule s

end Sys2Proof.Machine
end

