-- ==== Sys2Proof/Machine/Mapper.lean ====
section
/-! DEFINITION. The bijection mapper `MAPEXP` (`44_bijection_mapper.md` R190 to R194). -/

namespace Sys2Proof.Machine

open Sys2Proof

/-- `MAP[0..c−1]` of R191: element i is (i^e mod n) mod c. -/
def mapEntries (e n : Int) (c : Nat) : List Int := (List.range c).map (fun i => modPow (i : Int) e n % (c : Int))

/-- The count after the clamp to `MAP_CAP` (R191, R192). -/
def clampCount (count : Int) (cap : Nat) : Nat := min count.toNat cap

/-- The rule of `MAPEXP` (R191). -/
def mapexpRule (s : State) (o : ResultState) : Except ErrorCode ResultState :=
  let e := s.xVal 0
  let n := s.xVal 1
  let count := s.xVal 2
  if n ≤ 0 then .error .invalidInput
  else if e < 0 then .error .invalidInput
  else if count < 0 then .error .invalidInput
  else
    .ok { o with
      status := clampFlag count s.cfg.mapCap o.status
      map := mapEntries e n (clampCount count s.cfg.mapCap) }

/-- `MAPEXP` (R191). -/
def execMapexp (s : State) : Host.Outcome State Fault Refusal := runCommand mapexpRule s

end Sys2Proof.Machine
end

