-- ==== Sys2Proof/Machine/Rsa.lean ====
section
/-! DEFINITION. The RSA parameter deriver `DERIVE` (`41_rsa_deriver.md` R140 to R149). -/

namespace Sys2Proof.Machine

open Sys2Proof

/-- The exponent modulus `T` (R141): φ, or λ when `carm` is set. -/
def exponentModulus (carm : Bool) (p q : Int) : Int :=
  if carm then lcmOf (p - 1) (q - 1) else (p - 1) * (q - 1)

/-- The candidate after `c` (R145): the next odd integer above it. -/
def nextCandidate (c : Int) : Int := if c % 2 = 0 then c + 1 else c + 2

/-- The first candidate of the search (R145): the hint or the default, or 3 when that is out of range. -/
def firstCandidate (t start : Int) : Int := if start ≤ 1 ∨ t ≤ start then 3 else start

/-- The loop of `search` (R145), with `E_ATTEMPTS − att` attempts left: the first pair (e, d) accepted. -/
def exponentSearch (t : Int) : Nat → Int → Except ErrorCode (Int × Int)
  | 0, _ => .error .searchExhausted
  | left + 1, c =>
    if t ≤ c then .error .searchExhausted
    else if gcdOf c t = 1 then
      match modInv c t with
      | some d => if d ≠ c then .ok (c, d) else exponentSearch t left (nextCandidate c)
      | none => exponentSearch t left (nextCandidate c)
    else exponentSearch t left (nextCandidate c)

/-- The start of the search: the hint in `X[2]` when `HINT` is 1, else `E_DEFAULT` (R144, R145). -/
def searchStart (hint : Bool) (s : State) : Int := if hint then s.xVal 2 else s.cfg.eDefault

/-- The rule of `DERIVE` (R144). -/
def deriveRule (carm hint : Bool) (s : State) (o : ResultState) : Except ErrorCode ResultState :=
  let p := s.xVal 0
  let q := s.xVal 1
  if p = q then .error .invalidInput
  else if p < 2 ∨ q < 2 then .error .invalidInput
  else
    let t := exponentModulus carm p q
    match exponentSearch t s.cfg.eAttempts (firstCandidate t (searchStart hint s)) with
    | .ok (e, d) => .ok (((o.setR 0 (p * q)).setR 1 e).setR 2 d)
    | .error c => .error c

/-- `DERIVE` (R144). -/
def execDerive (carm hint : Bool) (s : State) : Host.Outcome State Fault Refusal :=
  runCommand (deriveRule carm hint) s

end Sys2Proof.Machine
end

