-- ==== Sys2Proof/Machine/Sha.lean ====
section
/-! DEFINITION. The SHA-256 compression loop `SHA256` (`46_sha256.md` R230 to R247). -/

namespace Sys2Proof.Machine

open Sys2Proof

/-! ## Padding (R232) -/

/-- The `n` low bytes of `v`, most significant first. -/
def beBytes : Nat → Nat → List Byte
  | 0, _ => []
  | n + 1, v => BitVec.ofNat 8 (v / 256 ^ n) :: beBytes n v

/-- `z` of R232: the number of zero bytes, (55 − L) mod 64 with the floor remainder. -/
def padZeros (l : Nat) : Nat := ((55 - (l : Int)) % 64).toNat

/-- `pad(msg, L)` with L the length of `msg` (R232). -/
def shaPad (msg : List Byte) : List Byte :=
  msg ++ [0x80] ++ List.replicate (padZeros msg.length) 0 ++ beBytes 8 (8 * msg.length)

/-! ## Functions and constants (R233, R234, R235) -/

/-- `rotr32(x, n)` for 0 < n < 32 (`00_scope.md` R10). -/
def rotr32 (x : Word) (n : Nat) : Word := (x >>> n) ||| (x <<< (32 - n))

/-- `Ch`. -/
def shaCh (x y z : Word) : Word := (x &&& y) ^^^ (~~~x &&& z)

/-- `Maj`. -/
def shaMaj (x y z : Word) : Word := (x &&& y) ^^^ (x &&& z) ^^^ (y &&& z)

/-- `Σ0`. -/
def bigSigma0 (x : Word) : Word := rotr32 x 2 ^^^ rotr32 x 13 ^^^ rotr32 x 22

/-- `Σ1`. -/
def bigSigma1 (x : Word) : Word := rotr32 x 6 ^^^ rotr32 x 11 ^^^ rotr32 x 25

/-- `σ0`. -/
def smallSigma0 (x : Word) : Word := rotr32 x 7 ^^^ rotr32 x 18 ^^^ (x >>> 3)

/-- `σ1`. -/
def smallSigma1 (x : Word) : Word := rotr32 x 17 ^^^ rotr32 x 19 ^^^ (x >>> 10)

/-- The eight words of a running hash, or the working variables a to h (R237). -/
structure ShaVars where
  /-- `a`, or word 0 of the hash. -/
  a : Word
  /-- `b`, or word 1. -/
  b : Word
  /-- `c`, or word 2. -/
  c : Word
  /-- `d`, or word 3. -/
  d : Word
  /-- `e`, or word 4. -/
  e : Word
  /-- `f`, or word 5. -/
  f : Word
  /-- `g`, or word 6. -/
  g : Word
  /-- `h`, or word 7. -/
  h : Word
  deriving DecidableEq, Repr

/-- The initial hash state `H0` (R234). -/
def shaInit : ShaVars :=
  ⟨0x6a09e667, 0xbb67ae85, 0x3c6ef372, 0xa54ff53a, 0x510e527f, 0x9b05688c, 0x1f83d9ab, 0x5be0cd19⟩

/-- The round constants `K[0..63]` (R235). -/
def shaK : List Word :=
  [0x428a2f98, 0x71374491, 0xb5c0fbcf, 0xe9b5dba5, 0x3956c25b, 0x59f111f1, 0x923f82a4, 0xab1c5ed5] ++
  [0xd807aa98, 0x12835b01, 0x243185be, 0x550c7dc3, 0x72be5d74, 0x80deb1fe, 0x9bdc06a7, 0xc19bf174] ++
  [0xe49b69c1, 0xefbe4786, 0x0fc19dc6, 0x240ca1cc, 0x2de92c6f, 0x4a7484aa, 0x5cb0a9dc, 0x76f988da] ++
  [0x983e5152, 0xa831c66d, 0xb00327c8, 0xbf597fc7, 0xc6e00bf3, 0xd5a79147, 0x06ca6351, 0x14292967] ++
  [0x27b70a85, 0x2e1b2138, 0x4d2c6dfc, 0x53380d13, 0x650a7354, 0x766a0abb, 0x81c2c92e, 0x92722c85] ++
  [0xa2bfe8a1, 0xa81a664b, 0xc24b8b70, 0xc76c51a3, 0xd192e819, 0xd6990624, 0xf40e3585, 0x106aa070] ++
  [0x19a4c116, 0x1e376c08, 0x2748774c, 0x34b0bcb5, 0x391c0cb3, 0x4ed8aa4a, 0x5b9cca4f, 0x682e6ff3] ++
  [0x748f82ee, 0x78a5636f, 0x84c87814, 0x8cc70208, 0x90befffa, 0xa4506ceb, 0xbef9a3f7, 0xc67178f2]

/-! ## Schedule and compression (R236, R237) -/

/-- `BE32` of the four bytes from index `i` on (`00_scope.md` R12). -/
def be32At (bs : List Byte) (i : Nat) : Word :=
  bs.getD i 0 ++ bs.getD (i + 1) 0 ++ bs.getD (i + 2) 0 ++ bs.getD (i + 3) 0

/-- The four bytes `b` with `BE32(b)` = `w`. -/
def wordBytes (w : Word) : List Byte :=
  [w.extractLsb' 24 8, w.extractLsb' 16 8, w.extractLsb' 8 8, w.extractLsb' 0 8]

/-- `W[0..15]` of a block (R236). -/
def blockWords (block : List Byte) : List Word := (List.range 16).map (fun t => be32At block (4 * t))

/-- `W[t]` for t ≥ 16, from the words before it (R236). -/
def nextScheduleWord (w : List Word) (t : Nat) : Word :=
  smallSigma1 (w.getD (t - 2) 0) + w.getD (t - 7) 0 + smallSigma0 (w.getD (t - 15) 0) + w.getD (t - 16) 0

/-- The schedule extended by `n` words. -/
def extendSchedule : Nat → List Word → List Word
  | 0, w => w
  | n + 1, w => extendSchedule n (w ++ [nextScheduleWord w w.length])

/-- `W[0..63]` of a block (R236). -/
def shaSchedule (block : List Byte) : List Word := extendSchedule 48 (blockWords block)

/-- One round with constant `k` and schedule word `w` (R237). -/
def shaRound (v : ShaVars) (k w : Word) : ShaVars :=
  let t1 := v.h + bigSigma1 v.e + shaCh v.e v.f v.g + k + w
  let t2 := bigSigma0 v.a + shaMaj v.a v.b v.c
  ⟨t1 + t2, v.a, v.b, v.c, v.d + t1, v.e, v.f, v.g⟩

/-- The `SHA` record (R243): block, round, the variables as just updated, W[t], K[t]. -/
def shaRecord (blk t : Nat) (v : ShaVars) (w k : Word) : Record :=
  { Record.zero with
    kind := 6, a := BitVec.ofNat 32 blk, b := BitVec.ofNat 32 t,
    w := #v[v.a, v.b, v.c, v.d, v.e, v.f, v.g, v.h, w, k] }

/-- A hash so far: the records, in order, and eight words (working variables, or running hash). -/
structure ShaRun where
  /-- The records. -/
  records : List Record
  /-- The words. -/
  v : ShaVars
  deriving DecidableEq, Repr

/-- The rounds from round `t` on, one for each (constant, schedule word) pair (R237). -/
def shaRounds (blk : Nat) : List (Word × Word) → Nat → ShaVars → ShaRun
  | [], _, v => ⟨[], v⟩
  | (k, w) :: rest, t, v =>
    let v' := shaRound v k w
    let run := shaRounds blk rest (t + 1) v'
    ⟨shaRecord blk t v' w k :: run.records, run.v⟩

/-- The word-by-word addition that ends a block (R237). -/
def ShaVars.add (x y : ShaVars) : ShaVars :=
  ⟨x.a + y.a, x.b + y.b, x.c + y.c, x.d + y.d, x.e + y.e, x.f + y.f, x.g + y.g, x.h + y.h⟩

/-- The compression of block number `blk` into the running hash `h` (R237). -/
def shaCompress (blk : Nat) (block : List Byte) (h : ShaVars) : ShaRun :=
  let run := shaRounds blk (shaK.zip (shaSchedule block)) 0 h
  ⟨run.records, h.add run.v⟩

/-- The `n` blocks of a padded message from block `blk` on, into the running hash `h` (R240). -/
def shaBlocks (padded : List Byte) : Nat → Nat → ShaVars → ShaRun
  | 0, _, h => ⟨[], h⟩
  | n + 1, blk, h =>
    let one := shaCompress blk ((padded.drop (64 * blk)).take 64) h
    let rest := shaBlocks padded n (blk + 1) one.v
    ⟨one.records ++ rest.records, rest.v⟩

/-- The whole hash of a padded message (R240). -/
def shaHash (padded : List Byte) : ShaRun := shaBlocks padded (padded.length / 64) 0 shaInit

/-- A hash serialised as eight big-endian words (R240). -/
def ShaVars.bytes (v : ShaVars) : List Byte :=
  wordBytes v.a ++ wordBytes v.b ++ wordBytes v.c ++ wordBytes v.d
    ++ wordBytes v.e ++ wordBytes v.f ++ wordBytes v.g ++ wordBytes v.h

/-- The rule of `SHA256` (R240). -/
def sha256Rule (s : State) (o : ResultState) : Except ErrorCode ResultState :=
  let padded := shaPad s.ibuf
  match o.putPbuf s.cfg padded with
  | .error c => .error c
  | .ok o1 =>
    let run := shaHash padded
    match o1.emitAll s.cfg run.records with
    | .error c => .error c
    | .ok o2 => o2.putObuf s.cfg run.v.bytes

/-- `SHA256` (R240). -/
def execSha256 (s : State) : Host.Outcome State Fault Refusal := runCommand sha256Rule s

end Sys2Proof.Machine
end

