-- ==== Sys2Proof/Machine/System.lean ====
section
/-! DEFINITION. The system command `INIT` (`47_system.md` R260 to R262). -/

namespace Sys2Proof.Machine

open Sys2Proof

/-- The rule of `INIT` (R261): nothing, as the prologue has cleared the results and set `READY`. -/
def initRule (_ : State) (o : ResultState) : Except ErrorCode ResultState := .ok o

/-- `INIT` (R261). -/
def execInit (s : State) : Host.Outcome State Fault Refusal := runCommand initRule s

end Sys2Proof.Machine
end

