-- ==== Sys2Proof/Machine/Dispatch.lean ====
section
/-! DEFINITION. The meaning of every command of `30_encoding.md` R92, one arm each. -/

namespace Sys2Proof.Machine

def exec (i : Instr) (s : State) : Host.Outcome State Fault Refusal :=
  match i with
  | .init => Sys2Proof.Machine.execInit s
  | .modpow => Sys2Proof.Machine.execModpow s
  | .gcd => Sys2Proof.Machine.execGcd s
  | .lcm => Sys2Proof.Machine.execLcm s
  | .egcd => Sys2Proof.Machine.execEgcd s
  | .modinv => Sys2Proof.Machine.execModinv s
  | .b2i => Sys2Proof.Machine.execB2i s
  | .i2b => Sys2Proof.Machine.execI2b s
  | .derive carm hint => Sys2Proof.Machine.execDerive carm hint s
  | .dhx => Sys2Proof.Machine.execDhx s
  | .dlbf => Sys2Proof.Machine.execDlbf s
  | .dlbsgs => Sys2Proof.Machine.execDlbsgs s
  | .mapexp => Sys2Proof.Machine.execMapexp s
  | .aesenc => Sys2Proof.Machine.execAesenc s
  | .sha256 => Sys2Proof.Machine.execSha256 s

end Sys2Proof.Machine
end

