-- ==== Sys2Proof/Machine/Command.lean ====
section
/-! DEFINITION. The write to `CMD` (`20_memory.md` R70, `30_encoding.md` R97) and every bus event as one
operation on the state. -/

namespace Sys2Proof.Machine

open Sys2Proof

/-- `CMD <- w` (R33, R97). -/
def State.withCmd (s : State) (w : Word) : State := { s with cmd := w }

/-- The write of command word `w` to `CMD`, held until the command has completed (R70): the word is stored and
decoded, a legal one runs its command, an illegal one ends with `ILLEGAL_COMMAND` after the prologue (R95, R97). -/
def runWord (w : Word) (s : State) : Host.Outcome State Fault Refusal :=
  match decode w with
  | .ok i => exec i (s.withCmd w)
  | .error _ => .next ((s.withCmd w).prologue.raise .illegalCommand)

/-- The bus answers the host. -/
def State.reply (s : State) (r : BusReply) : State := { s with replies := r :: s.replies }

/-- An outcome followed by an answer to the host. -/
def replyAfter (o : Host.Outcome State Fault Refusal) (r : BusReply) : Host.Outcome State Fault Refusal :=
  match o with
  | .next s => .next (s.reply r)
  | .fault e => .fault e
  | .refused e => .refused e

/-- A stopped access as an outcome of the machine. -/
def BusStop.outcome : BusStop → Host.Outcome State Fault Refusal
  | .fault r => .fault r
  | .refused r => .refused r

/-- The outcome of a write that is not a command. -/
def writeOutcome (r : Except BusStop State) : Host.Outcome State Fault Refusal :=
  match r with
  | .ok s => .next (s.reply .done)
  | .error e => e.outcome

/-- One bus access (R62): it takes its full effect before the next begins (R71). -/
def busAccess (a : BusAccess) (s : State) : Host.Outcome State Fault Refusal :=
  match a with
  | .read32 addr =>
    match s.read32 addr with
    | .ok v => .next (s.reply (.value v))
    | .error e => e.outcome
  | .read8 addr =>
    match s.read8 addr with
    | .ok v => .next (s.reply (.value v))
    | .error e => e.outcome
  | .write32 addr v =>
    match wordLocAt addr with
    | some .cmd => replyAfter (runWord v s) .done
    | some loc => writeOutcome (s.writeWord addr loc v)
    | none => (stop32 s.cfg addr).outcome
  | .write8 addr v =>
    match byteLocAt s.cfg addr with
    | some loc => writeOutcome (s.writeByte addr loc v)
    | none => (stop8 addr).outcome

/-- Reset (R300, R55): every piece of architectural state takes its reset value; the implementation stays, and so
do the host's own pending events and answers. -/
def State.doReset (s : State) : State :=
  { State.resetOf s.cfg with pending := s.pending, replies := s.replies }

/-- One bus event. -/
def busEvent (e : BusEvent) (s : State) : Host.Outcome State Fault Refusal :=
  match e with
  | .access a => busAccess a s
  | .reset => .next s.doReset

/-- The state with the first pending event taken off. -/
def State.withPending (s : State) (p : List BusEvent) : State := { s with pending := p }

/-- The next thing the block does: the first pending event, or nothing (R301). -/
def nextEvent (s : State) : Host.Outcome State Fault Refusal :=
  match s.pending with
  | [] => .next s
  | e :: rest => busEvent e (s.withPending rest)

/-- `s` with the write of command word `w` to `CMD` put in front of the pending events. -/
def State.withCommandPending (s : State) (w : Word) : State :=
  s.withPending (.access (.write32 WordLoc.cmd.addr w) :: s.pending)

end Sys2Proof.Machine
end

