-- ==== Sys2Proof/Machine/Step.lean ====
section
/-! DEFINITION. One step of the machine: the next bus event in the order the bus grants them (`20_memory.md` R71),
a command being one atomic step with its write to `CMD` (R70). -/

namespace Sys2Proof.Machine

open Sys2Proof

/-- One step (R15, R70, R71). With no event pending the block does nothing (`70_reset_and_hazards.md` R301). -/
def step (s : State) : Host.Outcome State Fault Refusal := nextEvent s

/-- `s` with the command word whose bits are `w` placed where the next step takes it: the first pending event is
the host's write of it to `CMD` (`10_state.md` R32, log entry 3). -/
def State.withFetchWord (s : State) (nbits w : Nat) : State :=
  s.withCommandPending (BitVec.ofNat 32 (w % 2 ^ nbits))

end Sys2Proof.Machine
end

