-- ==== Sys2Proof/Machine/Driver.lean ====
section
/-! DEFINITION. The host side of the block as the spec gives it: the typed host operations and their bus sequences
(`20_memory.md` R77), the assembler lines (`30_encoding.md` R99), and the driver's decimal text (`20_memory.md`
R78). Nothing here is state of the block; every operation is a sequence of bus accesses. -/

namespace Sys2Proof.Machine

open Sys2Proof

/-! ## Bus sequences -/

/-- The 1-byte writes of a byte string to consecutive offsets. -/
def byteWrites : Nat → List Byte → List BusAccess
  | _, [] => []
  | addr, b :: bs => .write8 addr b :: byteWrites (addr + 1) bs

/-- `LDX k, v` (R77). -/
def ldxAccesses (k : Fin 4) (v : Int) : List BusAccess :=
  .write32 (xBase k) ((canonSign v).setWidth 32) ::
    (byteWrites (xMagAddr k 0) (canonMag v) ++ [.write32 (xBase k + 4) (BitVec.ofNat 32 (canonMag v).length)])

/-- `LDB bs` (R77). -/
def ldbAccesses (bs : List Byte) : List BusAccess :=
  byteWrites (ibufAddr 0) bs ++ [.write32 WordLoc.ibufLen.addr (BitVec.ofNat 32 bs.length)]

/-- `CMD w` (R77). -/
def cmdAccesses (w : Word) : List BusAccess := [.write32 WordLoc.cmd.addr w]

/-- An outcome as a value or a stop. -/
def outcomeState (o : Host.Outcome State Fault Refusal) : Except BusStop State :=
  match o with
  | .next s => .ok s
  | .fault r => .error (.fault r)
  | .refused r => .error (.refused r)

/-- Bus accesses one after another, until one takes no step. -/
def runAccesses : List BusAccess → State → Except BusStop State
  | [], s => .ok s
  | a :: rest, s =>
    match outcomeState (busAccess a s) with
    | .ok s' => runAccesses rest s'
    | .error e => .error e

/-- `n` 1-byte reads from consecutive offsets; each answer is a zero-extended byte (R62), of which the host takes
the byte. -/
def readBytes (s : State) : Nat → Nat → Except BusStop (List Byte)
  | _, 0 => .ok []
  | addr, n + 1 => do
    let b ← s.read8 addr
    let bs ← readBytes s (addr + 1) n
    return b.setWidth 8 :: bs

/-- `n` 4-byte reads from consecutive 32-bit locations. -/
def readWords (s : State) : Nat → Nat → Except BusStop (List Word)
  | _, 0 => .ok []
  | addr, n + 1 => do
    let w ← s.read32 addr
    let ws ← readWords s (addr + 4) n
    return w :: ws

/-- The integer of the block at offset `base`: `SIGN`, `LEN`, then `LEN` magnitude bytes (R66, R77). -/
def readInt (s : State) (base : Nat) : Except BusStop Int := do
  let sign ← s.read32 base
  let n ← s.read32 (base + 4)
  let bytes ← readBytes s (base + 0x100) n.toNat
  return signedVal (sign.setWidth 1) (beVal bytes)

/-- The record window (R67), all fields. -/
def readRecord (s : State) : Except BusStop Record := do
  let kind ← s.read32 WordLoc.recKind.addr
  let flags ← s.read32 WordLoc.recFlags.addr
  let a ← s.read32 WordLoc.recA.addr
  let b ← s.read32 WordLoc.recB.addr
  let w ← readWords s 0x0C0010 10
  let st ← readBytes s 0x0C0040 16
  let key ← readBytes s 0x0C0050 16
  let f0 ← readInt s 0x0D0000
  let f1 ← readInt s 0x0E0000
  let f2 ← readInt s 0x0F0000
  let f3 ← readInt s 0x100000
  return {
    kind := kind, flags := flags, a := a, b := b
    w := Vector.ofFn fun i => w.getD i.val 0
    s := Vector.ofFn fun i => st.getD i.val 0
    key := Vector.ofFn fun i => key.getD i.val 0
    f := #v[f0, f1, f2, f3] }

/-! ## Typed host operations (R77, R99) -/

/-- The length register of `RDL`. -/
inductive LengthReg where
  /-- `OBUF_LEN`. -/
  | obufLen
  /-- `PBUF_LEN`. -/
  | pbufLen
  /-- `TRACE_LEN`. -/
  | traceLen
  /-- `MAP_LEN`. -/
  | mapLen
  deriving DecidableEq, Repr

/-- The location of a length register. -/
def LengthReg.loc : LengthReg → WordLoc
  | .obufLen => .obufLen
  | .pbufLen => .pbufLen
  | .traceLen => .traceLen
  | .mapLen => .mapLen

/-- A typed host operation (R77), or the host copy `MOVX` (R99). -/
inductive HostOp where
  /-- `LDX k, v`. -/
  | ldx (k : Fin 4) (v : Int)
  /-- `LDB bs`. -/
  | ldb (bs : List Byte)
  /-- `CMD w`, or a command line of the assembler. -/
  | cmd (w : Word)
  /-- `RDS`. -/
  | rds
  /-- `RDR k`. -/
  | rdr (k : Fin 4)
  /-- `RDO`. -/
  | rdo
  /-- `RDP`. -/
  | rdp
  /-- `RDL reg`. -/
  | rdl (reg : LengthReg)
  /-- `RDT j`. -/
  | rdt (j : Word)
  /-- `RDM j`. -/
  | rdm (j : Word)
  /-- `MOVX k, R j`: `RDR j`, then `LDX k` of the value read. -/
  | movx (k j : Fin 4)
  deriving DecidableEq, Repr

/-- What a host operation gives the host. -/
inductive HostValue where
  /-- Nothing. -/
  | none
  /-- A register. -/
  | word (w : Word)
  /-- An integer. -/
  | int (v : Int)
  /-- A byte string. -/
  | bytes (bs : List Byte)
  /-- A record. -/
  | record (r : Record)
  deriving DecidableEq, Repr

/-- A byte buffer read with its length register (R77, `RDO` and `RDP`). -/
def readBuffer (s : State) (lenLoc : WordLoc) (base : Nat) : Except BusStop (List Byte) := do
  let n ← s.read32 lenLoc.addr
  readBytes s base n.toNat

/-- `RDM j`: the index written, then the integer block of the map window. -/
def readMapEntry (j : Word) (s : State) : Except BusStop (State × Int) := do
  let t ← runAccesses [.write32 WordLoc.mapIdx.addr j] s
  return (t, ← readInt t (WordLoc.sign .map).addr)

/-- `RDT j`: the index written, then every field of the record window. -/
def readTraceRecord (j : Word) (s : State) : Except BusStop (State × Record) := do
  let t ← runAccesses [.write32 WordLoc.traceIdx.addr j] s
  return (t, ← readRecord t)

/-- A host operation as its bus sequence (R77, R99). -/
def HostOp.run (op : HostOp) (s : State) : Except BusStop (State × HostValue) :=
  match op with
  | .ldx k v => do return (← runAccesses (ldxAccesses k v) s, .none)
  | .ldb bs => do return (← runAccesses (ldbAccesses bs) s, .none)
  | .cmd w => do return (← runAccesses (cmdAccesses w) s, .none)
  | .rds => do return (s, .word (← s.read32 WordLoc.status.addr))
  | .rdr k => do return (s, .int (← readInt s (WordLoc.sign (.r k)).addr))
  | .rdo => do return (s, .bytes (← readBuffer s .obufLen 0x0A0000))
  | .rdp => do return (s, .bytes (← readBuffer s .pbufLen 0x0B0000))
  | .rdl reg => do return (s, .word (← s.read32 reg.loc.addr))
  | .rdt j => do
    let (t, r) ← readTraceRecord j s
    return (t, .record r)
  | .rdm j => do
    let (t, v) ← readMapEntry j s
    return (t, .int v)
  | .movx k j => do
    let v ← readInt s (WordLoc.sign (.r j)).addr
    return (← runAccesses (ldxAccesses k v) s, .none)

/-- A host program without control flow: the values its operations give, in order, and the state after it. -/
def runHost : List HostOp → State → Except BusStop (State × List HostValue)
  | [], s => .ok (s, [])
  | op :: ops, s => do
    let (s', v) ← op.run s
    let (t, vs) ← runHost ops s'
    return (t, v :: vs)

/-- The command lines of the assembler and the words they stand for (R99): the mnemonics of R92, with suffixes
for `DERIVE`. -/
def commandLines : List (String × Instr) :=
  [("INIT", .init), ("MODPOW", .modpow), ("GCD", .gcd), ("LCM", .lcm), ("EGCD", .egcd), ("MODINV", .modinv),
   ("B2I", .b2i), ("I2B", .i2b), ("DERIVE.PHI", .derive false false), ("DERIVE.LAM", .derive true false),
   ("DERIVE.PHI.H", .derive false true), ("DERIVE.LAM.H", .derive true true), ("DHX", .dhx), ("DLBF", .dlbf),
   ("DLBSGS", .dlbsgs), ("MAPEXP", .mapexp), ("AESENC", .aesenc), ("SHA256", .sha256)]

/-- The word a command line assembles to (R99). -/
def assemble (line : String) : Option Word := (commandLines.lookup line).map encode

/-! ## Decimal text (R78) -/

/-- The value of a decimal digit. -/
def digitVal (c : Char) : Option Nat := if 48 ≤ c.toNat ∧ c.toNat ≤ 57 then some (c.toNat - 48) else none

/-- The value of a digit string read after `acc`; none when a character is no digit. -/
def digitsVal : List Char → Nat → Option Nat
  | [], acc => some acc
  | c :: cs, acc =>
    match digitVal c with
    | some d => digitsVal cs (acc * 10 + d)
    | none => none

/-- One or more digits. -/
def parseNat (cs : List Char) : Option Nat := if cs = [] then none else digitsVal cs 0

/-- R78 (a), (b): an optional `-`, then one or more digits, and nothing else. -/
def parseDecimal (cs : List Char) : Option Int :=
  match cs with
  | '-' :: ds => (parseNat ds).map (fun n => -(n : Int))
  | ds => (parseNat ds).map (fun n => (n : Int))

/-- Puts the decimal digits of `n` in front of `acc`; `fuel` ≥ the number of digits. -/
def digitsLoop : Nat → Nat → List Char → List Char
  | 0, _, acc => acc
  | fuel + 1, n, acc => if n = 0 then acc else digitsLoop fuel (n / 10) (Char.ofNat (48 + n % 10) :: acc)

/-- The decimal digits of a natural number, `0` for zero, no leading zeros (R78 (d)). -/
def formatNat (n : Nat) : List Char := if n = 0 then ['0'] else digitsLoop n n []

/-- R78 (d): decimal text of an integer, with a leading `-` for a negative value. -/
def formatDecimal (v : Int) : List Char := if v < 0 then '-' :: formatNat v.natAbs else formatNat v.natAbs

/-- What the driver gives its caller. -/
inductive DriverAnswer where
  /-- The typed failure `INVALID_INPUT`, returned without issuing a command. -/
  | invalidInput
  /-- A typed failure of the command: a non-zero `STATUS.CODE` (`00_scope.md` section 6). -/
  | failure (code : BitVec 4)
  /-- The absent value (`none`, `null`). -/
  | absent
  /-- Decimal text. -/
  | text (cs : List Char)
  /-- An array of integers, each as decimal text. -/
  | texts (css : List (List Char))
  /-- A byte array: integers from 0 to 255. -/
  | bytes (vs : List Int)
  deriving DecidableEq, Repr

/-- R78 (a), (b): the integer a text argument loads, or none where the driver answers `INVALID_INPUT`. -/
def driverArgument (c : Params) (cs : List Char) : Option Int :=
  match parseDecimal cs with
  | some v => if v.natAbs < 256 ^ c.opb then some v else none
  | none => none

/-- R78 (c): the bytes a byte-array argument loads, or none where an element is outside 0 to 255. -/
def driverBytes : List Int → Option (List Byte)
  | [] => some []
  | v :: vs =>
    if 0 ≤ v ∧ v ≤ 255 then
      match driverBytes vs with
      | some bs => some (BitVec.ofInt 8 v :: bs)
      | none => none
    else none

/-- An argument a caller gives the driver, with the place it goes to (`30_encoding.md` R96). -/
inductive DriverArg where
  /-- An integer as text, for `X[k]`. -/
  | int (k : Fin 4) (cs : List Char)
  /-- A byte array, for `IBUF`. -/
  | bytes (vs : List Int)
  deriving DecidableEq, Repr

/-- One argument loaded (R78 (a), (b), (c)): `LDX` of the integer the text stands for, `LDB` of the byte array, or
the failure `INVALID_INPUT` with no bus access at all. -/
def driverLoad (arg : DriverArg) (s : State) : Except BusStop (State × Option DriverAnswer) :=
  match arg with
  | .int k cs =>
    match driverArgument s.cfg cs with
    | some v => do return (← runAccesses (ldxAccesses k v) s, none)
    | none => .ok (s, some .invalidInput)
  | .bytes vs =>
    match driverBytes vs with
    | some bs => do return (← runAccesses (ldbAccesses bs) s, none)
    | none => .ok (s, some .invalidInput)

/-- The arguments loaded one after another, until one is invalid (log entry 18). -/
def driverLoadAll : List DriverArg → State → Except BusStop (State × Option DriverAnswer)
  | [], s => .ok (s, none)
  | arg :: args, s => do
    match ← driverLoad arg s with
    | (t, none) => driverLoadAll args t
    | (t, some a) => return (t, some a)

/-- What a caller asks the driver for after a command. -/
inductive DriverQuery where
  /-- The integer result in `R[k]`. -/
  | register (k : Fin 4)
  /-- The integer array of `MAPEXP`, `MAP[0..MAP_LEN−1]`. -/
  | mapping
  /-- The four integer fields of the record `TRACE[j]`. -/
  | step (j : Word)
  /-- The output bytes, `OBUF[0..OBUF_LEN−1]`. -/
  | output
  /-- The padded message, `PBUF[0..PBUF_LEN−1]`. -/
  | padded
  deriving DecidableEq, Repr

/-- `n` entries of the map from entry `j` on, by `RDM`. -/
def readMapEntries : Nat → Nat → State → Except BusStop (State × List Int)
  | 0, _, s => .ok (s, [])
  | n + 1, j, s => do
    let (t, v) ← readMapEntry (BitVec.ofNat 32 j) s
    let (u, vs) ← readMapEntries n (j + 1) t
    return (u, v :: vs)

/-- A byte string as the integers from 0 to 255 the boundary of R78 carries. -/
def byteArray (bs : List Byte) : List Int := bs.map fun b => (b.toNat : Int)

/-- The answer to one query after a command that ended with code `OK` (R78 (d), (e)). The absent value stands for the
result register only: the trace of a search without a solution is kept (`60_exceptions.md` R274). -/
def driverRead (q : DriverQuery) (s : State) : Except BusStop (State × DriverAnswer) :=
  match q with
  | .register k => do
    let st ← s.read32 WordLoc.status.addr
    if getFlag st .absent then return (s, .absent)
    let v ← readInt s (WordLoc.sign (.r k)).addr
    return (s, .text (formatDecimal v))
  | .mapping => do
    let n ← s.read32 WordLoc.mapLen.addr
    let (t, vs) ← readMapEntries n.toNat 0 s
    return (t, .texts (vs.map formatDecimal))
  | .step j => do
    let (t, r) ← readTraceRecord j s
    return (t, .texts (r.f.toList.map formatDecimal))
  | .output => do return (s, .bytes (byteArray (← readBuffer s .obufLen 0x0A0000)))
  | .padded => do return (s, .bytes (byteArray (← readBuffer s .pbufLen 0x0B0000)))

/-- The answer to one query as the driver returns it after a command: a typed failure, or what `driverRead` gives. -/
def driverResult (q : DriverQuery) (s : State) : Except BusStop (State × DriverAnswer) := do
  let st ← s.read32 WordLoc.status.addr
  if statusCode st ≠ 0 then return (s, .failure (statusCode st))
  driverRead q s

/-- The answers to several queries, in order. -/
def driverResults : List DriverQuery → State → Except BusStop (State × List DriverAnswer)
  | [], s => .ok (s, [])
  | q :: qs, s => do
    let (t, a) ← driverResult q s
    let (u, rest) ← driverResults qs t
    return (u, a :: rest)

/-- A call of the driver (R78): the arguments are loaded and the command is issued, and the results asked for are
returned; an invalid argument ends the call with `INVALID_INPUT` and no command is issued. -/
def driverCall (args : List DriverArg) (i : Instr) (qs : List DriverQuery) (s : State) :
    Except BusStop (State × List DriverAnswer) := do
  match ← driverLoadAll args s with
  | (t, some a) => return (t, [a])
  | (t, none) =>
    let u ← runAccesses (cmdAccesses (encode i)) t
    driverResults qs u

end Sys2Proof.Machine
end

