-- ==== Sys2Proof/Safety.lean ====
section
/-! DEFINITION. The terms the statements use: what a state that a run can reach looks like, which bus accesses take
a step, and how the end of a command is written down. -/

namespace Sys2Proof.Machine

open Sys2Proof

/-! ## Legal states -/

/-- Every `LEN` is within its bound (R22, R38). -/
abbrev State.lensOk (s : State) : Prop :=
  (∀ k : Fin 4, s.x[k].len.toNat ≤ s.cfg.opb) ∧ s.ibufLen.toNat ≤ s.cfg.ibufCap

/-- The offset is `X[k].MAG[i]` or `IBUF[i]` of an implementation with parameters `c`. -/
def hostByte (c : Params) (addr : Nat) : Bool :=
  match byteLocAt c addr with
  | some (.mag (.x _) _) => true
  | some (.ibuf _) => true
  | _ => false

/-- The memory is in canonical form and lists host-written byte locations only. -/
abbrev State.memOk (s : State) : Prop := s.mem.wf ∧ ∀ c ∈ s.mem, hostByte s.cfg c.1 = true

/-- The buffers, the map and the trace fit their capacities (R39 to R42). -/
abbrev State.buffersOk (s : State) : Prop :=
  s.out.obuf.length ≤ s.cfg.obufCap ∧ s.out.pbuf.length ≤ s.cfg.pbufCap
    ∧ s.out.map.length ≤ s.cfg.mapCap ∧ s.out.trace.length ≤ s.cfg.traceCap

/-- `STATUS` as R34 and R270 say it can be: reserved bits 0, `CODE` at most 4, no flag but `READY` beside an error
code, and nothing at all before `READY` (R260). -/
abbrev statusOk (st : Word) : Prop :=
  st &&& ~~~statusUsed = 0 ∧ (statusCode st).toNat ≤ 4
    ∧ (statusCode st = 0 ∨ st &&& 0x7FFFFFF0 = 0) ∧ (getFlag st .ready = true ∨ st = 0)

/-- Every entry of the map is an index of it (R41), and every record is of a kind R44 lists, with `FLAGS` 0 or 1. -/
abbrev State.contentsOk (s : State) : Prop :=
  (∀ v ∈ s.out.map, 0 ≤ v ∧ v < (s.out.map.length : Int))
    ∧ ∀ r ∈ s.out.trace, 1 ≤ r.kind.toNat ∧ r.kind.toNat ≤ 6 ∧ r.flags.toNat ≤ 1

/-- The invariant of the block: what holds at reset and after every step. -/
abbrev State.Inv (s : State) : Prop :=
  s.cfg.ok = true ∧ s.lensOk ∧ s.memOk ∧ s.buffersOk ∧ statusOk s.out.status ∧ s.contentsOk

/-- Every integer of the result state fits a result register (R31). -/
abbrev State.resultsFit (s : State) : Prop :=
  (∀ k : Fin 4, s.out.r[k].natAbs < 256 ^ s.cfg.resb)
    ∧ (∀ r ∈ s.out.trace, ∀ k : Fin 4, r.f[k].natAbs < 256 ^ s.cfg.resb)
    ∧ ∀ v ∈ s.out.map, v.natAbs < 256 ^ s.cfg.resb

/-! ## Accesses that take a step (R61, R62, R69) -/

/-- The 32-bit location takes the value `v` from a host (R61, R69 (c), (d)); `CMD` takes every word. -/
def WordLoc.takes (c : Params) (v : Word) : WordLoc → Bool
  | .cmd => true
  | .ibufLen => decide (v.toNat ≤ c.ibufCap)
  | .traceIdx => true
  | .mapIdx => true
  | .sign (.x _) => decide (v.toNat ≤ 1)
  | .len (.x _) => decide (v.toNat ≤ c.opb)
  | _ => false

/-- The 8-bit location is host-written (R61). -/
def ByteLoc.hostWritten : ByteLoc → Bool
  | .mag (.x _) _ => true
  | .ibuf _ => true
  | _ => false

/-- The offset an access addresses (R63). -/
def BusAccess.addr : BusAccess → Nat
  | .read32 a => a
  | .read8 a => a
  | .write32 a _ => a
  | .write8 a _ => a

/-- Some location has the byte at offset `a` (R61, R62): a byte location there, or a 32-bit location over it. -/
def offsetUsed (c : Params) (a : Nat) : Prop :=
  (∃ loc : ByteLoc, loc.inRange c = true ∧ loc.addr = a) ∨ ∃ loc : WordLoc, loc.addr ≤ a ∧ a < loc.addr + 4

/-- The accesses that R69 does not refuse, said by the location they address. -/
def accessAllowed (c : Params) : BusAccess → Prop
  | .read32 addr => ∃ loc : WordLoc, loc.addr = addr
  | .read8 addr => ∃ loc : ByteLoc, loc.inRange c = true ∧ loc.addr = addr
  | .write32 addr v => ∃ loc : WordLoc, loc.addr = addr ∧ loc.takes c v = true
  | .write8 addr _ => ∃ loc : ByteLoc, loc.inRange c = true ∧ loc.addr = addr ∧ loc.hostWritten = true

/-! ## How a command ends -/

/-- Result state with `STATUS` = 0x80000000 and everything else 0: code `OK`, no flags, no results. -/
def noResults : ResultState :=
  { status := 0x80000000, r := #v[0, 0, 0, 0], obuf := [], pbuf := [], map := [], trace := [] }

/-- The outcome in which only the result state has changed, to `o`. -/
def State.returns (s : State) (o : ResultState) : Host.Outcome State Fault Refusal := .next { s with out := o }

/-- The outcome of `raise` with completion code `code` (R272): only the result state has changed, and it is cleared
but for the code and `READY`. -/
def State.raises (s : State) (code : Nat) : Host.Outcome State Fault Refusal :=
  s.returns { noResults with status := 0x80000000 + BitVec.ofNat 32 code }

/-- `STATUS` of a discrete-log command with code `OK` and these flags (R34). -/
def dlogStatus (absent truncated nonprime baseFactor targetFactor noInverse : Bool) : Word :=
  0x80000000 ||| (if absent then 0x100 else 0) ||| (if truncated then 0x200 else 0)
    ||| (if nonprime then 0x10000 else 0) ||| (if baseFactor then 0x20000 else 0)
    ||| (if targetFactor then 0x40000 else 0) ||| (if noInverse then 0x80000 else 0)

/-- The operand checks of R271: when a command raises `INVALID_INPUT`. -/
def invalidOperands (s : State) : Instr → Prop
  | .init => False
  | .modpow => s.xVal 2 ≤ 0 ∨ s.xVal 1 < 0
  | .gcd => False
  | .lcm => False
  | .egcd => False
  | .modinv => s.xVal 1 ≤ 0
  | .b2i => False
  | .i2b => s.xVal 0 < 0
  | .derive _ _ => s.xVal 0 = s.xVal 1 ∨ s.xVal 0 < 2 ∨ s.xVal 1 < 2
  | .dhx => s.xVal 0 ≤ 0 ∨ s.xVal 2 < 0 ∨ s.xVal 3 < 0
  | .dlbf => s.xVal 2 ≤ 0 ∨ s.xVal 3 < 0
  | .dlbsgs => s.xVal 2 ≤ 0 ∨ s.xVal 3 < 0
  | .mapexp => s.xVal 1 ≤ 0 ∨ s.xVal 0 < 0 ∨ s.xVal 2 < 0
  | .aesenc => s.ibufLen ≠ 32
  | .sha256 => False

/-! ## What a command reads (`30_encoding.md` R96) -/

/-- The command reads `X[k]` (R96). -/
def commandReadsX : Instr → Fin 4 → Bool
  | .init, _ => false
  | .modpow, k => decide (k ≠ 3)
  | .gcd, k => decide (k < 2)
  | .lcm, k => decide (k < 2)
  | .egcd, k => decide (k < 2)
  | .modinv, k => decide (k < 2)
  | .b2i, _ => false
  | .i2b, k => decide (k = 0)
  | .derive _ hint, k => decide (k < 2) || (hint && decide (k = 2))
  | .dhx, _ => true
  | .dlbf, _ => true
  | .dlbsgs, _ => true
  | .mapexp, k => decide (k ≠ 3)
  | .aesenc, _ => false
  | .sha256, _ => false

/-- The command reads `IBUF` and `IBUF_LEN` (R96). -/
def commandReadsIbuf : Instr → Bool
  | .b2i => true
  | .aesenc => true
  | .sha256 => true
  | _ => false

/-- Two states agree on the parameters and on all that R96 says the command reads. -/
abbrev sameOperands (i : Instr) (s t : State) : Prop :=
  s.cfg = t.cfg ∧ (∀ k, commandReadsX i k = true → s.xVal k = t.xVal k)
    ∧ (commandReadsIbuf i = true → s.ibufLen = t.ibufLen ∧ s.ibuf = t.ibuf)

/-! ## The exponent search of `DERIVE` (`41_rsa_deriver.md` R141, R145) -/

/-- T of R141: φ, or λ as the least common multiple of p − 1 and q − 1. -/
def derivedModulus (carm : Bool) (p q : Int) : Int :=
  if carm then ((p - 1).lcm (q - 1) : Int) else (p - 1) * (q - 1)

/-- The odd integer that follows `c` (R145). -/
def nextOdd (c : Int) : Int := if Even c then c + 1 else c + 2

/-- Candidate number `k` of the search for T with start `start` (R145), from 0. -/
def derivedCandidate (t start : Int) (k : Nat) : Int :=
  nextOdd^[k] (if 1 < start ∧ start < t then start else 3)

/-- The start of the search: the hint, or the default (R144, R145). -/
def derivedStart (hint : Bool) (s : State) : Int := if hint then s.xVal 2 else s.cfg.eDefault

/-! ## The traces of the discrete-log commands (`43_discrete_log.md` R168, R173) -/

/-- x solves g^x ≡ y (mod p) (R165). -/
def solves (g y p : Int) (x : Nat) : Prop := g ^ x % p = y % p

/-- x is the least solution (R165). -/
def leastSolution (g y p : Int) (x : Nat) : Prop := solves g y p x ∧ ∀ j < x, ¬ solves g y p j

/-- m is the least number with p ≤ m·m, the ceiling of the square root of p (R11). -/
def isCeilSqrt (p : Int) (m : Nat) : Prop := p ≤ (m : Int) * m ∧ ∀ j : Nat, p ≤ (j : Int) * j → m ≤ j

/-- The `n` records of `DLBF` for the exponents 0 to n − 1, none of which is a solution (R168). -/
def bfMisses (g p : Int) (n : Nat) : List Record :=
  (List.range n).map fun (x : Nat) => { Record.zero with kind := 2, f := #v[(x : Int), g ^ x % p, 0, 0] }

/-- The record of `DLBF` that finds the solution x (R168). -/
def bfHit (g p : Int) (x : Nat) : Record :=
  { Record.zero with kind := 2, flags := 1, f := #v[(x : Int), g ^ x % p, 0, 0] }

/-- The records of the first `n` baby steps of `DLBSGS` (R173). -/
def babySteps (g p : Int) (n : Nat) : List Record :=
  (List.range n).map fun (j : Nat) => { Record.zero with kind := 3, f := #v[(j : Int), g ^ j % p, 0, 0] }

/-- The records of the first `n` giant steps of `DLBSGS`, all misses, with factor `inv` (R173). -/
def giantMisses (y p inv : Int) (n : Nat) : List Record :=
  (List.range n).map fun (i : Nat) => { Record.zero with kind := 4, f := #v[(i : Int), y * inv ^ i % p, 0, 0] }

/-- The record of the giant step that finds x with baby steps 0 to m − 1 (R173). -/
def giantFound (y p inv : Int) (m x : Nat) : Record :=
  { Record.zero with
    kind := 4, flags := 1, f := #v[(x / m : Nat), y * inv ^ (x / m) % p, (x % m : Nat), (x : Nat)] }

/-- inv is the inverse of g^m modulo p, the factor of the giant phase (R172). -/
def isGiantFactor (g p : Int) (m : Nat) (inv : Int) : Prop := 0 ≤ inv ∧ inv < p ∧ inv * g ^ m % p = 1 % p

/-- `STATUS` of a discrete-log command on these operands, from `ABSENT`, `TRUNCATED` and `W_NO_INVERSE`: the three
warnings of R166 with primality and the gcd of the library. -/
def dlogEnd (g y p : Int) (absent truncated noInverse : Bool) : Word :=
  dlogStatus absent truncated (!decide p.toNat.Prime) (decide (1 < g.gcd p)) (decide (1 < y.gcd p)) noInverse

/-! ## The traces of `AESENC` and `SHA256` (`45_aes128.md` R215, `46_sha256.md` R244) -/

/-- (round, stage) of the 41 records, in order (R215): 0 input, 1 SubBytes, 2 ShiftRows, 3 MixColumns,
4 AddRoundKey. -/
def aesOrder : List (Nat × Nat) :=
  [(0, 0), (0, 4)] ++ (List.range' 1 9).flatMap (fun r => [(r, 1), (r, 2), (r, 3), (r, 4)])
    ++ [(10, 1), (10, 2), (10, 4)]

/-- The state after stage number `stage`, from the state before it and the round key (R204 to R207). -/
def aesAfter (stage : Nat) (s key : AesBlock) : AesBlock :=
  match stage with
  | 1 => subBytes s
  | 2 => shiftRows s
  | 3 => mixColumns s
  | _ => addRoundKey s key

/-- The working variables in a `SHA` record (R243). -/
def recordVars (r : Record) : ShaVars := ⟨r.w[0], r.w[1], r.w[2], r.w[3], r.w[4], r.w[5], r.w[6], r.w[7]⟩

/-- The running hash before block `blk`, read from the trace as R244 says: the initial value plus, word by word,
the variables of the last record of every earlier block. -/
def hashFromTrace (trace : List Record) : Nat → ShaVars
  | 0 => shaInit
  | blk + 1 => (hashFromTrace trace blk).add (recordVars (trace.getD (64 * blk + 63) Record.zero))

/-- The working variables before record number `n` (R243). -/
def varsBefore (trace : List Record) (n : Nat) : ShaVars :=
  if n % 64 = 0 then hashFromTrace trace (n / 64) else recordVars (trace.getD (n - 1) Record.zero)

end Sys2Proof.Machine
end

