-- ==== Sys2Proof/Certificates/Slice0/Obligations.lean ====
section
/-! DEFINITION. The statements for the provers, rule by rule of spec/. -/

open Sys2Proof Sys2Proof.Machine

/-! ## Reset and the step -/

/-- R55: after reset every location of the block reads 0, every register has the value 0, there is no record. -/
def Obligations.ResetState : Prop :=
  (∀ loc, State.reset.readWord loc = 0) ∧ (∀ loc, State.reset.readByte loc = 0)
    ∧ (∀ k, State.reset.xVal k = 0) ∧ (∀ k : Fin 4, State.reset.out.r[k] = 0)
    ∧ State.reset.out.map = [] ∧ State.reset.out.trace = []

/-- R300, R301: a reset event gives every location its reset value and keeps the parameters; with no event pending a
step changes nothing. That events come from a queue is the model's choice (log entries 3 and 6). -/
def Obligations.ResetEventAndIdle : Prop :=
  (∀ (s : State) (rest : List BusEvent), s.pending = .reset :: rest →
    ∃ t, step s = .next t ∧ (∀ loc, t.readWord loc = 0) ∧ (∀ loc, t.readByte loc = 0) ∧ t.out.trace = []
      ∧ t.out.map = [] ∧ (∀ k : Fin 4, t.out.r[k] = 0) ∧ t.cfg = s.cfg ∧ t.pending = rest ∧ t.replies = s.replies)
  ∧ ∀ s : State, s.pending = [] → step s = .next s

/-- A step whose first pending event is the write of a legal command word to `CMD` runs that command on the state
with the word stored, and then answers the host; `withFetchWord` places exactly such a write. -/
def Obligations.StepRunsCommand : Prop :=
  (∀ (s : State) (w : Word) (i : Instr) (rest : List BusEvent), decode w = .ok i →
    s.pending = .access (.write32 0x000000 w) :: rest →
    step s = replyAfter (exec i { s with pending := rest, cmd := w }) .done
      ∧ ∀ t, exec i { s with pending := rest, cmd := w } = .next t →
          step s = .next { t with replies := .done :: t.replies })
  ∧ ∀ (s : State) (i : Instr), decode (encode i) = .ok i →
      step (s.withFetchWord 32 (encode i).toNat) = replyAfter (exec i { s with cmd := encode i }) .done

/-- R95: a word that is none of the 18 legal ones is stored in `CMD` and ends with `ILLEGAL_COMMAND`, every result
cleared and `READY` set. -/
def Obligations.IllegalWordEnds : Prop :=
  ∀ (s : State) (w : Word) (rest : List BusEvent),
    w ∉ ([0x01, 0x10, 0x11, 0x12, 0x13, 0x14, 0x15, 0x16, 0x30, 0x40, 0x41, 0x50, 0x60, 0x70, 0x020, 0x120, 0x220,
      0x320] : List Word) →
    s.pending = .access (.write32 0x000000 w) :: rest →
    step s = .next { s with
      cmd := w, out := { noResults with status := 0x80000003 }, pending := rest, replies := .done :: s.replies }

/-! ## Encoding -/

/-- R94: exactly 18 words are legal, written out here: 14 words equal to their opcode and the four `DERIVE` words, each
decoding to the command R92 names; and decode and encode agree on every word. -/
def Obligations.DecodeIffEncode : Prop :=
  (∀ (w : Word) (i : Instr), decode w = .ok i ↔ w = encode i)
    ∧ (∀ w : Word, (∃ i, decode w = .ok i) ↔
      w ∈ ([0x01, 0x10, 0x11, 0x12, 0x13, 0x14, 0x15, 0x16, 0x30, 0x40, 0x41, 0x50, 0x60, 0x70, 0x00000020,
        0x00000120, 0x00000220, 0x00000320] : List Word))
    ∧ ∀ (w : Word) (i : Instr), decode w = .ok i ↔
      (w, i) ∈ ([(0x01, .init), (0x10, .modpow), (0x11, .gcd), (0x12, .lcm), (0x13, .egcd), (0x14, .modinv),
        (0x15, .b2i), (0x16, .i2b), (0x30, .dhx), (0x40, .dlbf), (0x41, .dlbsgs), (0x50, .mapexp), (0x60, .aesenc),
        (0x70, .sha256), (0x00000020, .derive false false), (0x00000120, .derive true false),
        (0x00000220, .derive false true), (0x00000320, .derive true true)] : List (Word × Instr))

/-- R92, R94: one word of each unit, written out from the opcode table. -/
def Obligations.SampleWordsDecode : Prop :=
  decode 0x00000001 = .ok .init ∧ decode 0x00000010 = .ok .modpow ∧ decode 0x00000220 = .ok (.derive false true)
    ∧ decode 0x00000120 = .ok (.derive true false) ∧ decode 0x00000041 = .ok .dlbsgs
    ∧ decode 0x00000060 = .ok .aesenc ∧ decode 0x00000070 = .ok .sha256

/-! ## The bus -/

/-- R61, R66, R67: every row of the address map, the ranges of the arrays, and that an offset is one location only. -/
def Obligations.LocationMap : Prop :=
  (WordLoc.cmd.addr = 0x000000 ∧ WordLoc.status.addr = 0x000004 ∧ WordLoc.ibufLen.addr = 0x000008
    ∧ WordLoc.obufLen.addr = 0x00000C ∧ WordLoc.pbufLen.addr = 0x000010 ∧ WordLoc.traceLen.addr = 0x000014
    ∧ WordLoc.traceIdx.addr = 0x000018 ∧ WordLoc.mapLen.addr = 0x00001C ∧ WordLoc.mapIdx.addr = 0x000020)
  ∧ (∀ k : Fin 4, (WordLoc.sign (.x k)).addr = 0x010000 + 0x10000 * k.val
      ∧ (WordLoc.sign (.r k)).addr = 0x050000 + 0x10000 * k.val
      ∧ (WordLoc.sign (.f k)).addr = 0x0D0000 + 0x10000 * k.val)
  ∧ (WordLoc.sign .map).addr = 0x110000
  ∧ (∀ (b : IntBlock) (i : Nat), (WordLoc.len b).addr = (WordLoc.sign b).addr + 0x04
      ∧ (ByteLoc.mag b i).addr = (WordLoc.sign b).addr + 0x100 + i)
  ∧ (∀ i : Nat, (ByteLoc.ibuf i).addr = 0x090000 + i ∧ (ByteLoc.obuf i).addr = 0x0A0000 + i
      ∧ (ByteLoc.pbuf i).addr = 0x0B0000 + i)
  ∧ (WordLoc.recKind.addr = 0x0C0000 ∧ WordLoc.recFlags.addr = 0x0C0004 ∧ WordLoc.recA.addr = 0x0C0008
    ∧ WordLoc.recB.addr = 0x0C000C ∧ (∀ j : Fin 10, (WordLoc.recW j).addr = 0x0C0010 + 4 * j.val)
    ∧ ∀ i : Fin 16, (ByteLoc.recS i).addr = 0x0C0040 + i.val ∧ (ByteLoc.recKey i).addr = 0x0C0050 + i.val)
  ∧ (∀ (c : Params) (i : Nat), ((ByteLoc.ibuf i).inRange c = true ↔ i < c.ibufCap)
      ∧ ((ByteLoc.obuf i).inRange c = true ↔ i < max 32 c.opb)
      ∧ ((ByteLoc.pbuf i).inRange c = true ↔ i < 64 * ((c.ibufCap + 9 + 63) / 64))
      ∧ (∀ b : IntBlock, (ByteLoc.mag b i).inRange c = true ↔ i < if ∃ k, b = .x k then c.opb else 2 * c.opb)
      ∧ ∀ j : Fin 16, (ByteLoc.recS j).inRange c = true ∧ (ByteLoc.recKey j).inRange c = true)
  ∧ (∀ (addr : Nat) (loc : WordLoc), wordLocAt addr = some loc ↔ loc.addr = addr)
  ∧ (∀ (c : Params) (addr : Nat) (loc : ByteLoc), c.ok = true →
      (byteLocAt c addr = some loc ↔ loc.inRange c = true ∧ loc.addr = addr))
  ∧ ∀ (c : Params) (b : ByteLoc) (w : WordLoc), c.ok = true → b.inRange c = true →
      ¬ (w.addr ≤ b.addr ∧ b.addr < w.addr + 4)

/-- R69: a bus access takes a step exactly when no clause of R69 refuses it. Where it takes none, the model stops with
a fault if nothing is at the offset, and with a refusal if something is (log entry 5: the model's choice). -/
def Obligations.AccessTakesStep : Prop :=
  ∀ (s : State) (a : BusAccess) (rest : List BusEvent), s.cfg.ok = true → s.pending = .access a :: rest →
    ((∃ t, step s = .next t) ↔ accessAllowed s.cfg a)
      ∧ ((∃ e, step s = .fault e) ↔ ¬ offsetUsed s.cfg a.addr)

/-- R62, R68, R13: a read answers what the location holds, a byte zero-extended to the bus width, and changes nothing. -/
def Obligations.ReadAnswers : Prop :=
  ∀ (s : State) (rest : List BusEvent), s.cfg.ok = true →
    (∀ loc : WordLoc, s.pending = .access (.read32 loc.addr) :: rest →
      step s = .next { s with pending := rest, replies := .value (s.readWord loc) :: s.replies })
    ∧ ∀ loc : ByteLoc, loc.inRange s.cfg = true → s.pending = .access (.read8 loc.addr) :: rest →
      ∃ v : Word, v.toNat = (s.readByte loc).toNat
        ∧ step s = .next { s with pending := rest, replies := .value v :: s.replies }

/-- R68: a 1-byte write to a host-written location changes exactly that location. -/
def Obligations.ByteWriteEffect : Prop :=
  ∀ (s : State) (loc : ByteLoc) (v : Byte) (rest : List BusEvent), s.cfg.ok = true → s.mem.wf →
    loc.inRange s.cfg = true → loc.hostWritten = true → s.pending = .access (.write8 loc.addr v) :: rest →
    ∃ m, step s = .next { s with mem := m, pending := rest, replies := .done :: s.replies } ∧ m.wf
      ∧ (∀ a, Memory.read m a = if a = loc.addr then v else Memory.read s.mem a)
      ∧ ∀ loc' : ByteLoc, loc'.inRange s.cfg = true →
          { s with mem := m }.readByte loc' = if loc' = loc then v else s.readByte loc'

/-- R68: a 4-byte write to a host-written location other than `CMD` changes exactly that location. -/
def Obligations.WordWriteEffect : Prop :=
  ∀ (s : State) (loc : WordLoc) (v : Word) (rest : List BusEvent), loc ≠ .cmd → loc.takes s.cfg v = true →
    s.pending = .access (.write32 loc.addr v) :: rest →
    ∃ t, step s = .next t ∧ t.readWord loc = v
      ∧ (∀ loc' : WordLoc, loc' ≠ loc → loc'.takes s.cfg 0 = true → t.readWord loc' = s.readWord loc')
      ∧ t.cfg = s.cfg ∧ t.mem = s.mem ∧ t.cmd = s.cmd ∧ t.out = s.out ∧ t.pending = rest
      ∧ t.replies = .done :: s.replies

/-- R77: the bus sequence of `LDX k, v` sets `X[k]` to v and that of `LDB bs` sets `IBUF` to bs; neither touches
another operand, another byte of memory or a result. -/
def Obligations.LoadsOperands : Prop :=
  ∀ s : State, s.Inv →
    (∀ (k : Fin 4) (v : Int), v.natAbs < 256 ^ s.cfg.opb →
      ∃ t, runAccesses (ldxAccesses k v) s = .ok t ∧ t.xVal k = v
        ∧ (∀ j : Fin 4, j ≠ k → t.x[j] = s.x[j] ∧ t.xVal j = s.xVal j)
        ∧ (∀ a, ¬ (xMagAddr k 0 ≤ a ∧ a < xMagAddr k 0 + (minBytes v.natAbs).length) →
            Memory.read t.mem a = Memory.read s.mem a)
        ∧ t.ibuf = s.ibuf ∧ t.ibufLen = s.ibufLen ∧ t.out = s.out ∧ t.cmd = s.cmd ∧ t.traceIdx = s.traceIdx
        ∧ t.mapIdx = s.mapIdx ∧ t.cfg = s.cfg ∧ t.pending = s.pending)
    ∧ ∀ bs : List Byte, bs.length ≤ s.cfg.ibufCap →
      ∃ t, runAccesses (ldbAccesses bs) s = .ok t ∧ t.ibuf = bs ∧ t.x = s.x ∧ (∀ k, t.xVal k = s.xVal k)
        ∧ (∀ a, ¬ (ibufAddr 0 ≤ a ∧ a < ibufAddr 0 + bs.length) → Memory.read t.mem a = Memory.read s.mem a)
        ∧ t.out = s.out ∧ t.cmd = s.cmd ∧ t.traceIdx = s.traceIdx ∧ t.mapIdx = s.mapIdx ∧ t.cfg = s.cfg
        ∧ t.pending = s.pending

/-- R33, R77, R26, R41, R42, R67: the read operations of the host give back the results as the block holds them, record
and map windows beyond their lengths included; `RDL` gives the four lengths; a read of `CMD`, `IBUF_LEN`, `TRACE_IDX`,
`MAP_IDX` and of `SIGN` and `LEN` of an operand gives what was written there last. -/
def Obligations.ReadsBackResults : Prop :=
  ∀ s : State, s.Inv → s.resultsFit →
    (∀ k : Fin 4, (HostOp.rdr k).run s = .ok (s, .int s.out.r[k]))
    ∧ HostOp.rdo.run s = .ok (s, .bytes s.out.obuf) ∧ HostOp.rdp.run s = .ok (s, .bytes s.out.pbuf)
    ∧ HostOp.rds.run s = .ok (s, .word s.out.status)
    ∧ (∃ w, (HostOp.rdl .obufLen).run s = .ok (s, .word w) ∧ w.toNat = s.out.obuf.length)
    ∧ (∃ w, (HostOp.rdl .pbufLen).run s = .ok (s, .word w) ∧ w.toNat = s.out.pbuf.length)
    ∧ (∃ w, (HostOp.rdl .traceLen).run s = .ok (s, .word w) ∧ w.toNat = s.out.trace.length)
    ∧ (∃ w, (HostOp.rdl .mapLen).run s = .ok (s, .word w) ∧ w.toNat = s.out.map.length)
    ∧ s.read32 0x000000 = .ok s.cmd ∧ s.read32 0x000008 = .ok s.ibufLen ∧ s.read32 0x000018 = .ok s.traceIdx
    ∧ s.read32 0x000020 = .ok s.mapIdx
    ∧ (∀ k : Fin 4, s.read32 (0x010004 + 0x10000 * k.val) = .ok s.x[k].len
      ∧ ∃ w, s.read32 (0x010000 + 0x10000 * k.val) = .ok w ∧ w.toNat = s.x[k].sign.toNat)
    ∧ ∀ j : Word,
      (∃ t, (HostOp.rdm j).run s = .ok (t, .int (s.out.map.getD j.toNat 0)) ∧ t.out = s.out)
      ∧ ∃ t, (HostOp.rdt j).run s = .ok (t, .record (s.out.trace.getD j.toNat Record.zero)) ∧ t.out = s.out

/-! ## The integer kernel -/

/-- R12, R79: `BE` is the sum of byte[i]·256^(n−1−i), `MINBYTES` is the shortest string with a value, `BE32` is `BE`
of four bytes, and the round trips are exact. -/
def Obligations.ByteCodec : Prop :=
  (∀ bs : List Byte, beVal bs = ∑ i : Fin bs.length, bs[i].toNat * 256 ^ (bs.length - 1 - i.val))
  ∧ (∀ v : Nat, beVal (minBytes v) = v ∧ ((minBytes v).head? = none ↔ v = 0) ∧ (minBytes v).head? ≠ some 0
      ∧ ∀ bs : List Byte, beVal bs = v → (minBytes v).length ≤ bs.length)
  ∧ (∀ bs : List Byte, bs.head? ≠ some 0 → minBytes (beVal bs) = bs)
  ∧ ∀ (bs : List Byte) (i : Nat), i + 4 ≤ bs.length → (be32At bs i).toNat = beVal ((bs.drop i).take 4)

/-- R11, R166: `bitlen(n)` is the least k with n < 2^k, `ceil_sqrt(p)` the least m with m·m ≥ p, and primality is
decided exactly. -/
def Obligations.IntegerFunctions : Prop :=
  (∀ n k : Nat, bitlen n ≤ k ↔ n < 2 ^ k) ∧ (∀ p m : Nat, ceilSqrt p ≤ m ↔ p ≤ m * m)
    ∧ ∀ p : Nat, isPrime p = decide p.Prime

/-- R111: the loop runs `bitlen(e)` times, keeps its invariant, and the result is b^e mod m. -/
def Obligations.ModPowDatapath : Prop :=
  ∀ b e m : Int, 1 ≤ m → 0 ≤ e →
    modPow b e m = b ^ e.toNat % m
    ∧ (∀ n < e.toNat.size, ((PowerPath.iterate m)^[n] (powStart b e m)).ex ≠ 0)
    ∧ ((PowerPath.iterate m)^[e.toNat.size] (powStart b e m)).ex = 0
    ∧ powLoop m (bitlen e.toNat) (powStart b e m) = (PowerPath.iterate m)^[e.toNat.size] (powStart b e m)
    ∧ (1 < m → ∀ n, let d := (PowerPath.iterate m)^[n] (powStart b e m)
        d.acc * d.sq ^ d.ex % m = b ^ e.toNat % m ∧ 0 ≤ d.acc ∧ d.acc < m ∧ 0 ≤ d.sq ∧ d.sq < m)

/-- R112: `MODPOW`. -/
def Obligations.ModpowResult : Prop :=
  encode .modpow = 0x00000010 ∧ ∀ s : State,
    (0 < s.xVal 2 → 0 ≤ s.xVal 1 →
      exec .modpow s = s.returns { noResults with r := #v[s.xVal 0 ^ (s.xVal 1).toNat % s.xVal 2, 0, 0, 0] })
    ∧ (s.xVal 2 ≤ 0 ∨ s.xVal 1 < 0 → exec .modpow s = s.raises 1)

/-- R116: `GCD`. -/
def Obligations.GcdResult : Prop :=
  encode .gcd = 0x00000011 ∧ ∀ s : State,
    exec .gcd s = s.returns { noResults with r := #v[((s.xVal 0).gcd (s.xVal 1) : Int), 0, 0, 0] }

/-- R118: `LCM`. -/
def Obligations.LcmResult : Prop :=
  encode .lcm = 0x00000012 ∧ ∀ s : State,
    exec .lcm s = s.returns { noResults with r := #v[((s.xVal 0).lcm (s.xVal 1) : Int), 0, 0, 0] }

/-- R119: the iterative datapath gives what the recursive definition gives, for every function that meets the two
equations of that definition; its loop keeps r0 = a·s0 + b·t0 and r1 = a·s1 + b·t1, and |r1| strictly decreases. -/
def Obligations.EgcdMatchesRecursion : Prop :=
  (∀ f : Int → Int → Bezout, (∀ a, f a 0 = ⟨a, 1, 0⟩) →
    (∀ a b, b ≠ 0 →
      f a b = ⟨(f b (a.tmod b)).g, (f b (a.tmod b)).y, (f b (a.tmod b)).x - a.tdiv b * (f b (a.tmod b)).y⟩) →
    ∀ a b, egcd a b = if (f a b).g < 0 then ⟨-(f a b).g, -(f a b).x, -(f a b).y⟩ else f a b)
  ∧ ∀ a b : Int, (egcd a b).g = a.gcd b ∧ a * (egcd a b).x + b * (egcd a b).y = (egcd a b).g
      ∧ ∀ n, let d := EuclidPath.iterate^[n] ⟨a, b, 1, 0, 0, 1⟩
          d.r0 = a * d.s0 + b * d.t0 ∧ d.r1 = a * d.s1 + b * d.t1
            ∧ (d.r1 ≠ 0 → d.iterate.r1.natAbs < d.r1.natAbs)

/-- R120: `EGCD`, with the result ranges and the corner cases. -/
def Obligations.EgcdResult : Prop :=
  encode .egcd = 0x00000013 ∧ ∀ (s : State) (a b : Int), s.xVal 0 = a → s.xVal 1 = b →
    ∃ x y : Int, exec .egcd s = s.returns { noResults with r := #v[(a.gcd b : Int), x, y, 0] }
      ∧ x = (egcdNormative a b).x ∧ y = (egcdNormative a b).y
      ∧ a * x + b * y = a.gcd b ∧ |x| ≤ max 1 |b| ∧ |y| ≤ max 1 |a|
      ∧ (b = 0 → a ≠ 0 → x = a.sign ∧ y = 0) ∧ (a = 0 → b = 0 → x = 1 ∧ y = 0)
      ∧ (a = 0 → b ≠ 0 → x = 0 ∧ y = b.sign) ∧ (a = b → a ≠ 0 → x = 0 ∧ y = a.sign)

/-- R122, R124, R132: `MODINV`: the one inverse in [0, m), or `ABSENT`. -/
def Obligations.ModinvResult : Prop :=
  encode .modinv = 0x00000014 ∧ ∀ (s : State) (a m : Int), s.xVal 0 = a → s.xVal 1 = m →
    (m ≤ 0 → exec .modinv s = s.raises 1)
    ∧ (0 < m → a.gcd m = 1 →
        ∃ x, 0 ≤ x ∧ x < m ∧ a * x % m = 1 % m ∧ modInv a m = some x
          ∧ exec .modinv s = s.returns { noResults with r := #v[x, 0, 0, 0] })
    ∧ (0 < m → a.gcd m ≠ 1 → modInv a m = none ∧ exec .modinv s = s.returns { noResults with status := 0x80000100 })

/-- R128: `B2I`. -/
def Obligations.B2iResult : Prop :=
  encode .b2i = 0x00000015 ∧ ∀ (s : State) (v : Nat), v = Nat.ofDigits 256 (s.ibuf.reverse.map BitVec.toNat) →
    (v < 256 ^ s.cfg.resb → exec .b2i s = s.returns { noResults with r := #v[(v : Int), 0, 0, 0] })
    ∧ (256 ^ s.cfg.resb ≤ v → exec .b2i s = s.raises 4)

/-- R130: `I2B`. -/
def Obligations.I2bResult : Prop :=
  encode .i2b = 0x00000016 ∧ ∀ s : State, s.lensOk →
    (s.xVal 0 < 0 → exec .i2b s = s.raises 1)
    ∧ (0 ≤ s.xVal 0 → exec .i2b s = s.returns { noResults with
        obuf := ((Nat.digits 256 (s.xVal 0).toNat).map (BitVec.ofNat 8)).reverse })

/-- R130, round trip: `I2B` of n, the output loaded into `IBUF`, then `B2I`, gives n. -/
def Obligations.I2bThenB2i : Prop :=
  ∀ s : State, s.Inv → 0 ≤ s.xVal 0 → (s.xVal 0).natAbs < 256 ^ s.cfg.ibufCap →
    ∃ t u v, exec .i2b s = .next t ∧ runAccesses (ldbAccesses t.out.obuf) t = .ok u ∧ exec .b2i u = .next v
      ∧ v.out.r[0] = s.xVal 0 ∧ v.out.status = 0x80000000

/-! ## The RSA parameter deriver -/

/-- R141, R144, R145: `DERIVE`: the checks, the first acceptable pair of the search, or its exhaustion. A candidate c
coprime to T is acceptable when it is not its own inverse. -/
def Obligations.DeriveResult : Prop :=
  ∀ (carm hint : Bool),
    encode (.derive carm hint) = 0x00000020 + (if carm then 0x100 else 0) + (if hint then 0x200 else 0)
    ∧ ∀ (s : State) (p q t : Int) (c : Nat → Int), s.xVal 0 = p → s.xVal 1 = q → t = derivedModulus carm p q →
      c = derivedCandidate t (derivedStart hint s) →
      (p = q ∨ p < 2 ∨ q < 2 → exec (.derive carm hint) s = s.raises 1)
      ∧ (p ≠ q → 2 ≤ p → 2 ≤ q → ∀ (k : Nat) (d : Int), k < s.cfg.eAttempts → c k < t → (c k).gcd t = 1 →
          0 ≤ d → d < t → c k * d % t = 1 → d ≠ c k →
          (∀ j < k, (c j).gcd t = 1 → c j * c j % t = 1) →
          exec (.derive carm hint) s = s.returns { noResults with r := #v[p * q, c k, d, 0] })
      ∧ (p ≠ q → 2 ≤ p → 2 ≤ q →
          (∀ j < s.cfg.eAttempts, c j < t → (c j).gcd t = 1 → c j * c j % t = 1) →
          exec (.derive carm hint) s = s.raises 2)

/-- R148: what holds of the pair when the code is `OK`. -/
def Obligations.DerivePostcondition : Prop :=
  ∀ (carm hint : Bool) (s t : State) (m : Int), exec (.derive carm hint) s = .next t →
    statusCode t.out.status = 0 → m = derivedModulus carm (s.xVal 0) (s.xVal 1) →
    t.out.r[0] = s.xVal 0 * s.xVal 1 ∧ 1 < t.out.r[1] ∧ t.out.r[1] < m ∧ (t.out.r[1]).gcd m = 1
      ∧ t.out.r[1] * t.out.r[2] % m = 1 ∧ t.out.r[1] ≠ t.out.r[2]
      ∧ 0 < t.out.r[2] ∧ t.out.r[2] < m

/-- R150: with distinct primes, encrypting and decrypting with the derived key gives every message back, both ways. -/
def Obligations.RsaRoundTrip : Prop :=
  ∀ (carm hint : Bool) (s t : State) (p q : Nat), p.Prime → q.Prime → s.xVal 0 = p → s.xVal 1 = q →
    exec (.derive carm hint) s = .next t → statusCode t.out.status = 0 →
    ∀ c : Int, 0 ≤ c → c < t.out.r[0] →
      modPow (modPow c t.out.r[2] t.out.r[0]) t.out.r[1] t.out.r[0] = c
      ∧ modPow (modPow c t.out.r[1] t.out.r[0]) t.out.r[2] t.out.r[0] = c

/-! ## Diffie–Hellman -/

/-- R156, R157: `DHX`, the four values and the four records. -/
def Obligations.DhxResult : Prop :=
  encode .dhx = 0x00000030 ∧ ∀ (s : State) (p g a b pubA pubB shA shB : Int), s.cfg.ok = true →
    s.xVal 0 = p → s.xVal 1 = g → s.xVal 2 = a → s.xVal 3 = b →
    pubA = g ^ a.toNat % p → pubB = g ^ b.toNat % p → shA = pubB ^ a.toNat % p → shB = pubA ^ b.toNat % p →
    (p ≤ 0 ∨ a < 0 ∨ b < 0 → exec .dhx s = s.raises 1)
    ∧ (0 < p → 0 ≤ a → 0 ≤ b → exec .dhx s = s.returns { noResults with
        r := #v[pubA, pubB, shA, shB]
        trace := [{ Record.zero with kind := 1, a := 1, f := #v[g, a, p, pubA] },
          { Record.zero with kind := 1, a := 2, f := #v[g, b, p, pubB] },
          { Record.zero with kind := 1, a := 3, f := #v[pubB, a, p, shA] },
          { Record.zero with kind := 1, a := 4, f := #v[pubA, b, p, shB] }] })

/-- R159: on every input the command accepts the two shared values agree, and are the residue of g^(a·b). -/
def Obligations.DhxSharedAgree : Prop :=
  ∀ s : State, s.cfg.ok = true → 0 < s.xVal 0 → 0 ≤ s.xVal 2 → 0 ≤ s.xVal 3 →
    ∃ t, exec .dhx s = .next t ∧ t.out.r[2] = t.out.r[3]
      ∧ t.out.r[0] = s.xVal 1 ^ (s.xVal 2).toNat % s.xVal 0 ∧ t.out.r[1] = s.xVal 1 ^ (s.xVal 3).toNat % s.xVal 0
      ∧ t.out.r[2] = s.xVal 1 ^ ((s.xVal 2).toNat * (s.xVal 3).toNat) % s.xVal 0

/-! ## The discrete-log solver -/

/-- R167, R168, R169: `DLBF`: the least solution, or null after all p exponents, or null when the budget ends before,
or `RESOURCE_LIMIT` when the trace is full before either. -/
def Obligations.DlbfResult : Prop :=
  encode .dlbf = 0x00000040 ∧ ∀ (s : State) (g y p budget : Int),
    s.xVal 0 = g → s.xVal 1 = y → s.xVal 2 = p → s.xVal 3 = budget →
    (p ≤ 0 ∨ budget < 0 → exec .dlbf s = s.raises 1)
    ∧ (0 < p → 0 ≤ budget →
        (∀ x : Nat, leastSolution g y p x → (x : Int) < budget → x < s.cfg.traceCap →
          exec .dlbf s = s.returns { noResults with
            status := dlogEnd g y p false false false, r := #v[(x : Int), 0, 0, 0]
            trace := bfMisses g p x ++ [bfHit g p x] })
        ∧ (p ≤ budget → p ≤ s.cfg.traceCap → (∀ x : Nat, (x : Int) < p → ¬ solves g y p x) →
          exec .dlbf s = s.returns { noResults with
            status := dlogEnd g y p true false false, trace := bfMisses g p p.toNat })
        ∧ (budget < p → budget ≤ s.cfg.traceCap → (∀ x : Nat, (x : Int) < budget → ¬ solves g y p x) →
          exec .dlbf s = s.returns { noResults with
            status := dlogEnd g y p true true false, trace := bfMisses g p budget.toNat })
        ∧ (s.cfg.traceCap < p → s.cfg.traceCap < budget → (∀ x < s.cfg.traceCap, ¬ solves g y p x) →
          exec .dlbf s = s.raises 4))

/-- R177: a solution either solver returns is one; literally, when the target is reduced; and the example. -/
def Obligations.DlogSolutionCorrect : Prop :=
  (∀ s : State, s.xVal 0 = 3 → s.xVal 1 = 13 → s.xVal 2 = 17 → 5 ≤ s.xVal 3 → 5 ≤ s.cfg.traceCap →
    ∃ t, exec .dlbf s = .next t ∧ t.out.r[0] = 4 ∧ t.out.status = 0x80000000)
  ∧ ∀ (i : Instr) (s t : State), i = .dlbf ∨ i = .dlbsgs → exec i s = .next t → statusCode t.out.status = 0 →
    getFlag t.out.status .absent = false →
    0 ≤ t.out.r[0] ∧ modPow (s.xVal 0) t.out.r[0] (s.xVal 2) = s.xVal 1 % s.xVal 2
      ∧ (0 ≤ s.xVal 1 → s.xVal 1 < s.xVal 2 → modPow (s.xVal 0) t.out.r[0] (s.xVal 2) = s.xVal 1)

/-- R165, R169, R175: null without truncation, and without the no-inverse warning, means that no exponent at all
solves the congruence. -/
def Obligations.DlogNullMeansNone : Prop :=
  ∀ (i : Instr) (s t : State), i = .dlbf ∨ i = .dlbsgs → exec i s = .next t → statusCode t.out.status = 0 →
    getFlag t.out.status .absent = true → getFlag t.out.status .truncated = false →
    getFlag t.out.status .wNoInverse = false → ∀ x : Nat, ¬ solves (s.xVal 0) (s.xVal 1) (s.xVal 2) x

/-- R172, R173, R176: with gcd(g, p) = 1, room and budget, `DLBSGS` returns the least solution x, after m baby steps
and x / m missed giant steps. -/
def Obligations.DlbsgsFinds : Prop :=
  encode .dlbsgs = 0x00000041 ∧ ∀ (s : State) (g y p budget inv : Int) (m x : Nat),
    s.xVal 0 = g → s.xVal 1 = y → s.xVal 2 = p → s.xVal 3 = budget → 0 < p → g.gcd p = 1 → isCeilSqrt p m →
    isGiantFactor g p m inv → leastSolution g y p x → (m + x / m + 1 : Int) ≤ budget →
    m + x / m + 1 ≤ s.cfg.traceCap →
    exec .dlbsgs s = s.returns { noResults with
      status := dlogEnd g y p false false false, r := #v[(x : Int), 0, 0, 0]
      trace := babySteps g p m ++ giantMisses y p inv (x / m) ++ [giantFound y p inv m x] }

/-- R166, R172: `DLBSGS` without a solution: null after m baby and m giant steps; and the operand checks. -/
def Obligations.DlbsgsNotFound : Prop :=
  (∀ s : State, s.xVal 2 ≤ 0 ∨ s.xVal 3 < 0 → exec .dlbsgs s = s.raises 1)
  ∧ ∀ (s : State) (g y p budget inv : Int) (m : Nat),
    s.xVal 0 = g → s.xVal 1 = y → s.xVal 2 = p → s.xVal 3 = budget → 0 < p → g.gcd p = 1 → isCeilSqrt p m →
    isGiantFactor g p m inv → (∀ x, ¬ solves g y p x) → (2 * m : Int) ≤ budget → 2 * m ≤ s.cfg.traceCap →
    exec .dlbsgs s = s.returns { noResults with
      status := dlogEnd g y p true false false, trace := babySteps g p m ++ giantMisses y p inv m }

/-- R175: the no-inverse case: null, not truncated, `W_NO_INVERSE` and `W_BASE_FACTOR` set, the baby records only. -/
def Obligations.DlbsgsNoInverse : Prop :=
  ∀ (s : State) (g y p budget : Int) (m : Nat),
    s.xVal 0 = g → s.xVal 1 = y → s.xVal 2 = p → s.xVal 3 = budget → 0 < p → 1 < g.gcd p → isCeilSqrt p m →
    (m : Int) ≤ budget → m ≤ s.cfg.traceCap →
    ∃ st, exec .dlbsgs s = s.returns { noResults with status := st, trace := babySteps g p m }
      ∧ st = dlogEnd g y p true false true ∧ statusCode st = 0 ∧ getFlag st .absent = true
      ∧ getFlag st .truncated = false ∧ getFlag st .wNoInverse = true ∧ getFlag st .wBaseFactor = true

/-- R172, R174: the budget ends `DLBSGS` in the baby phase, or in the giant phase before a hit: null and truncated,
with exactly as many records as the budget. -/
def Obligations.DlbsgsTruncated : Prop :=
  ∀ (s : State) (g y p inv : Int) (budget m : Nat),
    s.xVal 0 = g → s.xVal 1 = y → s.xVal 2 = p → s.xVal 3 = budget → 0 < p → isCeilSqrt p m →
    budget ≤ s.cfg.traceCap →
    (budget < m → exec .dlbsgs s = s.returns { noResults with
        status := dlogEnd g y p true true false, trace := babySteps g p budget })
    ∧ (m ≤ budget → budget < 2 * m → g.gcd p = 1 → isGiantFactor g p m inv →
        (∀ x, solves g y p x → budget - m ≤ x / m) →
        exec .dlbsgs s = s.returns { noResults with
          status := dlogEnd g y p true true false
          trace := babySteps g p m ++ giantMisses y p inv (budget - m) })

/-- R46, R172, R276: the trace is full before the budget ends and before a hit: `RESOURCE_LIMIT`. -/
def Obligations.DlbsgsOverflow : Prop :=
  ∀ (s : State) (g y p budget : Int) (m : Nat),
    s.xVal 0 = g → s.xVal 1 = y → s.xVal 2 = p → s.xVal 3 = budget → 0 < p → isCeilSqrt p m →
    s.cfg.traceCap < budget →
    (s.cfg.traceCap < m → exec .dlbsgs s = s.raises 4)
    ∧ (m ≤ s.cfg.traceCap → s.cfg.traceCap < 2 * m → g.gcd p = 1 →
        (∀ x, solves g y p x → s.cfg.traceCap - m ≤ x / m) → exec .dlbsgs s = s.raises 4)

/-- R176: with gcd(g, p) = 1 and budget and trace large enough, both solvers end with the same result register and the
same status. -/
def Obligations.SolversAgree : Prop :=
  ∀ (s : State) (m : Nat), 0 < s.xVal 2 → (s.xVal 0).gcd (s.xVal 2) = 1 → isCeilSqrt (s.xVal 2) m →
    s.xVal 2 ≤ s.xVal 3 → (2 * m : Int) ≤ s.xVal 3 → s.xVal 2 ≤ s.cfg.traceCap → 2 * m ≤ s.cfg.traceCap →
    ∃ t u, exec .dlbf s = .next t ∧ exec .dlbsgs s = .next u ∧ t.out.r = u.out.r ∧ t.out.status = u.out.status
      ∧ (∀ x, leastSolution (s.xVal 0) (s.xVal 1) (s.xVal 2) x → t.out.r[0] = x)

/-- R174, R276: neither solver writes more records than its budget, and neither raises `RESOURCE_LIMIT` when the
budget is at most `TRACE_CAP`. -/
def Obligations.DlogWithinBudget : Prop :=
  ∀ (i : Instr) (s : State), i = .dlbf ∨ i = .dlbsgs → 0 < s.xVal 2 → 0 ≤ s.xVal 3 →
    ∃ t, exec i s = .next t ∧ (t.out.trace.length : Int) ≤ s.xVal 3
      ∧ (s.xVal 3 ≤ s.cfg.traceCap → statusCode t.out.status = 0)

/-! ## The bijection mapper -/

/-- R191, R192: `MAPEXP`, with the clamped count as length and as second modulus. -/
def Obligations.MapexpResult : Prop :=
  encode .mapexp = 0x00000050 ∧ ∀ (s : State) (e n count : Int), s.xVal 0 = e → s.xVal 1 = n → s.xVal 2 = count →
    (n ≤ 0 ∨ e < 0 ∨ count < 0 → exec .mapexp s = s.raises 1)
    ∧ (0 < n → 0 ≤ e → 0 ≤ count →
        (count ≤ s.cfg.mapCap → exec .mapexp s = s.returns { noResults with
          map := (List.range count.toNat).map (fun (i : Nat) => (i : Int) ^ e.toNat % n % count) })
        ∧ (s.cfg.mapCap < count → exec .mapexp s = s.returns { noResults with
          status := 0x80000400
          map := (List.range s.cfg.mapCap).map (fun (i : Nat) => (i : Int) ^ e.toNat % n % s.cfg.mapCap) }))

/-! ## AES-128 -/

/-- R202: `xtime` is multiplication by x modulo 0x11b, `gmul` the sum of its powers over the bits of b; it is
commutative and distributes over addition. -/
def Obligations.AesFieldArithmetic : Prop :=
  ∀ a b c : Byte,
    (xtime a).setWidth 9 = (a.setWidth 9 <<< 1) ^^^ (if a.getLsbD 7 then 0x11b#9 else 0)
    ∧ gmul a b = (List.range 8).foldl (fun acc k => acc ^^^ (if b.getLsbD k then xtime^[k] a else 0)) 0
    ∧ gmul a 1 = a ∧ gmul a 2 = xtime a ∧ gmul a 3 = xtime a ^^^ a
    ∧ gmul a b = gmul b a ∧ gmul a (b ^^^ c) = gmul a b ^^^ gmul a c

/-- R203: the table is the inverse followed by the affine map. -/
def Obligations.AesSboxFormula : Prop :=
  ∀ a : Byte, ∃ b : Byte, (gmul a b = 1 ∨ (a = 0 ∧ b = 0))
    ∧ sbox a = b ^^^ b.rotateLeft 1 ^^^ b.rotateLeft 2 ^^^ b.rotateLeft 3 ^^^ b.rotateLeft 4 ^^^ 0x63

/-- R204 to R207: the four transformations byte by byte, row r and column c being byte r + 4c. -/
def Obligations.AesTransforms : Prop :=
  ∀ (s key : AesBlock) (r c : Fin 4) (i : Fin 16),
    (subBytes s)[i] = sbox s[i]
    ∧ (shiftRows s)[r.val + 4 * c.val] = s[r.val + 4 * ((c.val + r.val) % 4)]
    ∧ (mixColumns s)[4 * c.val] = gmul s[4 * c.val] 2 ^^^ gmul s[4 * c.val + 1] 3 ^^^ s[4 * c.val + 2] ^^^ s[4 * c.val + 3]
    ∧ (mixColumns s)[4 * c.val + 1]
        = s[4 * c.val] ^^^ gmul s[4 * c.val + 1] 2 ^^^ gmul s[4 * c.val + 2] 3 ^^^ s[4 * c.val + 3]
    ∧ (mixColumns s)[4 * c.val + 2]
        = s[4 * c.val] ^^^ s[4 * c.val + 1] ^^^ gmul s[4 * c.val + 2] 2 ^^^ gmul s[4 * c.val + 3] 3
    ∧ (mixColumns s)[4 * c.val + 3]
        = gmul s[4 * c.val] 3 ^^^ s[4 * c.val + 1] ^^^ s[4 * c.val + 2] ^^^ gmul s[4 * c.val + 3] 2
    ∧ (addRoundKey s key)[i] = s[i] ^^^ key[i]

/-- R208, R209: the 44 words of the key schedule and the eleven round keys. -/
def Obligations.AesKeySchedule : Prop :=
  (rcon 1 = 0x01 ∧ ∀ i, 1 ≤ i → i < 10 → rcon (i + 1) = xtime (rcon i))
  ∧ ∀ (key : AesBlock) (w : List AesWord) (z : AesWord), w = keySchedule key → z = Vector.replicate 4 0 →
    w.length = 44
    ∧ (∀ j b : Fin 4, (w.getD j.val z)[b] = key[4 * j.val + b.val])
    ∧ (∀ j, 4 ≤ j → j < 44 → j % 4 ≠ 0 → ∀ b : Fin 4,
        (w.getD j z)[b] = (w.getD (j - 4) z)[b] ^^^ (w.getD (j - 1) z)[b])
    ∧ (∀ j, 4 ≤ j → j < 44 → j % 4 = 0 → ∀ b : Fin 4,
        (w.getD j z)[b] = (w.getD (j - 4) z)[b] ^^^ sbox (w.getD (j - 1) z)[(b.val + 1) % 4]
          ^^^ (if b = 0 then rcon (j / 4) else 0))
    ∧ ∀ (k : Fin 11) (j b : Fin 4), (roundKey w k.val)[4 * j.val + b.val] = (w.getD (4 * k.val + j.val) z)[b]

/-- R212, R214, R215: `AESENC`: its check, the 41 records in order, each the next stage of the one before, the round
keys in the `ADDROUNDKEY` records, the ciphertext. -/
def Obligations.AesencResult : Prop :=
  encode .aesenc = 0x00000060 ∧ ∀ s : State, s.cfg.ok = true →
    (s.ibufLen ≠ 32 → exec .aesenc s = s.raises 1)
    ∧ ∀ pt key : AesBlock, s.ibufLen = 32 → s.ibuf = pt.toList ++ key.toList →
      ∃ trace : List Record,
        exec .aesenc s = s.returns { noResults with trace := trace, obuf := (trace.getD 40 Record.zero).s.toList }
        ∧ trace.length = 41 ∧ trace.map (fun rec => (rec.a.toNat, rec.b.toNat)) = aesOrder
        ∧ (∀ rec ∈ trace, rec = { Record.zero with kind := 5, a := rec.a, b := rec.b, s := rec.s, key := rec.key }
            ∧ rec.key = if rec.b = 4 then roundKey (keySchedule key) rec.a.toNat else Vector.replicate 16 0)
        ∧ (trace.getD 0 Record.zero).s = pt
        ∧ ∀ n < 40, (trace.getD (n + 1) Record.zero).s
            = aesAfter (trace.getD (n + 1) Record.zero).b.toNat (trace.getD n Record.zero).s
                (trace.getD (n + 1) Record.zero).key

/-- R217: the known answer. -/
def Obligations.AesKnownAnswer : Prop :=
  ∀ s : State, s.cfg.ok = true →
    s.ibuf = [0x00, 0x11, 0x22, 0x33, 0x44, 0x55, 0x66, 0x77, 0x88, 0x99, 0xaa, 0xbb, 0xcc, 0xdd, 0xee, 0xff,
      0x00, 0x01, 0x02, 0x03, 0x04, 0x05, 0x06, 0x07, 0x08, 0x09, 0x0a, 0x0b, 0x0c, 0x0d, 0x0e, 0x0f] →
    ∃ t, exec .aesenc s = .next t
      ∧ t.out.obuf = [0x69, 0xc4, 0xe0, 0xd8, 0x6a, 0x7b, 0x04, 0x30, 0xd8, 0xcd, 0xb7, 0x80, 0x70, 0xb4, 0xc5, 0x5a]
      ∧ t.out.trace.length = 41

/-! ## SHA-256 -/

/-- R232: the padding of a message of L bytes, below 2^61. -/
def Obligations.ShaPadding : Prop :=
  ∀ msg : List Byte, msg.length < 2 ^ 61 →
    ∃ (z : Nat) (len8 : List Byte), z < 64 ∧ (msg.length + 1 + z) % 64 = 56 ∧ len8.length = 8
      ∧ beVal len8 = 8 * msg.length ∧ shaPad msg = msg ++ [0x80] ++ List.replicate z 0 ++ len8
      ∧ (shaPad msg).length = 64 * ((msg.length + 8) / 64 + 1)

/-- R233 to R236: the six functions bit by bit (with `rotr32(x, n)` taking bit i from bit (i + n) mod 32), the constants
as the first 32 bits of the fractional parts of square and cube roots of the first primes, and the schedule. -/
def Obligations.ShaSchedule : Prop :=
  (∀ (x y z : Word) (i : Nat), i < 32 →
    (shaCh x y z).getLsbD i = ((x.getLsbD i && y.getLsbD i) ^^ (!x.getLsbD i && z.getLsbD i))
    ∧ (shaMaj x y z).getLsbD i
        = (((x.getLsbD i && y.getLsbD i) ^^ (x.getLsbD i && z.getLsbD i)) ^^ (y.getLsbD i && z.getLsbD i))
    ∧ (bigSigma0 x).getLsbD i
        = ((x.getLsbD ((i + 2) % 32) ^^ x.getLsbD ((i + 13) % 32)) ^^ x.getLsbD ((i + 22) % 32))
    ∧ (bigSigma1 x).getLsbD i
        = ((x.getLsbD ((i + 6) % 32) ^^ x.getLsbD ((i + 11) % 32)) ^^ x.getLsbD ((i + 25) % 32))
    ∧ (smallSigma0 x).getLsbD i
        = ((x.getLsbD ((i + 7) % 32) ^^ x.getLsbD ((i + 18) % 32)) ^^ (decide (i + 3 < 32) && x.getLsbD (i + 3)))
    ∧ (smallSigma1 x).getLsbD i
        = ((x.getLsbD ((i + 17) % 32) ^^ x.getLsbD ((i + 19) % 32)) ^^ (decide (i + 10 < 32) && x.getLsbD (i + 10))))
  ∧ (shaK.length = 64 ∧ ((List.range 312).filter (fun p => decide p.Prime)).length = 64
    ∧ (∀ t < 64, ∃ whole < 8, ∀ p n : Nat, p = ((List.range 312).filter (fun p => decide p.Prime)).getD t 0 →
        n = whole * 2 ^ 32 + (shaK.getD t 0).toNat → n ^ 3 ≤ p * 2 ^ 96 ∧ p * 2 ^ 96 < (n + 1) ^ 3)
    ∧ ∀ j < 8, ∃ whole < 8, ∀ p n : Nat, p = ([2, 3, 5, 7, 11, 13, 17, 19] : List Nat).getD j 0 →
        n = whole * 2 ^ 32
          + (([shaInit.a, shaInit.b, shaInit.c, shaInit.d, shaInit.e, shaInit.f, shaInit.g, shaInit.h] : List Word).getD
              j 0).toNat →
        n ^ 2 ≤ p * 2 ^ 64 ∧ p * 2 ^ 64 < (n + 1) ^ 2)
  ∧
  ∀ (block : List Byte) (w : List Word), block.length = 64 → w = shaSchedule block →
    w.length = 64 ∧ (∀ t < 16, (w.getD t 0).toNat = beVal ((block.drop (4 * t)).take 4))
      ∧ ∀ t, 16 ≤ t → t < 64 →
          w.getD t 0 = smallSigma1 (w.getD (t - 2) 0) + w.getD (t - 7) 0 + smallSigma0 (w.getD (t - 15) 0)
            + w.getD (t - 16) 0

/-- R237, R240, R243, R244: `SHA256`: the padded message, one record a round in order of block and round with the
schedule word and constant, each round from the variables before it, and the hash read from the trace. -/
def Obligations.Sha256Result : Prop :=
  encode .sha256 = 0x00000070 ∧ ∀ (s : State) (padded : List Byte), s.cfg.ok = true → s.lensOk →
    padded = shaPad s.ibuf →
    ∃ (trace : List Record) (hash : List Byte),
      exec .sha256 s = s.returns { noResults with trace := trace, pbuf := padded, obuf := hash }
      ∧ trace.length = padded.length ∧ hash.length = 32
      ∧ (∃ h, h = hashFromTrace trace (padded.length / 64)
          ∧ (List.range 8).map (fun j => be32At hash (4 * j)) = [h.a, h.b, h.c, h.d, h.e, h.f, h.g, h.h])
      ∧ ∀ n < trace.length, ∃ (rec : Record) (v : ShaVars) (t1 t2 : Word), rec = trace.getD n Record.zero
          ∧ v = varsBefore trace n
          ∧ rec.w[8] = (shaSchedule ((padded.drop (64 * (n / 64))).take 64)).getD (n % 64) 0
          ∧ rec.w[9] = shaK.getD (n % 64) 0
          ∧ t1 = v.h + bigSigma1 v.e + shaCh v.e v.f v.g + rec.w[9] + rec.w[8]
          ∧ t2 = bigSigma0 v.a + shaMaj v.a v.b v.c
          ∧ rec = { Record.zero with
              kind := 6, a := BitVec.ofNat 32 (n / 64), b := BitVec.ofNat 32 (n % 64)
              w := #v[t1 + t2, v.a, v.b, v.c, v.d + t1, v.e, v.f, v.g, rec.w[8], rec.w[9]] }

/-- R246: the known answer for the empty message. -/
def Obligations.ShaKnownAnswer : Prop :=
  ∀ s : State, s.cfg.ok = true → s.ibufLen = 0 →
    ∃ t, exec .sha256 s = .next t ∧ t.out.trace.length = 64
      ∧ t.out.pbuf = 0x80 :: List.replicate 63 0
      ∧ t.out.obuf = [0xe3, 0xb0, 0xc4, 0x42, 0x98, 0xfc, 0x1c, 0x14, 0x9a, 0xfb, 0xf4, 0xc8, 0x99, 0x6f, 0xb9, 0x24,
          0x27, 0xae, 0x41, 0xe4, 0x64, 0x9b, 0x93, 0x4c, 0xa4, 0x95, 0x99, 0x1b, 0x78, 0x52, 0xb8, 0x55]

/-! ## Every command -/

/-- R261: `INIT`. -/
def Obligations.InitResult : Prop :=
  encode .init = 0x00000001 ∧ ∀ s : State, exec .init s = s.returns noResults

/-- R98, R272: every command ends, changes nothing but the result state, leaves `READY` set, and either returns with
code `OK` or leaves every result cleared beside a code. -/
def Obligations.CommandEnds : Prop :=
  ∀ (i : Instr) (s : State), ∃ o, exec i s = s.returns o ∧ getFlag o.status .ready = true
    ∧ (statusCode o.status = 0 ∨ ∃ code, (code = 1 ∨ code = 2 ∨ code = 4) ∧ exec i s = s.raises code)

/-- R16, R96: the result state is a function of the parameters and of the operands that the command reads. -/
def Obligations.OperandsDecideResult : Prop :=
  ∀ (i : Instr) (s t : State), sameOperands i s t → ∃ o, exec i s = s.returns o ∧ exec i t = t.returns o

/-- R270, R271: the code is `INVALID_INPUT` exactly when an operand check fails; `SEARCH_EXHAUSTED` comes from
`DERIVE` only, `RESOURCE_LIMIT` from `B2I`, `DLBF` and `DLBSGS` only, and no command ends with another code. -/
def Obligations.CompletionCodes : Prop :=
  ∀ (i : Instr) (s : State), s.cfg.ok = true → s.lensOk → ∃ t, exec i s = .next t
    ∧ (statusCode t.out.status = 1 ↔ invalidOperands s i)
    ∧ (statusCode t.out.status = 2 → ∃ carm hint, i = .derive carm hint)
    ∧ (statusCode t.out.status = 4 → i = .b2i ∨ i = .dlbf ∨ i = .dlbsgs)
    ∧ statusCode t.out.status ≠ 3 ∧ (statusCode t.out.status).toNat ≤ 4

/-- R260: `READY` is 0 at reset, every write to `CMD` sets it, and nothing but reset clears it. -/
def Obligations.ReadyIsSticky : Prop :=
  getFlag State.reset.out.status .ready = false
  ∧ (∀ (s : State) (w : Word) (rest : List BusEvent), s.pending = .access (.write32 0x000000 w) :: rest →
      ∃ t, step s = .next t ∧ getFlag t.out.status .ready = true ∧ t.cmd = w ∧ t.readWord .cmd = w)
  ∧ ∀ s t : State, step s = .next t → s.pending.head? ≠ some .reset → getFlag s.out.status .ready = true →
      getFlag t.out.status .ready = true

/-- Every step keeps the invariant: legal parameters, lengths within bounds, canonical memory of host-written bytes,
buffers within capacity, a legal status word, legal map entries and records. -/
def Obligations.StepKeepsInv : Prop :=
  ∀ s t : State, s.Inv → step s = .next t → t.Inv

/-- The invariant holds at reset, where every integer fits its register too, and at reset with every legal choice of parameters. -/
def Obligations.ResetInv : Prop :=
  (State.reset.Inv ∧ State.reset.resultsFit)
    ∧ ∀ c : Params, c.ok = true → (State.resetOf c).Inv ∧ (State.resetOf c).resultsFit

/-- R31: no command produces an integer that does not fit a result register of `RESB` bytes, and no step leaves one. -/
def Obligations.ResultsFitRegisters : Prop :=
  (∀ (i : Instr) (s : State), s.cfg.ok = true → s.lensOk → ∃ t, exec i s = .next t ∧ t.resultsFit)
  ∧ ∀ s t : State, s.Inv → s.resultsFit → step s = .next t → t.resultsFit

/-! ## The driver's text -/

/-- R78: (a) text is accepted only as an optional minus sign and one or more digits, and is read back exactly; (b) an
integer below 256^OPB in magnitude is loaded with `LDX`; any other text gives `INVALID_INPUT` with nothing changed;
(c) a byte array is loaded with `LDB`, and one with an element outside 0 to 255 gives `INVALID_INPUT`; a call with an
invalid argument issues no command; (d), (e) results (the registers, the array of `MAPEXP`, the integer fields of a record)
are decimal text, or the absent value for a register, byte strings are integers from 0 to 255, and (log entry 17) a
command that failed gives its code. That arguments are loaded one after another is the model's choice (log entry 18). -/
def Obligations.DecimalText : Prop :=
  (∀ v : Int, parseDecimal (formatDecimal v) = some v)
  ∧ (∀ v : Int, 0 < v → (formatDecimal v).head? ≠ some '0' ∧ formatDecimal (-v) = '-' :: formatDecimal v)
  ∧ formatDecimal 0 = ['0']
  ∧ (∀ cs : List Char, (parseDecimal cs).isSome = true ↔
      ∃ ds, (cs = ds ∨ cs = '-' :: ds) ∧ ds ≠ [] ∧ ∀ c ∈ ds, '0' ≤ c ∧ c ≤ '9')
  ∧ (∀ (s : State) (k : Fin 4) (cs : List Char),
      (∀ (v : Int) (t : State), parseDecimal cs = some v → v.natAbs < 256 ^ s.cfg.opb →
        runAccesses (ldxAccesses k v) s = .ok t → driverLoad (.int k cs) s = .ok (t, none))
      ∧ ((∀ v : Int, parseDecimal cs = some v → 256 ^ s.cfg.opb ≤ v.natAbs) →
        driverLoad (.int k cs) s = .ok (s, some .invalidInput)))
  ∧ (∀ s : State,
      (∀ (bs : List Byte) (t : State), runAccesses (ldbAccesses bs) s = .ok t →
        driverLoad (.bytes (bs.map (fun b => (b.toNat : Int)))) s = .ok (t, none))
      ∧ ∀ vs : List Int, (∃ v ∈ vs, v < 0 ∨ 255 < v) → driverLoad (.bytes vs) s = .ok (s, some .invalidInput))
  ∧ (∀ (s t : State) (args : List DriverArg) (i : Instr) (qs : List DriverQuery),
      (∀ a, driverLoadAll args s = .ok (t, some a) →
        a = .invalidInput ∧ driverCall args i qs s = .ok (t, [.invalidInput]) ∧ t.cmd = s.cmd ∧ t.out = s.out)
      ∧ ∀ u v w, driverLoadAll args s = .ok (t, none) → exec i { t with cmd := encode i } = .next u →
          driverResults qs (u.reply .done) = .ok (w, v) → driverCall args i qs s = .ok (w, v))
  ∧ ∀ s : State, s.Inv → s.resultsFit →
      (statusCode s.out.status ≠ 0 → ∀ q, driverResult q s = .ok (s, .failure (statusCode s.out.status)))
      ∧ (statusCode s.out.status = 0 →
        (∀ k : Fin 4, driverResult (.register k) s
          = .ok (s, if getFlag s.out.status .absent = true then .absent else .text (formatDecimal s.out.r[k])))
        ∧ (∃ t, driverResult .mapping s = .ok (t, .texts (s.out.map.map formatDecimal)) ∧ t.out = s.out)
        ∧ (∀ j : Word, ∃ t, driverResult (.step j) s
            = .ok (t, .texts ((s.out.trace.getD j.toNat Record.zero).f.toList.map formatDecimal)) ∧ t.out = s.out)
        ∧ driverResult .output s = .ok (s, .bytes (s.out.obuf.map fun b => (b.toNat : Int)))
        ∧ driverResult .padded s = .ok (s, .bytes (s.out.pbuf.map fun b => (b.toNat : Int))))
end

