-- ==== Sys2Proof/Laws/Arith.lean ====
section
/-! SUPPORT. The fuel of the recursive extended Euclid does not matter: with enough of it, it meets the two equations
of `40_integer_kernel.md` R119. -/

namespace Sys2Proof.Machine

/-- The remainder of a truncating division is smaller than the divisor. -/
theorem natAbs_tmod_lt (a b : Int) (hb : b ≠ 0) : (a.tmod b).natAbs < b.natAbs := by
  rw [Int.natAbs_tmod]
  exact Nat.mod_lt _ (by omega)

/-- Any two amounts of fuel that are enough give the same triple. -/
theorem egcdRec_fuel (n m : Nat) (a b : Int) (hn : b.natAbs ≤ n) (hm : b.natAbs ≤ m) :
    egcdRec n a b = egcdRec m a b := by
  induction n generalizing m a b with
  | zero =>
    have hb : b = 0 := by omega
    subst hb
    cases m <;> simp [egcdRec]
  | succ n ih =>
    by_cases hb : b = 0
    · subst hb
      cases m <;> simp [egcdRec]
    · cases m with
      | zero => omega
      | succ m =>
        have hr := natAbs_tmod_lt a b hb
        simp only [egcdRec, hb, if_false]
        rw [ih m b (a.tmod b) (by omega) (by omega)]

/-- The first equation of R119. -/
theorem egcdRec_zero (a : Int) : egcdRec (0 : Int).natAbs a 0 = ⟨a, 1, 0⟩ := rfl

/-- The second equation of R119. -/
theorem egcdRec_step (a b : Int) (hb : b ≠ 0) :
    egcdRec b.natAbs a b
      = ⟨(egcdRec (a.tmod b).natAbs b (a.tmod b)).g, (egcdRec (a.tmod b).natAbs b (a.tmod b)).y,
          (egcdRec (a.tmod b).natAbs b (a.tmod b)).x
            - a.tdiv b * (egcdRec (a.tmod b).natAbs b (a.tmod b)).y⟩ := by
  have hr := natAbs_tmod_lt a b hb
  obtain ⟨n, hn⟩ : ∃ n, b.natAbs = n + 1 := ⟨b.natAbs - 1, by omega⟩
  rw [hn]
  simp only [egcdRec, hb, if_false]
  rw [egcdRec_fuel n (a.tmod b).natAbs b (a.tmod b) (by omega) (by omega)]

end Sys2Proof.Machine
end

