-- ==== Sys2Proof/Laws/State.lean ====
section
/-! SUPPORT. One lemma per field per update of the state, true by `rfl`: no later proof unfolds a record update. -/

namespace Sys2Proof.Machine

open Sys2Proof

/-! ## prologue -/

@[simp] theorem State.prologue_cfg (s : State) : s.prologue.cfg = s.cfg := rfl
@[simp] theorem State.prologue_x (s : State) : s.prologue.x = s.x := rfl
@[simp] theorem State.prologue_mem (s : State) : s.prologue.mem = s.mem := rfl
@[simp] theorem State.prologue_ibufLen (s : State) : s.prologue.ibufLen = s.ibufLen := rfl
@[simp] theorem State.prologue_cmd (s : State) : s.prologue.cmd = s.cmd := rfl
@[simp] theorem State.prologue_traceIdx (s : State) : s.prologue.traceIdx = s.traceIdx := rfl
@[simp] theorem State.prologue_mapIdx (s : State) : s.prologue.mapIdx = s.mapIdx := rfl
@[simp] theorem State.prologue_out (s : State) : s.prologue.out = ResultState.cleared := rfl
@[simp] theorem State.prologue_pending (s : State) : s.prologue.pending = s.pending := rfl
@[simp] theorem State.prologue_replies (s : State) : s.prologue.replies = s.replies := rfl
@[simp] theorem State.prologue_xVal (s : State) (k : Fin 4) : s.prologue.xVal k = s.xVal k := rfl
@[simp] theorem State.prologue_ibuf (s : State) : s.prologue.ibuf = s.ibuf := rfl

/-! ## raise -/

@[simp] theorem State.raise_cfg (s : State) (c : ErrorCode) : (s.raise c).cfg = s.cfg := rfl
@[simp] theorem State.raise_x (s : State) (c : ErrorCode) : (s.raise c).x = s.x := rfl
@[simp] theorem State.raise_mem (s : State) (c : ErrorCode) : (s.raise c).mem = s.mem := rfl
@[simp] theorem State.raise_ibufLen (s : State) (c : ErrorCode) : (s.raise c).ibufLen = s.ibufLen := rfl
@[simp] theorem State.raise_cmd (s : State) (c : ErrorCode) : (s.raise c).cmd = s.cmd := rfl
@[simp] theorem State.raise_traceIdx (s : State) (c : ErrorCode) : (s.raise c).traceIdx = s.traceIdx := rfl
@[simp] theorem State.raise_mapIdx (s : State) (c : ErrorCode) : (s.raise c).mapIdx = s.mapIdx := rfl
@[simp] theorem State.raise_out (s : State) (c : ErrorCode) : (s.raise c).out = { ResultState.cleared with status := setCode readyStatus c } := rfl
@[simp] theorem State.raise_pending (s : State) (c : ErrorCode) : (s.raise c).pending = s.pending := rfl
@[simp] theorem State.raise_replies (s : State) (c : ErrorCode) : (s.raise c).replies = s.replies := rfl
@[simp] theorem State.raise_xVal (s : State) (c : ErrorCode) (k : Fin 4) : (s.raise c).xVal k = s.xVal k := rfl
@[simp] theorem State.raise_ibuf (s : State) (c : ErrorCode) : (s.raise c).ibuf = s.ibuf := rfl

/-! ## complete -/

@[simp] theorem State.complete_cfg (s : State) (o : ResultState) : (s.complete o).cfg = s.cfg := rfl
@[simp] theorem State.complete_x (s : State) (o : ResultState) : (s.complete o).x = s.x := rfl
@[simp] theorem State.complete_mem (s : State) (o : ResultState) : (s.complete o).mem = s.mem := rfl
@[simp] theorem State.complete_ibufLen (s : State) (o : ResultState) : (s.complete o).ibufLen = s.ibufLen := rfl
@[simp] theorem State.complete_cmd (s : State) (o : ResultState) : (s.complete o).cmd = s.cmd := rfl
@[simp] theorem State.complete_traceIdx (s : State) (o : ResultState) : (s.complete o).traceIdx = s.traceIdx := rfl
@[simp] theorem State.complete_mapIdx (s : State) (o : ResultState) : (s.complete o).mapIdx = s.mapIdx := rfl
@[simp] theorem State.complete_out (s : State) (o : ResultState) : (s.complete o).out = o := rfl
@[simp] theorem State.complete_pending (s : State) (o : ResultState) : (s.complete o).pending = s.pending := rfl
@[simp] theorem State.complete_replies (s : State) (o : ResultState) : (s.complete o).replies = s.replies := rfl
@[simp] theorem State.complete_xVal (s : State) (o : ResultState) (k : Fin 4) : (s.complete o).xVal k = s.xVal k := rfl
@[simp] theorem State.complete_ibuf (s : State) (o : ResultState) : (s.complete o).ibuf = s.ibuf := rfl

/-! ## withCmd -/

@[simp] theorem State.withCmd_cfg (s : State) (w : Word) : (s.withCmd w).cfg = s.cfg := rfl
@[simp] theorem State.withCmd_x (s : State) (w : Word) : (s.withCmd w).x = s.x := rfl
@[simp] theorem State.withCmd_mem (s : State) (w : Word) : (s.withCmd w).mem = s.mem := rfl
@[simp] theorem State.withCmd_ibufLen (s : State) (w : Word) : (s.withCmd w).ibufLen = s.ibufLen := rfl
@[simp] theorem State.withCmd_cmd (s : State) (w : Word) : (s.withCmd w).cmd = w := rfl
@[simp] theorem State.withCmd_traceIdx (s : State) (w : Word) : (s.withCmd w).traceIdx = s.traceIdx := rfl
@[simp] theorem State.withCmd_mapIdx (s : State) (w : Word) : (s.withCmd w).mapIdx = s.mapIdx := rfl
@[simp] theorem State.withCmd_out (s : State) (w : Word) : (s.withCmd w).out = s.out := rfl
@[simp] theorem State.withCmd_pending (s : State) (w : Word) : (s.withCmd w).pending = s.pending := rfl
@[simp] theorem State.withCmd_replies (s : State) (w : Word) : (s.withCmd w).replies = s.replies := rfl
@[simp] theorem State.withCmd_xVal (s : State) (w : Word) (k : Fin 4) : (s.withCmd w).xVal k = s.xVal k := rfl
@[simp] theorem State.withCmd_ibuf (s : State) (w : Word) : (s.withCmd w).ibuf = s.ibuf := rfl

/-! ## reply -/

@[simp] theorem State.reply_cfg (s : State) (r : BusReply) : (s.reply r).cfg = s.cfg := rfl
@[simp] theorem State.reply_x (s : State) (r : BusReply) : (s.reply r).x = s.x := rfl
@[simp] theorem State.reply_mem (s : State) (r : BusReply) : (s.reply r).mem = s.mem := rfl
@[simp] theorem State.reply_ibufLen (s : State) (r : BusReply) : (s.reply r).ibufLen = s.ibufLen := rfl
@[simp] theorem State.reply_cmd (s : State) (r : BusReply) : (s.reply r).cmd = s.cmd := rfl
@[simp] theorem State.reply_traceIdx (s : State) (r : BusReply) : (s.reply r).traceIdx = s.traceIdx := rfl
@[simp] theorem State.reply_mapIdx (s : State) (r : BusReply) : (s.reply r).mapIdx = s.mapIdx := rfl
@[simp] theorem State.reply_out (s : State) (r : BusReply) : (s.reply r).out = s.out := rfl
@[simp] theorem State.reply_pending (s : State) (r : BusReply) : (s.reply r).pending = s.pending := rfl
@[simp] theorem State.reply_replies (s : State) (r : BusReply) : (s.reply r).replies = r :: s.replies := rfl
@[simp] theorem State.reply_xVal (s : State) (r : BusReply) (k : Fin 4) : (s.reply r).xVal k = s.xVal k := rfl
@[simp] theorem State.reply_ibuf (s : State) (r : BusReply) : (s.reply r).ibuf = s.ibuf := rfl

/-! ## withPending -/

@[simp] theorem State.withPending_cfg (s : State) (p : List BusEvent) : (s.withPending p).cfg = s.cfg := rfl
@[simp] theorem State.withPending_x (s : State) (p : List BusEvent) : (s.withPending p).x = s.x := rfl
@[simp] theorem State.withPending_mem (s : State) (p : List BusEvent) : (s.withPending p).mem = s.mem := rfl
@[simp] theorem State.withPending_ibufLen (s : State) (p : List BusEvent) : (s.withPending p).ibufLen = s.ibufLen := rfl
@[simp] theorem State.withPending_cmd (s : State) (p : List BusEvent) : (s.withPending p).cmd = s.cmd := rfl
@[simp] theorem State.withPending_traceIdx (s : State) (p : List BusEvent) : (s.withPending p).traceIdx = s.traceIdx := rfl
@[simp] theorem State.withPending_mapIdx (s : State) (p : List BusEvent) : (s.withPending p).mapIdx = s.mapIdx := rfl
@[simp] theorem State.withPending_out (s : State) (p : List BusEvent) : (s.withPending p).out = s.out := rfl
@[simp] theorem State.withPending_pending (s : State) (p : List BusEvent) : (s.withPending p).pending = p := rfl
@[simp] theorem State.withPending_replies (s : State) (p : List BusEvent) : (s.withPending p).replies = s.replies := rfl
@[simp] theorem State.withPending_xVal (s : State) (p : List BusEvent) (k : Fin 4) : (s.withPending p).xVal k = s.xVal k := rfl
@[simp] theorem State.withPending_ibuf (s : State) (p : List BusEvent) : (s.withPending p).ibuf = s.ibuf := rfl

/-! ## withCommandPending -/

@[simp] theorem State.withCommandPending_cfg (s : State) (w : Word) : (s.withCommandPending w).cfg = s.cfg := rfl
@[simp] theorem State.withCommandPending_x (s : State) (w : Word) : (s.withCommandPending w).x = s.x := rfl
@[simp] theorem State.withCommandPending_mem (s : State) (w : Word) : (s.withCommandPending w).mem = s.mem := rfl
@[simp] theorem State.withCommandPending_ibufLen (s : State) (w : Word) : (s.withCommandPending w).ibufLen = s.ibufLen := rfl
@[simp] theorem State.withCommandPending_cmd (s : State) (w : Word) : (s.withCommandPending w).cmd = s.cmd := rfl
@[simp] theorem State.withCommandPending_traceIdx (s : State) (w : Word) : (s.withCommandPending w).traceIdx = s.traceIdx := rfl
@[simp] theorem State.withCommandPending_mapIdx (s : State) (w : Word) : (s.withCommandPending w).mapIdx = s.mapIdx := rfl
@[simp] theorem State.withCommandPending_out (s : State) (w : Word) : (s.withCommandPending w).out = s.out := rfl
@[simp] theorem State.withCommandPending_pending (s : State) (w : Word) : (s.withCommandPending w).pending = .access (.write32 0 w) :: s.pending := rfl
@[simp] theorem State.withCommandPending_replies (s : State) (w : Word) : (s.withCommandPending w).replies = s.replies := rfl
@[simp] theorem State.withCommandPending_xVal (s : State) (w : Word) (k : Fin 4) : (s.withCommandPending w).xVal k = s.xVal k := rfl
@[simp] theorem State.withCommandPending_ibuf (s : State) (w : Word) : (s.withCommandPending w).ibuf = s.ibuf := rfl

/-! ## doReset -/

@[simp] theorem State.doReset_cfg (s : State) : s.doReset.cfg = s.cfg := rfl
@[simp] theorem State.doReset_x (s : State) : s.doReset.x = Vector.replicate 4 ⟨0, 0⟩ := rfl
@[simp] theorem State.doReset_mem (s : State) : s.doReset.mem = [] := rfl
@[simp] theorem State.doReset_ibufLen (s : State) : s.doReset.ibufLen = 0 := rfl
@[simp] theorem State.doReset_cmd (s : State) : s.doReset.cmd = 0 := rfl
@[simp] theorem State.doReset_traceIdx (s : State) : s.doReset.traceIdx = 0 := rfl
@[simp] theorem State.doReset_mapIdx (s : State) : s.doReset.mapIdx = 0 := rfl
@[simp] theorem State.doReset_out (s : State) : s.doReset.out = ResultState.reset := rfl
@[simp] theorem State.doReset_pending (s : State) : s.doReset.pending = s.pending := rfl
@[simp] theorem State.doReset_replies (s : State) : s.doReset.replies = s.replies := rfl

/-! ## setR -/

@[simp] theorem ResultState.setR_status (o : ResultState) (k : Fin 4) (v : Int) : (o.setR k v).status = o.status := rfl
@[simp] theorem ResultState.setR_r (o : ResultState) (k : Fin 4) (v : Int) : (o.setR k v).r = o.r.set k v := rfl
@[simp] theorem ResultState.setR_obuf (o : ResultState) (k : Fin 4) (v : Int) : (o.setR k v).obuf = o.obuf := rfl
@[simp] theorem ResultState.setR_pbuf (o : ResultState) (k : Fin 4) (v : Int) : (o.setR k v).pbuf = o.pbuf := rfl
@[simp] theorem ResultState.setR_map (o : ResultState) (k : Fin 4) (v : Int) : (o.setR k v).map = o.map := rfl
@[simp] theorem ResultState.setR_trace (o : ResultState) (k : Fin 4) (v : Int) : (o.setR k v).trace = o.trace := rfl

/-! ## setFlag -/

@[simp] theorem ResultState.setFlag_status (o : ResultState) (f : StatusFlag) (b : Bool) : (o.setFlag f b).status = Machine.setFlag o.status f b := rfl
@[simp] theorem ResultState.setFlag_r (o : ResultState) (f : StatusFlag) (b : Bool) : (o.setFlag f b).r = o.r := rfl
@[simp] theorem ResultState.setFlag_obuf (o : ResultState) (f : StatusFlag) (b : Bool) : (o.setFlag f b).obuf = o.obuf := rfl
@[simp] theorem ResultState.setFlag_pbuf (o : ResultState) (f : StatusFlag) (b : Bool) : (o.setFlag f b).pbuf = o.pbuf := rfl
@[simp] theorem ResultState.setFlag_map (o : ResultState) (f : StatusFlag) (b : Bool) : (o.setFlag f b).map = o.map := rfl
@[simp] theorem ResultState.setFlag_trace (o : ResultState) (f : StatusFlag) (b : Bool) : (o.setFlag f b).trace = o.trace := rfl

/-! ## the cleared result state, the reset state -/

@[simp] theorem ResultState.cleared_status : ResultState.cleared.status = readyStatus := rfl
@[simp] theorem ResultState.cleared_r : ResultState.cleared.r = Vector.replicate 4 0 := rfl
@[simp] theorem ResultState.cleared_obuf : ResultState.cleared.obuf = [] := rfl
@[simp] theorem ResultState.cleared_pbuf : ResultState.cleared.pbuf = [] := rfl
@[simp] theorem ResultState.cleared_map : ResultState.cleared.map = [] := rfl
@[simp] theorem ResultState.cleared_trace : ResultState.cleared.trace = [] := rfl
@[simp] theorem ResultState.reset_status : ResultState.reset.status = 0 := rfl
@[simp] theorem ResultState.reset_r : ResultState.reset.r = Vector.replicate 4 0 := rfl
@[simp] theorem ResultState.reset_obuf : ResultState.reset.obuf = [] := rfl
@[simp] theorem ResultState.reset_pbuf : ResultState.reset.pbuf = [] := rfl
@[simp] theorem ResultState.reset_map : ResultState.reset.map = [] := rfl
@[simp] theorem ResultState.reset_trace : ResultState.reset.trace = [] := rfl
@[simp] theorem State.resetOf_cfg (cfg : Params) : (State.resetOf cfg).cfg = cfg := rfl
@[simp] theorem State.resetOf_x (cfg : Params) : (State.resetOf cfg).x = Vector.replicate 4 ⟨0, 0⟩ := rfl
@[simp] theorem State.resetOf_mem (cfg : Params) : (State.resetOf cfg).mem = [] := rfl
@[simp] theorem State.resetOf_ibufLen (cfg : Params) : (State.resetOf cfg).ibufLen = 0 := rfl
@[simp] theorem State.resetOf_cmd (cfg : Params) : (State.resetOf cfg).cmd = 0 := rfl
@[simp] theorem State.resetOf_traceIdx (cfg : Params) : (State.resetOf cfg).traceIdx = 0 := rfl
@[simp] theorem State.resetOf_mapIdx (cfg : Params) : (State.resetOf cfg).mapIdx = 0 := rfl
@[simp] theorem State.resetOf_out (cfg : Params) : (State.resetOf cfg).out = ResultState.reset := rfl
@[simp] theorem State.resetOf_pending (cfg : Params) : (State.resetOf cfg).pending = [] := rfl
@[simp] theorem State.resetOf_replies (cfg : Params) : (State.resetOf cfg).replies = [] := rfl

/-! ## a search run with one more record -/

@[simp] theorem SearchRun.after_records (rec : Record) (run : SearchRun) : (run.after rec).records = rec :: run.records := rfl
@[simp] theorem SearchRun.after_ending (rec : Record) (run : SearchRun) : (run.after rec).ending = run.ending := rfl

end Sys2Proof.Machine
end

