-- ==== Sys2Proof/Laws/Memory.lean ====
section
/-! SUPPORT. The laws of the byte locations: read after write, and the canonical form, which every operation on
a memory keeps. -/

namespace Sys2Proof.Machine

open Sys2Proof

@[simp] theorem Memory.read_nil (a : Nat) : Memory.read [] a = 0 := rfl

/-- A location below every listed one reads as unlisted. -/
theorem Memory.read_of_lt (m : Memory) (a : Nat) (h : ∀ c ∈ m, a < c.1) : m.read a = 0 := by
  induction m with
  | nil => rfl
  | cons c m ih =>
    obtain ⟨k, b⟩ := c
    have hk : a < k := h (k, b) (by simp)
    have hne : k ≠ a := by omega
    simp only [Memory.read, hne, if_false]
    exact ih fun d hd => h d (List.mem_cons_of_mem _ hd)

/-- Read after write, at the same offset and at every other. -/
theorem Memory.read_write (m : Memory) (hm : m.wf) (a : Nat) (b : Byte) (a' : Nat) :
    (m.write a b).read a' = if a' = a then b else m.read a' := by
  induction m with
  | nil =>
    unfold Memory.write
    by_cases hb : b = Memory.unlisted
    · rw [if_pos hb, hb]; simp [Memory.unlisted]
    · rw [if_neg hb, Memory.read, Memory.read]
      by_cases h : a = a'
      · rw [if_pos h, if_pos h.symm]
      · rw [if_neg h, if_neg (Ne.symm h)]; rfl
  | cons c m ih =>
    obtain ⟨k, d⟩ := c
    have hsort := List.pairwise_cons.mp hm.1
    have hm' : Memory.wf m := ⟨hsort.2, fun e he => hm.2 e (List.mem_cons_of_mem _ he)⟩
    have hlow : ∀ a'', a'' ≤ k → Memory.read m a'' = 0 := fun a'' h =>
      Memory.read_of_lt m a'' fun e he => lt_of_le_of_lt h (hsort.1 e he)
    have ih' := ih hm'
    unfold Memory.write
    by_cases h1 : a < k
    · have hra : k ≠ a := by omega
      rw [if_pos h1]
      by_cases hb : b = Memory.unlisted
      · rw [if_pos hb]
        by_cases h : a' = a
        · subst h
          rw [if_pos rfl, Memory.read, if_neg hra, hlow _ (by omega), hb]; rfl
        · rw [if_neg h]
      · rw [if_neg hb, Memory.read]
        by_cases h : a = a'
        · rw [if_pos h, if_pos h.symm]
        · rw [if_neg h, if_neg (Ne.symm h)]
    · rw [if_neg h1]
      by_cases h2 : a = k
      · rw [if_pos h2]
        by_cases hb : b = Memory.unlisted
        · rw [if_pos hb]
          by_cases h : a' = a
          · rw [if_pos h, hlow _ (by omega), hb]; rfl
          · rw [if_neg h, Memory.read, if_neg (by omega)]
        · rw [if_neg hb, Memory.read]
          by_cases h : a = a'
          · rw [if_pos h, if_pos h.symm]
          · rw [if_neg h, if_neg (Ne.symm h), Memory.read, if_neg (by omega)]
      · rw [if_neg h2, Memory.read, ih']
        by_cases hk : k = a'
        · rw [if_pos hk, if_neg (by omega), Memory.read, if_pos hk]
        · rw [if_neg hk, Memory.read, if_neg hk]

@[simp] theorem Memory.read_write_same (m : Memory) (hm : m.wf) (a : Nat) (b : Byte) : (m.write a b).read a = b := by
  simp [Memory.read_write m hm]

/-- A write leaves every other location alone. -/
theorem Memory.read_write_other (m : Memory) (hm : m.wf) (a a' : Nat) (b : Byte) (h : a' ≠ a) :
    (m.write a b).read a' = m.read a' := by
  simp [Memory.read_write m hm, h]

/-- What a write can list: the location written, with its byte, or what was listed before. -/
theorem Memory.mem_write (m : Memory) (a : Nat) (b : Byte) (c : Host.Cell) (h : c ∈ m.write a b) :
    (c = (a, b) ∧ b ≠ 0) ∨ c ∈ m := by
  induction m with
  | nil =>
    unfold Memory.write at h
    split at h
    · simp at h
    · exact .inl ⟨by simpa using h, ‹_›⟩
  | cons d m ih =>
    obtain ⟨k, e⟩ := d
    unfold Memory.write at h
    split at h
    · split at h
      · exact .inr h
      · rcases List.mem_cons.mp h with h | h
        · exact .inl ⟨h, ‹_›⟩
        · exact .inr h
    · split at h
      · split at h
        · exact .inr (List.mem_cons_of_mem _ h)
        · rcases List.mem_cons.mp h with h | h
          · exact .inl ⟨h, ‹_›⟩
          · exact .inr (List.mem_cons_of_mem _ h)
      · rcases List.mem_cons.mp h with h | h
        · exact .inr (by simp [h])
        · rcases ih h with h | h
          · exact .inl h
          · exact .inr (List.mem_cons_of_mem _ h)

/-- A write keeps the canonical form. -/
theorem Memory.write_wf (m : Memory) (hm : m.wf) (a : Nat) (b : Byte) : (m.write a b).wf := by
  refine ⟨?_, fun c hc => ?_⟩
  · induction m with
    | nil => unfold Memory.write; split <;> simp
    | cons d m ih =>
      obtain ⟨k, e⟩ := d
      have hsort := List.pairwise_cons.mp hm.1
      have hm' : Memory.wf m := ⟨hsort.2, fun e he => hm.2 e (List.mem_cons_of_mem _ he)⟩
      unfold Memory.write
      split
      · split
        · exact hm.1
        · refine List.pairwise_cons.mpr ⟨fun c hc => ?_, hm.1⟩
          rcases List.mem_cons.mp hc with rfl | hc
          · assumption
          · exact lt_trans ‹_› (hsort.1 c hc)
      · split
        · split
          · exact hsort.2
          · subst a; exact List.pairwise_cons.mpr ⟨hsort.1, hsort.2⟩
        · refine List.pairwise_cons.mpr ⟨fun c hc => ?_, ih hm'⟩
          rcases Memory.mem_write m a b c hc with ⟨rfl, -⟩ | hc
          · show k < a; omega
          · exact hsort.1 c hc
  · rcases Memory.mem_write m a b c hc with ⟨rfl, hb⟩ | hc
    · exact hb
    · exact hm.2 c hc

/-- The memory at reset is in canonical form. -/
theorem State.reset_mem_wf : State.reset.mem.wf := by simp [State.reset, State.resetOf, Memory.wf]

@[simp] theorem Memory.length_bytes (m : Memory) (a n : Nat) : (m.bytes a n).length = n := by simp [Memory.bytes]

/-- Two memories with the same bytes in a range give the same byte string. -/
theorem Memory.bytes_congr (m m' : Memory) (a n : Nat) (h : ∀ i < n, m.read (a + i) = m'.read (a + i)) :
    m.bytes a n = m'.bytes a n := by
  simp only [Memory.bytes]
  exact List.map_congr_left fun i hi => h i (List.mem_range.mp hi)

@[simp] theorem State.length_ibuf (s : State) : s.ibuf.length = s.ibufLen.toNat := by simp [State.ibuf]

end Sys2Proof.Machine
end

