-- ==== Sys2Proof/Laws/Codec.lean ====
section
/-! SUPPORT. The small laws of the big-endian codec: how a value grows with its byte string, and how large it can be. -/

namespace Sys2Proof.Machine

open Sys2Proof

@[simp] theorem beVal_nil : beVal [] = 0 := rfl

/-- One more byte at the end. -/
theorem beVal_concat (bs : List Byte) (b : Byte) : beVal (bs ++ [b]) = beVal bs * 256 + b.toNat := by
  simp [beVal, List.foldl_append]

/-- The value of a byte string is below 256 to its length. -/
theorem beVal_lt (bs : List Byte) : beVal bs < 256 ^ bs.length := by
  induction bs using List.reverseRecOn with
  | nil => simp
  | append_singleton bs b ih =>
    rw [beVal_concat, List.length_append, List.length_singleton, pow_succ]
    have := b.isLt
    omega

/-- The magnitude of a signed value. -/
@[simp] theorem signedVal_natAbs (sign : BitVec 1) (mag : Nat) : (signedVal sign mag).natAbs = mag := by
  unfold signedVal; split <;> simp

/-- The magnitude of an operand is below 256 to its length (R24). -/
theorem State.xVal_natAbs_lt (s : State) (k : Fin 4) : (s.xVal k).natAbs < 256 ^ s.x[k].len.toNat := by
  have h := beVal_lt (s.xMag k)
  simpa [State.xVal, State.xMag] using h

/-- The value of the input buffer is below 256 to its length. -/
theorem State.beVal_ibuf_lt (s : State) : beVal s.ibuf < 256 ^ s.ibufLen.toNat := by
  simpa using beVal_lt s.ibuf

end Sys2Proof.Machine
end

