-- ==== Sys2Proof/Laws/Flags.lean ====
section
/-! SUPPORT. The laws of `STATUS`: a flag written reads back, every other field stays, and what the shared
computations of flags leave. -/

namespace Sys2Proof.Machine

open Sys2Proof

/-- A flag written reads back, and every other flag stays. -/
@[simp] theorem getFlag_setFlag (st : Word) (f f' : StatusFlag) (b : Bool) :
    getFlag (setFlag st f b) f' = if f' = f then b else getFlag st f' := by
  cases b <;> cases f <;> cases f' <;>
    simp [getFlag, setFlag, StatusFlag.mask, StatusFlag.bit]

/-- Writing a flag leaves the completion code alone. -/
@[simp] theorem statusCode_setFlag (st : Word) (f : StatusFlag) (b : Bool) :
    statusCode (setFlag st f b) = statusCode st := by
  apply BitVec.eq_of_getLsbD_eq
  intro i hi
  have : i = 0 ∨ i = 1 ∨ i = 2 ∨ i = 3 := by omega
  rcases this with rfl | rfl | rfl | rfl <;> cases b <;> cases f <;>
    simp [statusCode, setFlag, StatusFlag.mask, StatusFlag.bit]

/-- `STATUS` after the prologue. -/
theorem readyStatus_eq : readyStatus = 0x80000000 := by decide

@[simp] theorem statusCode_readyStatus : statusCode readyStatus = 0 := by decide

@[simp] theorem getFlag_readyStatus (f : StatusFlag) : getFlag readyStatus f = decide (f = .ready) := by
  cases f <;> decide

/-- `STATUS` after `raise`: `READY`, the code, and nothing else. -/
theorem setCode_readyStatus (c : ErrorCode) : setCode readyStatus c = 0x80000000 + c.number := by
  cases c <;> decide

@[simp] theorem statusCode_raise (c : ErrorCode) : (statusCode (setCode readyStatus c)).toNat = c.number.toNat := by
  cases c <;> decide

/-- The warnings of `dl_entry` on the status after the prologue. -/
theorem dlogWarnings_readyStatus (g y p : Int) :
    dlogWarnings g y p readyStatus
      = dlogStatus false false (!isPrime p.toNat) (decide (1 < gcdOf g p)) (decide (1 < gcdOf y p)) false := by
  simp only [dlogWarnings]
  cases isPrime p.toNat <;> cases decide (1 < gcdOf g p) <;> cases decide (1 < gcdOf y p) <;> decide

/-- `ABSENT` over the warnings. -/
theorem setFlag_absent_dlogStatus (n b t : Bool) :
    setFlag (dlogStatus false false n b t false) .absent true = dlogStatus true false n b t false := by
  cases n <;> cases b <;> cases t <;> decide

/-- `TRUNCATED` over `ABSENT`. -/
theorem setFlag_truncated_dlogStatus (n b t : Bool) :
    setFlag (dlogStatus true false n b t false) .truncated true = dlogStatus true true n b t false := by
  cases n <;> cases b <;> cases t <;> decide

/-- `W_NO_INVERSE` over the warnings. -/
theorem setFlag_noInverse_dlogStatus (n b t : Bool) :
    setFlag (setFlag (dlogStatus false false n b t false) .wNoInverse true) .absent true
      = dlogStatus true false n b t true := by
  cases n <;> cases b <;> cases t <;> decide

/-- The clamp on the status after the prologue. -/
theorem clampFlag_readyStatus (count : Int) (cap : Nat) :
    clampFlag count cap readyStatus = if (cap : Int) < count then 0x80000400 else 0x80000000 := by
  unfold clampFlag
  split
  · decide
  · exact readyStatus_eq

end Sys2Proof.Machine
end

