-- ==== Sys2Proof/Laws/Ops.lean ====
section
/-! SUPPORT. For each shared operation of a command, one lemma that says everything it can do. -/

namespace Sys2Proof.Machine

open Sys2Proof

/-! ## The result state -/

/-- The result state after the prologue, written out. -/
theorem cleared_eq_noResults : ResultState.cleared = noResults := by decide

@[simp] theorem noResults_status : noResults.status = 0x80000000 := rfl
@[simp] theorem noResults_r : noResults.r = #v[0, 0, 0, 0] := rfl
@[simp] theorem noResults_obuf : noResults.obuf = [] := rfl
@[simp] theorem noResults_pbuf : noResults.pbuf = [] := rfl
@[simp] theorem noResults_map : noResults.map = [] := rfl
@[simp] theorem noResults_trace : noResults.trace = [] := rfl

/-- What one result register holds after a write. -/
theorem ResultState.setR_get (o : ResultState) (k j : Fin 4) (v : Int) :
    (o.setR k v).r[j] = if k = j then v else o.r[j] := by
  simp [ResultState.setR, Fin.ext_iff, Vector.getElem_set]

/-! ## emit and the buffers -/

/-- `emit` (R46). -/
theorem ResultState.emit_eq (c : Params) (rec : Record) (o : ResultState) :
    o.emit c rec
      = if o.trace.length < c.traceCap then .ok { o with trace := o.trace ++ [rec] } else .error .resourceLimit := rfl

/-- A string written to `OBUF` fits it or raises (R276). -/
theorem ResultState.putObuf_cases (c : Params) (bs : List Byte) (o : ResultState) :
    (bs.length ≤ c.obufCap ∧ o.putObuf c bs = .ok { o with obuf := bs })
      ∨ (c.obufCap < bs.length ∧ o.putObuf c bs = .error .resourceLimit) := by
  unfold ResultState.putObuf
  split
  · exact .inl ⟨‹_›, rfl⟩
  · exact .inr ⟨by omega, rfl⟩

/-- A string written to `PBUF` fits it or raises (R276). -/
theorem ResultState.putPbuf_cases (c : Params) (bs : List Byte) (o : ResultState) :
    (bs.length ≤ c.pbufCap ∧ o.putPbuf c bs = .ok { o with pbuf := bs })
      ∨ (c.pbufCap < bs.length ∧ o.putPbuf c bs = .error .resourceLimit) := by
  unfold ResultState.putPbuf
  split
  · exact .inl ⟨‹_›, rfl⟩
  · exact .inr ⟨by omega, rfl⟩

/-- Several `emit`s: all of the records, in order, when there is room for all; else the overflow. -/
theorem ResultState.emitAll_eq (c : Params) (recs : List Record) (o : ResultState) (h : o.trace.length ≤ c.traceCap) :
    o.emitAll c recs
      = if o.trace.length + recs.length ≤ c.traceCap then .ok { o with trace := o.trace ++ recs }
        else .error .resourceLimit := by
  induction recs generalizing o with
  | nil => simp [ResultState.emitAll, h]
  | cons rec recs ih =>
    simp only [ResultState.emitAll, ResultState.emit_eq]
    by_cases hr : o.trace.length < c.traceCap
    · simp only [hr, if_true]
      rw [ih _ (by simpa using hr)]
      simp only [List.length_append, List.length_cons, List.length_nil, List.append_assoc, List.singleton_append]
      congr 2; omega
    · simp only [hr, if_false, List.length_cons]
      rw [if_neg (by omega)]

/-- Several `emit`s from the cleared result state. -/
theorem ResultState.emitAll_cleared (c : Params) (recs : List Record) :
    ResultState.cleared.emitAll c recs
      = if recs.length ≤ c.traceCap then .ok { ResultState.cleared with trace := recs } else .error .resourceLimit := by
  rw [ResultState.emitAll_eq _ _ _ (by simp)]
  simp

/-! ## Beginning and end of a command -/

/-- A command whose rule returns. -/
theorem runCommand_ok {rule : State → ResultState → Except ErrorCode ResultState} {s : State} {o : ResultState}
    (h : rule s.prologue ResultState.cleared = .ok o) : runCommand rule s = s.returns o := by
  simp only [runCommand, h]; rfl

/-- A command whose rule raises. -/
theorem runCommand_error {rule : State → ResultState → Except ErrorCode ResultState} {s : State} {c : ErrorCode}
    (h : rule s.prologue ResultState.cleared = .error c) : runCommand rule s = s.raises c.number.toNat := by
  simp only [runCommand, h, State.raises, State.returns]
  cases c <;> rfl

/-- Every command ends, in one of the two ways of R98. -/
theorem runCommand_cases (rule : State → ResultState → Except ErrorCode ResultState) (s : State) :
    (∃ o, rule s.prologue ResultState.cleared = .ok o ∧ runCommand rule s = s.returns o)
      ∨ ∃ c : ErrorCode, rule s.prologue ResultState.cleared = .error c
          ∧ runCommand rule s = s.raises c.number.toNat := by
  cases h : rule s.prologue ResultState.cleared with
  | ok o => exact .inl ⟨o, rfl, runCommand_ok h⟩
  | error c => exact .inr ⟨c, rfl, runCommand_error h⟩

/-- Two outcomes of the same state that only change the result state are the same when the result states are. -/
theorem State.returns_inj (s : State) (o o' : ResultState) : s.returns o = s.returns o' ↔ o = o' := by
  constructor
  · intro h
    have h' := congrArg (fun x : Host.Outcome State Fault Refusal => match x with
      | .next t => t.out
      | .fault _ => ResultState.reset
      | .refused _ => ResultState.reset) h
    exact h'
  · rintro rfl; rfl

/-- A next state that only changes the result state. -/
theorem State.returns_next (s t : State) (o : ResultState) : s.returns o = .next t ↔ t = { s with out := o } := by
  constructor
  · intro h; cases h; rfl
  · rintro rfl; rfl

/-- `dl_entry` (R166): the two checks, then the inputs and the three warnings. -/
theorem dlEntry_cases (s : State) (o : ResultState) :
    ((s.xVal 2 ≤ 0 ∨ s.xVal 3 < 0) ∧ dlEntry s o = .error .invalidInput)
      ∨ (0 < s.xVal 2 ∧ 0 ≤ s.xVal 3 ∧
          dlEntry s o = .ok (⟨s.xVal 0 % s.xVal 2, s.xVal 1 % s.xVal 2, s.xVal 2, s.xVal 3⟩,
            { o with status := dlogWarnings (s.xVal 0) (s.xVal 1) (s.xVal 2) o.status })) := by
  simp only [dlEntry]
  by_cases h1 : s.xVal 2 ≤ 0
  · exact .inl ⟨.inl h1, by rw [if_pos h1]⟩
  · by_cases h2 : s.xVal 3 < 0
    · exact .inl ⟨.inr h2, by rw [if_neg h1, if_pos h2]⟩
    · exact .inr ⟨by omega, by omega, by rw [if_neg h1, if_neg h2]⟩

/-- How a search run ends its command. -/
theorem SearchRun.commit_cases (run : SearchRun) (o : ResultState) :
    (∃ x, run.ending = .found x ∧ run.commit o = .ok ({ o with trace := o.trace ++ run.records }.setR 0 x))
      ∨ (run.ending = .exhausted
          ∧ run.commit o = .ok ({ o with trace := o.trace ++ run.records }.setFlag .absent true))
      ∨ (run.ending = .truncated
          ∧ run.commit o
            = .ok (({ o with trace := o.trace ++ run.records }.setFlag .absent true).setFlag .truncated true))
      ∨ (run.ending = .noInverse
          ∧ run.commit o
            = .ok (({ o with trace := o.trace ++ run.records }.setFlag .wNoInverse true).setFlag .absent true))
      ∨ (run.ending = .overflow ∧ run.commit o = .error .resourceLimit) := by
  obtain ⟨recs, ending⟩ := run
  cases ending <;> simp [SearchRun.commit]

end Sys2Proof.Machine
end

