-- ==== Sys2Proof/Laws/Command.lean ====
section
/-! SUPPORT. What a bus access and a step can do, said once: the provers cite these and unfold neither. -/

namespace Sys2Proof.Machine

open Sys2Proof

/-! ## The writes that are no command -/

/-- What a 4-byte write to a location other than `CMD` can do, when it takes effect. -/
theorem State.writeWord_cases {s t : State} {addr : Nat} {loc : WordLoc} {v : Word}
    (h : s.writeWord addr loc v = .ok t) :
    (loc = .ibufLen ∧ v.toNat ≤ s.cfg.ibufCap ∧ t = { s with ibufLen := v })
      ∨ (loc = .traceIdx ∧ t = { s with traceIdx := v })
      ∨ (loc = .mapIdx ∧ t = { s with mapIdx := v })
      ∨ (∃ k, loc = .sign (.x k) ∧ v.toNat ≤ 1
          ∧ t = { s with x := s.x.set k { s.x[k] with sign := v.setWidth 1 } })
      ∨ ∃ k, loc = .len (.x k) ∧ v.toNat ≤ s.cfg.opb ∧ t = { s with x := s.x.set k { s.x[k] with len := v } } := by
  unfold State.writeWord at h
  split at h
  · split at h
    · cases h; exact .inl ⟨rfl, ‹_›, rfl⟩
    · cases h
  · cases h; exact .inr (.inl ⟨rfl, rfl⟩)
  · cases h; exact .inr (.inr (.inl ⟨rfl, rfl⟩))
  · split at h
    · cases h; exact .inr (.inr (.inr (.inl ⟨_, rfl, ‹_›, rfl⟩)))
    · cases h
  · split at h
    · cases h; exact .inr (.inr (.inr (.inr ⟨_, rfl, ‹_›, rfl⟩)))
    · cases h
  · cases h

/-- What a 1-byte write can do, when it takes effect. -/
theorem State.writeByte_cases {s t : State} {addr : Nat} {loc : ByteLoc} {v : Byte}
    (h : s.writeByte addr loc v = .ok t) :
    (∃ k i, loc = .mag (.x k) i ∧ t = { s with mem := s.mem.write (xMagAddr k i) v })
      ∨ ∃ i, loc = .ibuf i ∧ t = { s with mem := s.mem.write (ibufAddr i) v } := by
  unfold State.writeByte at h
  split at h
  · cases h; exact .inl ⟨_, _, rfl, rfl⟩
  · cases h; exact .inr ⟨_, rfl, rfl⟩
  · cases h

/-! ## One bus access -/

/-- Zero extension keeps the number a byte is. -/
@[simp] theorem zext32_toNat (b : Byte) : (zext32 b).toNat = b.toNat := by
  have := b.isLt
  simp only [zext32, BitVec.toNat_setWidth]
  omega

/-- The low byte of a zero-extended byte is the byte. -/
@[simp] theorem zext32_setWidth (b : Byte) : (zext32 b).setWidth 8 = b := by
  apply BitVec.eq_of_toNat_eq
  have := b.isLt
  simp only [BitVec.toNat_setWidth, zext32_toNat]
  omega

/-- What a 4-byte read answers, when it takes effect (R62). -/
theorem State.read32_ok {s : State} {addr : Nat} {v : Word} (h : s.read32 addr = .ok v) :
    ∃ loc, wordLocAt addr = some loc ∧ v = s.readWord loc := by
  unfold State.read32 at h
  split at h
  · cases h; exact ⟨_, ‹_›, rfl⟩
  · cases h

/-- What a 1-byte read answers, when it takes effect (R62). -/
theorem State.read8_ok {s : State} {addr : Nat} {v : Word} (h : s.read8 addr = .ok v) :
    ∃ loc, byteLocAt s.cfg addr = some loc ∧ v = zext32 (s.readByte loc) := by
  unfold State.read8 at h
  split at h
  · cases h; exact ⟨_, ‹_›, rfl⟩
  · cases h

/-- A stopped access answers no next state. -/
@[simp] theorem BusStop.outcome_ne_next (e : BusStop) (t : State) : e.outcome ≠ .next t := by
  cases e <;> simp [BusStop.outcome]

/-- A command word that is legal runs its command. -/
theorem runWord_ok {w : Word} {i : Instr} (h : decode w = .ok i) (s : State) : runWord w s = exec i (s.withCmd w) := by
  simp [runWord, h]

/-- A command word that is illegal ends with `ILLEGAL_COMMAND`. -/
theorem runWord_error {w : Word} {e : DecodeError} (h : decode w = .error e) (s : State) :
    runWord w s = (s.withCmd w).raises 3 := by
  simp only [runWord, h, State.raises, State.returns]; rfl

/-- Every instruction is a call of `runCommand`. -/
theorem exec_eq_runCommand (i : Instr) :
    ∃ rule : State → ResultState → Except ErrorCode ResultState, ∀ s, exec i s = runCommand rule s := by
  cases i
  case init => exact ⟨initRule, fun _ => rfl⟩
  case modpow => exact ⟨modpowRule, fun _ => rfl⟩
  case gcd => exact ⟨gcdRule, fun _ => rfl⟩
  case lcm => exact ⟨lcmRule, fun _ => rfl⟩
  case egcd => exact ⟨egcdRule, fun _ => rfl⟩
  case modinv => exact ⟨modinvRule, fun _ => rfl⟩
  case b2i => exact ⟨b2iRule, fun _ => rfl⟩
  case i2b => exact ⟨i2bRule, fun _ => rfl⟩
  case derive carm hint => exact ⟨deriveRule carm hint, fun _ => rfl⟩
  case dhx => exact ⟨dhxRule, fun _ => rfl⟩
  case dlbf => exact ⟨dlbfRule, fun _ => rfl⟩
  case dlbsgs => exact ⟨dlbsgsRule, fun _ => rfl⟩
  case mapexp => exact ⟨mapexpRule, fun _ => rfl⟩
  case aesenc => exact ⟨aesencRule, fun _ => rfl⟩
  case sha256 => exact ⟨sha256Rule, fun _ => rfl⟩

/-- A bus access that takes its step: a read, a command, or a write that is no command. -/
theorem busAccess_cases {a : BusAccess} {s t : State} (h : busAccess a s = .next t) :
    (∃ addr loc, a = .read32 addr ∧ wordLocAt addr = some loc ∧ t = s.reply (.value (s.readWord loc)))
      ∨ (∃ addr loc, a = .read8 addr ∧ byteLocAt s.cfg addr = some loc ∧ t = s.reply (.value (zext32 (s.readByte loc))))
      ∨ (∃ addr v u, a = .write32 addr v ∧ wordLocAt addr = some .cmd ∧ runWord v s = .next u ∧ t = u.reply .done)
      ∨ (∃ addr loc v u, a = .write32 addr v ∧ wordLocAt addr = some loc ∧ loc ≠ .cmd
          ∧ s.writeWord addr loc v = .ok u ∧ t = u.reply .done)
      ∨ ∃ addr loc v u, a = .write8 addr v ∧ byteLocAt s.cfg addr = some loc
          ∧ s.writeByte addr loc v = .ok u ∧ t = u.reply .done := by
  cases a with
  | read32 addr =>
    simp only [busAccess, State.read32] at h
    cases hl : wordLocAt addr with
    | none => simp [hl] at h
    | some loc =>
      simp only [hl] at h
      cases h; exact .inl ⟨addr, loc, rfl, hl, rfl⟩
  | read8 addr =>
    simp only [busAccess, State.read8] at h
    cases hl : byteLocAt s.cfg addr with
    | none => simp [hl] at h
    | some loc =>
      simp only [hl] at h
      cases h; exact .inr (.inl ⟨addr, loc, rfl, hl, rfl⟩)
  | write32 addr v =>
    simp only [busAccess] at h
    cases hl : wordLocAt addr with
    | none => simp [hl] at h
    | some loc =>
      simp only [hl] at h
      by_cases hc : loc = .cmd
      · subst hc
        simp only [replyAfter] at h
        cases hr : runWord v s with
        | next u => simp only [hr] at h; cases h; exact .inr (.inr (.inl ⟨addr, v, u, rfl, hl, hr, rfl⟩))
        | fault e => simp [hr] at h
        | refused e => simp [hr] at h
      · have h' : writeOutcome (s.writeWord addr loc v) = .next t := by
          cases loc <;> first | exact absurd rfl hc | exact h
        cases hw : s.writeWord addr loc v with
        | ok u =>
          simp only [writeOutcome, hw] at h'
          cases h'; exact .inr (.inr (.inr (.inl ⟨addr, loc, v, u, rfl, hl, hc, hw, rfl⟩)))
        | error e => simp [writeOutcome, hw] at h'
  | write8 addr v =>
    simp only [busAccess] at h
    cases hl : byteLocAt s.cfg addr with
    | none => simp [hl] at h
    | some loc =>
      simp only [hl] at h
      cases hw : s.writeByte addr loc v with
      | ok u =>
        simp only [writeOutcome, hw] at h
        cases h; exact .inr (.inr (.inr (.inr ⟨addr, loc, v, u, rfl, hl, hw, rfl⟩)))
      | error e => simp [writeOutcome, hw] at h

/-! ## One step -/

/-- A step with nothing pending. -/
theorem step_nil {s : State} (h : s.pending = []) : step s = .next s := by simp [step, nextEvent, h]

/-- A step that performs a bus access. -/
theorem step_access {s : State} {a : BusAccess} {rest : List BusEvent} (h : s.pending = .access a :: rest) :
    step s = busAccess a (s.withPending rest) := by
  simp [step, nextEvent, h, busEvent]

/-- A step that performs a reset. -/
theorem step_reset {s : State} {rest : List BusEvent} (h : s.pending = .reset :: rest) :
    step s = .next (s.withPending rest).doReset := by
  simp [step, nextEvent, h, busEvent]

/-- What a step that answers a next state did. -/
theorem step_cases {s t : State} (h : step s = .next t) :
    (s.pending = [] ∧ t = s)
      ∨ (∃ rest, s.pending = .reset :: rest ∧ t = (s.withPending rest).doReset)
      ∨ ∃ a rest, s.pending = .access a :: rest ∧ busAccess a (s.withPending rest) = .next t := by
  cases hp : s.pending with
  | nil => rw [step_nil hp] at h; cases h; exact .inl ⟨rfl, rfl⟩
  | cons e rest =>
    cases e with
    | access a => rw [step_access hp] at h; exact .inr (.inr ⟨a, rest, rfl, h⟩)
    | reset => rw [step_reset hp] at h; cases h; exact .inr (.inl ⟨rest, rfl, rfl⟩)

end Sys2Proof.Machine
end

