-- ==== Sys2Proof/Laws/Decode.lean ====
section
/-! SUPPORT. The laws of the command word's fields: taking a word apart and putting it together. -/

namespace Sys2Proof

/-- Bit `i` of a word put together from fields (R90). -/
theorem CommandFields.word_getLsbD (f : CommandFields) (i : Nat) :
    f.word.getLsbD i
      = if i < 8 then f.op.getLsbD i else if i = 8 then f.carm else if i = 9 then f.hint
        else f.zero.getLsbD (i - 10) := by
  have h : f.word.getLsbD i
      = BitVec.getLsbD (w := 22 + 1 + 1 + 8)
          (((f.zero ++ BitVec.ofBool f.hint) ++ BitVec.ofBool f.carm) ++ f.op) i := rfl
  rw [h, BitVec.getLsbD_append, BitVec.getLsbD_append, BitVec.getLsbD_append]
  by_cases h1 : i < 8
  · simp [h1]
  · by_cases h2 : i = 8
    · subst h2; simp
    · by_cases h3 : i = 9
      · subst h3; simp
      · simp only [h1, h2, h3, show ¬ i - 8 < 1 by omega, show ¬ i - 8 - 1 < 1 by omega, if_false]
        congr 1

/-- The fields of a word put together from fields. -/
@[simp] theorem fieldsOf_word (f : CommandFields) : fieldsOf f.word = f := by
  obtain ⟨op, carm, hint, zero⟩ := f
  have h1 : (CommandFields.word ⟨op, carm, hint, zero⟩).extractLsb' 0 8 = op := by
    apply BitVec.eq_of_getLsbD_eq
    intro i hi
    rw [BitVec.getLsbD_extractLsb', CommandFields.word_getLsbD]
    simp [hi]
  have h4 : (CommandFields.word ⟨op, carm, hint, zero⟩).extractLsb' 10 22 = zero := by
    apply BitVec.eq_of_getLsbD_eq
    intro i hi
    rw [BitVec.getLsbD_extractLsb', CommandFields.word_getLsbD]
    simp [hi, show ¬ 10 + i < 8 by omega, show ¬ 10 + i = 8 by omega, show ¬ 10 + i = 9 by omega]
  have h2 : (CommandFields.word ⟨op, carm, hint, zero⟩).getLsbD 8 = carm := by
    rw [CommandFields.word_getLsbD]; simp
  have h3 : (CommandFields.word ⟨op, carm, hint, zero⟩).getLsbD 9 = hint := by
    rw [CommandFields.word_getLsbD]; simp
  simp only [fieldsOf, h1, h2, h3, h4]

/-- The word put together from a word's fields. -/
@[simp] theorem word_fieldsOf (w : Word) : (fieldsOf w).word = w := by
  apply BitVec.eq_of_getLsbD_eq
  intro i hi
  rw [CommandFields.word_getLsbD]
  simp only [fieldsOf, BitVec.getLsbD_extractLsb']
  by_cases h1 : i < 8
  · simp [h1]
  · by_cases h2 : i = 8
    · subst h2; simp
    · by_cases h3 : i = 9
      · subst h3; simp
      · rw [if_neg h1, if_neg h2, if_neg h3, show 10 + (i - 10) = i by omega]
        simp [show i - 10 < 22 by omega]

end Sys2Proof
end

