-- ==== Sys2Proof/Laws/Driver.lean ====
section
/-! SUPPORT. The laws of the host side: bus sequences one after another, and what loading an argument can do. -/

namespace Sys2Proof.Machine

open Sys2Proof

@[simp] theorem runAccesses_nil (s : State) : runAccesses [] s = .ok s := rfl

/-- A bus access that takes its step, and the sequence after it. -/
theorem runAccesses_cons {a : BusAccess} {s t : State} (h : busAccess a s = .next t) (rest : List BusAccess) :
    runAccesses (a :: rest) s = runAccesses rest t := by
  simp [runAccesses, h, outcomeState]

/-- A sequence that completes, and the sequence after it. -/
theorem runAccesses_append {xs ys : List BusAccess} {s t : State} (h : runAccesses xs s = .ok t) :
    runAccesses (xs ++ ys) s = runAccesses ys t := by
  induction xs generalizing s with
  | nil => cases h; rfl
  | cons a xs ih =>
    simp only [runAccesses, List.cons_append] at h ⊢
    cases hs : outcomeState (busAccess a s) with
    | ok u => simp only [hs] at h ⊢; exact ih h
    | error e => simp [hs] at h

/-- What loading one argument can do, when no bus access of it is refused: the bus sequence of its load, or the
failure with nothing changed (R78). -/
theorem driverLoad_cases {arg : DriverArg} {s t : State} {a : Option DriverAnswer}
    (h : driverLoad arg s = .ok (t, a)) :
    (∃ k cs v, arg = .int k cs ∧ driverArgument s.cfg cs = some v ∧ runAccesses (ldxAccesses k v) s = .ok t ∧ a = none)
      ∨ (∃ vs bs, arg = .bytes vs ∧ driverBytes vs = some bs ∧ runAccesses (ldbAccesses bs) s = .ok t ∧ a = none)
      ∨ (t = s ∧ a = some .invalidInput) := by
  cases arg with
  | int k cs =>
    simp only [driverLoad] at h
    cases hv : driverArgument s.cfg cs with
    | none => simp only [hv] at h; cases h; exact .inr (.inr ⟨rfl, rfl⟩)
    | some v =>
      simp only [hv] at h
      cases hr : runAccesses (ldxAccesses k v) s with
      | ok u => rw [hr] at h; cases h; exact .inl ⟨k, cs, v, rfl, hv, hr, rfl⟩
      | error e => rw [hr] at h; cases h
  | bytes vs =>
    simp only [driverLoad] at h
    cases hv : driverBytes vs with
    | none => simp only [hv] at h; cases h; exact .inr (.inr ⟨rfl, rfl⟩)
    | some bs =>
      simp only [hv] at h
      cases hr : runAccesses (ldbAccesses bs) s with
      | ok u => rw [hr] at h; cases h; exact .inr (.inl ⟨vs, bs, rfl, hv, hr, rfl⟩)
      | error e => rw [hr] at h; cases h

/-- What the driver answers to a query, when no bus access of it is refused: after a command that failed its code
with nothing changed, else what the query reads (R78 (d), (e)). -/
theorem driverResult_cases {q : DriverQuery} {s t : State} {a : DriverAnswer} (h : driverResult q s = .ok (t, a)) :
    (statusCode s.out.status ≠ 0 ∧ t = s ∧ a = .failure (statusCode s.out.status))
      ∨ (statusCode s.out.status = 0 ∧ driverRead q s = .ok (t, a)) := by
  have hst : s.read32 WordLoc.status.addr = .ok s.out.status := rfl
  have hd : driverResult q s
      = if statusCode s.out.status = 0 then driverRead q s
        else .ok (s, .failure (statusCode s.out.status)) := by
    simp [driverResult, hst, bind, Except.bind, pure, Except.pure]
  rw [hd] at h
  split at h
  · exact .inr ⟨‹_›, h⟩
  · cases h; exact .inl ⟨‹_›, rfl, rfl⟩

end Sys2Proof.Machine
end

