-- ==== Sys2Proof/Laws/PerInstr.lean ====
section
/-! SUPPORT. What holds of every instruction as syntax, said per instruction: its fields pass the checks of
`30_encoding.md` R94, and its command word has exactly those fields. -/

namespace Sys2Proof.Laws.Fields

open Sys2Proof

/-- The fields of the instruction are well-formed, and they are the fields of its command word. -/
def Statement (i : Instr) : Prop := i.fields.wf = true ∧ fieldsOf (encode i) = i.fields

theorem init : Statement .init := ⟨by decide, fieldsOf_word _⟩
theorem modpow : Statement .modpow := ⟨by decide, fieldsOf_word _⟩
theorem gcd : Statement .gcd := ⟨by decide, fieldsOf_word _⟩
theorem lcm : Statement .lcm := ⟨by decide, fieldsOf_word _⟩
theorem egcd : Statement .egcd := ⟨by decide, fieldsOf_word _⟩
theorem modinv : Statement .modinv := ⟨by decide, fieldsOf_word _⟩
theorem b2i : Statement .b2i := ⟨by decide, fieldsOf_word _⟩
theorem i2b : Statement .i2b := ⟨by decide, fieldsOf_word _⟩
theorem derive (carm hint : Bool) : Statement (.derive carm hint) :=
  ⟨by cases carm <;> cases hint <;> decide, fieldsOf_word _⟩
theorem dhx : Statement .dhx := ⟨by decide, fieldsOf_word _⟩
theorem dlbf : Statement .dlbf := ⟨by decide, fieldsOf_word _⟩
theorem dlbsgs : Statement .dlbsgs := ⟨by decide, fieldsOf_word _⟩
theorem mapexp : Statement .mapexp := ⟨by decide, fieldsOf_word _⟩
theorem aesenc : Statement .aesenc := ⟨by decide, fieldsOf_word _⟩
theorem sha256 : Statement .sha256 := ⟨by decide, fieldsOf_word _⟩

end Sys2Proof.Laws.Fields
end

