-- ==== Sys2Proof/Tests/Slice0.lean ====
section
/-! SUPPORT. The model's own tests: the checks of `WellFormed`, every command word written out from
`30_encoding.md` R90 and R92, one small example of the spec for each instruction, the bus, and for every statement
with hypotheses a concrete state that meets them. -/

namespace Sys2Proof.Tests

set_option Elab.async false

open Sys2Proof Sys2Proof.Machine

/-! ## WellFormed refuses (R90, R93, R94) -/

theorem test_wf_reserved_bit : (CommandFields.mk 0x10 false false 1).wf = false := by decide
theorem test_wf_reserved_top_bit : (CommandFields.mk 0x20 true true 0x200000).wf = false := by decide
theorem test_wf_carm_without_derive : (CommandFields.mk 0x10 true false 0).wf = false := by decide
theorem test_wf_hint_without_derive : (CommandFields.mk 0x01 false true 0).wf = false := by decide
theorem test_wf_opcode_zero : (CommandFields.mk 0x00 false false 0).wf = false := by decide
theorem test_wf_opcode_unknown : (CommandFields.mk 0x17 false false 0).wf = false := by decide
theorem test_wf_derive : (CommandFields.mk 0x20 true true 0).wf = true := by decide

/-! ## Decoding, word by word (R90, R92, R94) -/

theorem test_decode_init : decode 0b00000000000000000000000000000001 = .ok .init := by decide
theorem test_decode_modpow : decode 0b00000000000000000000000000010000 = .ok .modpow := by decide
theorem test_decode_gcd : decode 0b00000000000000000000000000010001 = .ok .gcd := by decide
theorem test_decode_lcm : decode 0b00000000000000000000000000010010 = .ok .lcm := by decide
theorem test_decode_egcd : decode 0b00000000000000000000000000010011 = .ok .egcd := by decide
theorem test_decode_modinv : decode 0b00000000000000000000000000010100 = .ok .modinv := by decide
theorem test_decode_b2i : decode 0b00000000000000000000000000010101 = .ok .b2i := by decide
theorem test_decode_i2b : decode 0b00000000000000000000000000010110 = .ok .i2b := by decide
theorem test_decode_derive_phi : decode 0b00000000000000000000000000100000 = .ok (.derive false false) := by decide
theorem test_decode_derive_lam : decode 0b00000000000000000000000100100000 = .ok (.derive true false) := by decide
theorem test_decode_derive_phi_h : decode 0b00000000000000000000001000100000 = .ok (.derive false true) := by decide
theorem test_decode_derive_lam_h : decode 0b00000000000000000000001100100000 = .ok (.derive true true) := by decide
theorem test_decode_dhx : decode 0b00000000000000000000000000110000 = .ok .dhx := by decide
theorem test_decode_dlbf : decode 0b00000000000000000000000001000000 = .ok .dlbf := by decide
theorem test_decode_dlbsgs : decode 0b00000000000000000000000001000001 = .ok .dlbsgs := by decide
theorem test_decode_mapexp : decode 0b00000000000000000000000001010000 = .ok .mapexp := by decide
theorem test_decode_aesenc : decode 0b00000000000000000000000001100000 = .ok .aesenc := by decide
theorem test_decode_sha256 : decode 0b00000000000000000000000001110000 = .ok .sha256 := by decide
theorem test_decode_zero : decode 0 = .error .unknownOpcode := by decide
theorem test_decode_modpow_carm : decode 0x00000110 = .error .modifierBits := by decide
theorem test_decode_bit_ten : decode 0x00000420 = .error .reservedBits := by decide

/-- Every command line of R99 assembles to the word R92 and R99 give it. -/
theorem test_assemble :
    ["INIT", "MODPOW", "GCD", "LCM", "EGCD", "MODINV", "B2I", "I2B", "DERIVE.PHI", "DERIVE.LAM", "DERIVE.PHI.H",
      "DERIVE.LAM.H", "DHX", "DLBF", "DLBSGS", "MAPEXP", "AESENC", "SHA256", "DERIVE"].map assemble
      = [some 0x01, some 0x10, some 0x11, some 0x12, some 0x13, some 0x14, some 0x15, some 0x16, some 0x20,
        some 0x120, some 0x220, some 0x320, some 0x30, some 0x40, some 0x41, some 0x50, some 0x60, some 0x70,
        none] := by
  decide

/-! ## Small states -/

/-- A small implementation: one byte an operand, 32 input bytes, the least trace, a map of four entries. -/
def smallParams : Params :=
  { opb := 1, ibufCap := 32, traceCap := 64, mapCap := 4, eDefault := 3, eAttempts := 2 }

/-- The listed locations of a byte string at an offset. -/
def cellsAt (base : Nat) (bs : List Byte) : Memory :=
  (bs.zipIdx.filter fun c => c.1 ≠ 0).map fun c => (base + c.2, c.1)

/-- The state with parameters `c`, operands `xs` in `X[0..3]` and input bytes `bs`. -/
def stateWith (c : Params) (xs : Vector Int 4) (bs : List Byte) : State :=
  { State.resetOf c with
    x := xs.map fun v => ⟨canonSign v, BitVec.ofNat 32 (canonMag v).length⟩
    mem := cellsAt (xMagAddr 0 0) (canonMag xs[0]) ++ cellsAt (xMagAddr 1 0) (canonMag xs[1])
      ++ cellsAt (xMagAddr 2 0) (canonMag xs[2]) ++ cellsAt (xMagAddr 3 0) (canonMag xs[3])
      ++ cellsAt (ibufAddr 0) bs
    ibufLen := BitVec.ofNat 32 bs.length }

/-- The same with the parameters of the test vectors. -/
def stateOf (a b c d : Int) (bs : List Byte) : State := stateWith Params.vectors #v[a, b, c, d] bs

/-- The result state of an outcome. -/
def resultOf (o : Host.Outcome State Fault Refusal) : Option ResultState :=
  match o with
  | .next t => some t.out
  | .fault _ => none
  | .refused _ => none

/-- The result registers and `STATUS` after a command. -/
def registersAfter (i : Instr) (s : State) : Option (Vector Int 4 × Word) :=
  (resultOf (exec i s)).map fun o => (o.r, o.status)

/-! ## The examples of the spec -/

/-- R261: `STATUS` after `INIT`. -/
theorem test_init : registersAfter .init (stateOf 1 2 3 4 []) = some (#v[0, 0, 0, 0], 0x80000000) := by decide

/-- R112, the example. -/
theorem test_modpow : registersAfter .modpow (stateOf 4 13 497 0 []) = some (#v[445, 0, 0, 0], 0x80000000) := by
  decide +kernel

/-- R112: modulus 0. -/
theorem test_modpow_invalid : registersAfter .modpow (stateOf 4 13 0 0 []) = some (#v[0, 0, 0, 0], 0x80000001) := by
  decide +kernel

/-- R116, the example, with a negative argument. -/
theorem test_gcd : registersAfter .gcd (stateOf (-48) 18 0 0 []) = some (#v[6, 0, 0, 0], 0x80000000) := by
  decide +kernel

/-- R118, the example. -/
theorem test_lcm : registersAfter .lcm (stateOf 60 52 0 0 []) = some (#v[780, 0, 0, 0], 0x80000000) := by
  decide +kernel

/-- R120, the example. -/
theorem test_egcd : registersAfter .egcd (stateOf 240 46 0 0 []) = some (#v[2, -9, 47, 0], 0x80000000) := by
  decide +kernel

/-- R120, the arguments swapped. -/
theorem test_egcd_swapped : registersAfter .egcd (stateOf 46 240 0 0 []) = some (#v[2, 47, -9, 0], 0x80000000) := by
  decide +kernel

/-- R124, the first example. -/
theorem test_modinv : registersAfter .modinv (stateOf 3 11 0 0 []) = some (#v[4, 0, 0, 0], 0x80000000) := by
  decide +kernel

/-- R124, the second example: absent. -/
theorem test_modinv_absent : registersAfter .modinv (stateOf 6 9 0 0 []) = some (#v[0, 0, 0, 0], 0x80000100) := by
  decide +kernel

/-- R128, the example. -/
theorem test_b2i : registersAfter .b2i (stateOf 0 0 0 0 [0x12, 0x34, 0x56])
    = some (#v[1193046, 0, 0, 0], 0x80000000) := by
  decide +kernel

/-- R130, the example. -/
theorem test_i2b : (resultOf (exec .i2b (stateOf 65536 0 0 0 []))).map (·.obuf) = some [0x01, 0x00, 0x00] := by
  decide +kernel

/-- R144, the example: p = 61, q = 53, hint 17. -/
theorem test_derive : registersAfter (.derive false true) (stateOf 61 53 17 0 [])
    = some (#v[3233, 17, 2753, 0], 0x80000000) := by
  decide +kernel

/-- R149 (b): p = 3, q = 5 exhausts the search. -/
theorem test_derive_exhausted : registersAfter (.derive true false) (stateOf 3 5 0 0 [])
    = some (#v[0, 0, 0, 0], 0x80000002) := by
  decide +kernel

/-- R156, the example. -/
theorem test_dhx : registersAfter .dhx (stateOf 23 5 6 15 []) = some (#v[8, 19, 2, 2], 0x80000000) := by
  decide +kernel

/-- R157: the third record of the example has the computed B as its base. -/
theorem test_dhx_record : (resultOf (exec .dhx (stateOf 23 5 6 15 []))).map (fun o => (o.trace.map (·.f)).getD 2 #v[0, 0, 0, 0])
    = some #v[19, 6, 23, 2] := by
  decide +kernel

/-- R167, the example. -/
theorem test_dlbf : registersAfter .dlbf (stateOf 3 13 17 100 []) = some (#v[4, 0, 0, 0], 0x80000000) := by
  decide +kernel

/-- R169: a budget of 0 gives null, truncated. -/
theorem test_dlbf_no_budget : registersAfter .dlbf (stateOf 3 13 17 0 []) = some (#v[0, 0, 0, 0], 0x80000300) := by
  decide +kernel

/-- R172, the example: the record of the hit. -/
theorem test_dlbsgs : (resultOf (exec .dlbsgs (stateOf 3 13 17 100 []))).map
    (fun o => (o.r[0], o.trace.length, (o.trace.map (·.f)).getD 5 #v[0, 0, 0, 0])) = some (4, 6, #v[0, 13, 4, 4]) := by
  decide +kernel

/-- R175, the example: base 2, target 2, modulus 4 has no inverse for the giant phase; 4 is not prime. -/
theorem test_dlbsgs_no_inverse : registersAfter .dlbsgs (stateOf 2 2 4 100 [])
    = some (#v[0, 0, 0, 0], 0x800F0100) := by
  decide +kernel

/-- R191, the example. -/
theorem test_mapexp : (resultOf (exec .mapexp (stateOf 3 11 11 0 []))).map (·.map)
    = some [0, 1, 8, 5, 9, 4, 7, 2, 6, 3, 10] := by
  decide +kernel

/-- R192: a count above the cap of four is clamped, and the entries are modulo the clamped count. -/
theorem test_mapexp_clamped : (resultOf (exec .mapexp (stateWith smallParams #v[3, 11, 5, 0] []))).map
    (fun o => (o.map, o.status)) = some ([0, 1, 0, 1], 0x80000400) := by
  decide +kernel

/-- The plaintext and key of R217. -/
def aesInput : List Byte :=
  [0x00, 0x11, 0x22, 0x33, 0x44, 0x55, 0x66, 0x77, 0x88, 0x99, 0xaa, 0xbb, 0xcc, 0xdd, 0xee, 0xff,
    0x00, 0x01, 0x02, 0x03, 0x04, 0x05, 0x06, 0x07, 0x08, 0x09, 0x0a, 0x0b, 0x0c, 0x0d, 0x0e, 0x0f]

/-- R217: the known answer. -/
theorem test_aesenc : (resultOf (exec .aesenc (stateOf 0 0 0 0 aesInput))).map (·.obuf)
    = some [0x69, 0xc4, 0xe0, 0xd8, 0x6a, 0x7b, 0x04, 0x30, 0xd8, 0xcd, 0xb7, 0x80, 0x70, 0xb4, 0xc5, 0x5a] := by
  decide +kernel

/-- R212: an input that is not 32 bytes. -/
theorem test_aesenc_invalid : registersAfter .aesenc (stateOf 0 0 0 0 [1, 2, 3])
    = some (#v[0, 0, 0, 0], 0x80000001) := by
  decide +kernel

/-- R240: the example, the hash of "abc". -/
theorem test_sha256 : (resultOf (exec .sha256 (stateOf 0 0 0 0 [0x61, 0x62, 0x63]))).map (fun o => o.obuf.take 8)
    = some [0xba, 0x78, 0x16, 0xbf, 0x8f, 0x01, 0xcf, 0xea] := by
  decide +kernel

/-- R206: the first example column. -/
theorem test_mixColumn : mixColumn 0xdb 0x13 0x53 0x45 = #v[0x8e, 0x4d, 0xa1, 0xbc] := by decide +kernel

/-- R202: two example products. -/
theorem test_gmul : gmul 0x57 0x13 = 0xfe ∧ gmul 0x57 0x83 = 0xc1 := by decide +kernel

/-! ## The bus -/

/-- The outcome of one bus access on the reset state: the answer, or which kind of stop. -/
def answer (a : BusAccess) : Option BusReply × Nat :=
  match busAccess a (State.resetOf Params.vectors) with
  | .next t => (t.replies.head?, 0)
  | .fault _ => (none, 1)
  | .refused _ => (none, 2)

/-- R69: reserved offset, wrong width, misaligned, read-only, value out of range. -/
theorem test_refused_accesses :
    [answer (.read32 0x24), answer (.read8 0x120000), answer (.read8 0), answer (.read32 0x090000),
      answer (.read32 0x02), answer (.write32 0x04 1), answer (.write8 0x0A0000 1), answer (.write32 0x010004 513),
      answer (.write32 0x010000 2), answer (.read8 0x010300)]
    = [(none, 1), (none, 1), (none, 2), (none, 2), (none, 2), (none, 2), (none, 2), (none, 2), (none, 2),
      (none, 1)] := by
  decide +kernel

/-- R62: accesses that take effect; R303: `MODPOW` straight after reset. -/
theorem test_taken_accesses :
    [answer (.read32 0x04), answer (.read8 0x0102FF), answer (.write32 0x010004 512), answer (.write8 0x0102FF 7),
      answer (.write32 0 0x10)]
    = [(some (.value 0), 0), (some (.value 0), 0), (some .done, 0), (some .done, 0), (some .done, 0)] := by
  decide +kernel

/-- R13, R62: a byte is read zero-extended: 0xff in `IBUF` reads as 0x000000ff. -/
theorem test_byte_read_zero_extended :
    ((stateOf 0 0 0 0 [0xff]).read8 0x090000).toOption = some 0x000000ff := by decide +kernel

/-- The answers of a driver call. -/
def driverAnswers (args : List DriverArg) (i : Instr) (qs : List DriverQuery) : List DriverAnswer :=
  match driverCall args i qs (State.resetOf Params.vectors) with
  | .ok (_, answers) => answers
  | .error _ => []

/-- R78 over R124's examples: an inverse, no inverse; a modulus of 0; a text that is no integer. -/
theorem test_driver_call :
    [driverAnswers [.int 0 ['3'], .int 1 ['1', '1']] .modinv [.register 0],
      driverAnswers [.int 0 ['6'], .int 1 ['9']] .modinv [.register 0],
      driverAnswers [.int 0 ['3'], .int 1 ['0']] .modinv [.register 0],
      driverAnswers [.int 0 ['+', '3'], .int 1 ['9']] .modinv [.register 0],
      driverAnswers [.bytes [1, 256]] .b2i [.register 0], driverAnswers [.bytes [1, 0]] .b2i [.register 0]]
    = [[.text ['4']], [.absent], [.failure 1], [.invalidInput], [.invalidInput], [.text ['2', '5', '6']]] := by
  decide +kernel

/-- R78 (d) over R191's second example (R194): the array of `MAPEXP` as decimal text. -/
theorem test_driver_mapping :
    driverAnswers [.int 0 ['3'], .int 1 ['1', '1'], .int 2 ['5']] .mapexp [.mapping]
      = [.texts [['0'], ['1'], ['3'], ['0'], ['4']]] := by
  decide +kernel

/-- R78 (d) over R156's example: the integer fields of the last record; R130: output bytes as integers. -/
theorem test_driver_step_and_output :
    driverAnswers [.int 0 ['2', '3'], .int 1 ['5'], .int 2 ['6'], .int 3 ['1', '5']] .dhx [.step 3, .register 3]
        = [.texts [['8'], ['1', '5'], ['2', '3'], ['2']], .text ['2']]
      ∧ driverAnswers [.int 0 ['2', '5', '6']] .i2b [.output, .padded] = [.bytes [1, 0], .bytes []] := by
  decide +kernel

/-- R77: operands loaded over the bus, `GCD` of R116's example run, `STATUS` and `R[0]` read back. -/
theorem test_host_program :
    (match runHost [.ldx 0 (-48), .ldx 1 18, .cmd 0x11, .rds, .rdr 0] (State.resetOf Params.vectors) with
      | .ok (_, vs) => vs
      | .error _ => []) = [.none, .none, .none, .word 0x80000000, .int 6] := by
  decide +kernel

/-- The first step from reset runs the word placed for it: `INIT` sets `READY` (R260, R261). -/
theorem test_first_step : resultOf (step (State.reset.withFetchWord 32 0x01)) = some noResults := by decide +kernel

/-- `DERIVE` as the first command reads p = q = 0 and ends with `INVALID_INPUT` (R144, R303). -/
theorem test_first_step_derive :
    (resultOf (step (State.reset.withFetchWord 32 0x20))).map (·.status) = some 0x80000001 := by
  decide +kernel

/-! ## Witnesses: for every statement with hypotheses, a state that meets them -/

/-- A reset pending, and nothing pending. -/
theorem witness_ResetEventAndIdle :
    (State.reset.withPending [.reset]).pending = .reset :: [] ∧ State.reset.pending = [] := by decide

/-- The write of `MODPOW`, and the encoding of a command. -/
theorem witness_StepRunsCommand :
    decode 0x10 = .ok .modpow
      ∧ (State.reset.withPending [.access (.write32 0x000000 0x10)]).pending = .access (.write32 0x000000 0x10) :: []
      ∧ decode (encode (.derive true true)) = .ok (.derive true true) := by
  decide

/-- The word 0. -/
theorem witness_IllegalWordEnds :
    (0 : Word) ∉ ([0x01, 0x10, 0x11, 0x12, 0x13, 0x14, 0x15, 0x16, 0x30, 0x40, 0x41, 0x50, 0x60, 0x70, 0x020, 0x120,
      0x220, 0x320] : List Word)
      ∧ (State.reset.withPending [.access (.write32 0x000000 0)]).pending = .access (.write32 0x000000 0) :: [] := by
  decide

/-- Legal parameters, and the last input byte. -/
theorem witness_LocationMap :
    Params.vectors.ok = true ∧ (ByteLoc.ibuf 4095).inRange Params.vectors = true
      ∧ (ByteLoc.mag (.r 3) 1023).inRange Params.vectors = true := by
  decide

/-- An access with legal parameters, at an offset in use and at one that is not. -/
theorem witness_AccessTakesStep :
    ((State.resetOf Params.vectors).withPending [.access (.read32 0x04)]).cfg.ok = true
      ∧ ((State.resetOf Params.vectors).withPending [.access (.read32 0x04)]).pending = .access (.read32 0x04) :: []
      ∧ ((State.resetOf Params.vectors).withPending [.access (.read32 0x24)]).pending = .access (.read32 0x24) :: [] := by
  decide

/-- A word read and a byte read at the end of an array. -/
theorem witness_ReadAnswers :
    ((State.resetOf Params.vectors).withPending [.access (.read32 WordLoc.mapIdx.addr)]).cfg.ok = true
      ∧ ((State.resetOf Params.vectors).withPending [.access (.read32 WordLoc.mapIdx.addr)]).pending
        = .access (.read32 WordLoc.mapIdx.addr) :: []
      ∧ (ByteLoc.pbuf 4159).inRange Params.vectors = true
      ∧ ((State.resetOf Params.vectors).withPending [.access (.read8 (ByteLoc.pbuf 4159).addr)]).pending
        = .access (.read8 (ByteLoc.pbuf 4159).addr) :: [] := by
  decide +kernel

/-- A byte write to the last magnitude byte of `X[3]`. -/
theorem witness_ByteWriteEffect :
    ((State.resetOf Params.vectors).withPending [.access (.write8 (ByteLoc.mag (.x 3) 511).addr 9)]).cfg.ok = true
      ∧ ((State.resetOf Params.vectors).withPending [.access (.write8 (ByteLoc.mag (.x 3) 511).addr 9)]).mem.wf
      ∧ (ByteLoc.mag (.x 3) 511).inRange Params.vectors = true ∧ (ByteLoc.mag (.x 3) 511).hostWritten = true
      ∧ ((State.resetOf Params.vectors).withPending [.access (.write8 (ByteLoc.mag (.x 3) 511).addr 9)]).pending
        = .access (.write8 (ByteLoc.mag (.x 3) 511).addr 9) :: [] := by
  decide

/-- A write of the greatest `LEN`, of the greatest `SIGN` and of the greatest `IBUF_LEN`. -/
theorem witness_WordWriteEffect :
    WordLoc.len (.x 2) ≠ .cmd ∧ (WordLoc.len (.x 2)).takes Params.vectors 512 = true
      ∧ WordLoc.sign (.x 2) ≠ .cmd ∧ (WordLoc.sign (.x 2)).takes Params.vectors 1 = true
      ∧ WordLoc.ibufLen ≠ .cmd ∧ WordLoc.ibufLen.takes Params.vectors 4096 = true
      ∧ ((State.resetOf Params.vectors).withPending [.access (.write32 (WordLoc.len (.x 2)).addr 512)]).pending
        = .access (.write32 (WordLoc.len (.x 2)).addr 512) :: [] := by
  decide

/-- A state of the small implementation, the greatest magnitude and the longest byte string it loads. -/
theorem witness_LoadsOperands :
    (stateWith smallParams #v[255, -255, 0, 1] [7, 0, 9]).Inv
      ∧ (-255 : Int).natAbs < 256 ^ (stateWith smallParams #v[255, -255, 0, 1] [7, 0, 9]).cfg.opb
      ∧ (List.replicate 32 (0xff : Byte)).length ≤ (stateWith smallParams #v[255, -255, 0, 1] [7, 0, 9]).cfg.ibufCap := by
  decide +kernel

/-- The same state after a command with results in a register, the map empty and no record. -/
theorem witness_ReadsBackResults :
    { stateWith smallParams #v[255, -255, 0, 1] [7, 0, 9] with
      out := { noResults with r := #v[65535, -65535, 0, 1], obuf := [0xff] } }.Inv
      ∧ { stateWith smallParams #v[255, -255, 0, 1] [7, 0, 9] with
        out := { noResults with r := #v[65535, -65535, 0, 1], obuf := [0xff] } }.resultsFit := by
  decide +kernel

/-- A value with a string of it that is not the shortest, a string without a leading zero, four bytes. -/
theorem witness_ByteCodec :
    beVal [0, 1, 0] = 256 ∧ ([1, 0] : List Byte).head? ≠ some 0 ∧ 1 + 4 ≤ ([0, 1, 2, 3, 4] : List Byte).length := by
  decide

/-- Modulus 1 with exponent 0, a modulus above 1, and an iteration before the end. -/
theorem witness_ModPowDatapath : (1 : Int) ≤ 1 ∧ (0 : Int) ≤ 0 ∧ (1 : Int) < 2 ∧ 0 < (1 : Int).toNat.size := by
  decide

/-- Legal operands at the bounds, and both checks failing. -/
theorem witness_ModpowResult :
    0 < (stateOf 4 0 1 0 []).xVal 2 ∧ 0 ≤ (stateOf 4 0 1 0 []).xVal 1
      ∧ (stateOf 4 0 0 0 []).xVal 2 ≤ 0 ∧ (stateOf 4 (-1) 1 0 []).xVal 1 < 0 := by
  decide +kernel

/-- The recursion with enough fuel meets the two equations. -/
theorem witness_EgcdMatchesRecursion :
    (∀ a, egcdRec (0 : Int).natAbs a 0 = ⟨a, 1, 0⟩)
      ∧ ∀ a b : Int, b ≠ 0 → egcdRec b.natAbs a b
        = ⟨(egcdRec (a.tmod b).natAbs b (a.tmod b)).g, (egcdRec (a.tmod b).natAbs b (a.tmod b)).y,
            (egcdRec (a.tmod b).natAbs b (a.tmod b)).x
              - a.tdiv b * (egcdRec (a.tmod b).natAbs b (a.tmod b)).y⟩ :=
  ⟨egcdRec_zero, egcdRec_step⟩

/-- Operands for the general law and for each corner case. -/
theorem witness_EgcdResult :
    (stateOf 240 46 0 0 []).xVal 0 = 240 ∧ (stateOf 240 46 0 0 []).xVal 1 = 46
      ∧ (stateOf (-5) 0 0 0 []).xVal 0 = -5 ∧ (stateOf (-5) 0 0 0 []).xVal 1 = 0
      ∧ (stateOf 0 (-5) 0 0 []).xVal 0 = 0 ∧ (stateOf 0 (-5) 0 0 []).xVal 1 = -5
      ∧ (stateOf (-5) (-5) 0 0 []).xVal 0 = -5 ∧ (stateOf (-5) (-5) 0 0 []).xVal 1 = -5 := by
  decide +kernel

/-- Modulus 0, modulus 1, and a pair that is not coprime. -/
theorem witness_ModinvResult :
    (stateOf 6 0 0 0 []).xVal 1 ≤ 0 ∧ (0 < (stateOf 6 1 0 0 []).xVal 1 ∧ (6 : Int).gcd 1 = 1)
      ∧ (0 < (stateOf 6 9 0 0 []).xVal 1 ∧ (6 : Int).gcd 9 ≠ 1) := by
  decide +kernel

/-- The greatest value that fits two bytes, and the least that does not. -/
theorem witness_B2iResult :
    (65535 = Nat.ofDigits 256 ((stateWith smallParams #v[0, 0, 0, 0] [0xff, 0xff]).ibuf.reverse.map BitVec.toNat)
        ∧ 65535 < 256 ^ smallParams.resb)
      ∧ 65536 = Nat.ofDigits 256 ((stateWith smallParams #v[0, 0, 0, 0] [1, 0, 0]).ibuf.reverse.map BitVec.toNat)
        ∧ 256 ^ smallParams.resb ≤ 65536 := by
  decide +kernel

/-- Legal lengths, with −1 and with 0. -/
theorem witness_I2bResult :
    (stateWith smallParams #v[-1, 0, 0, 0] []).lensOk ∧ (stateWith smallParams #v[-1, 0, 0, 0] []).xVal 0 < 0
      ∧ (stateWith smallParams #v[0, 0, 0, 0] []).lensOk ∧ 0 ≤ (stateWith smallParams #v[0, 0, 0, 0] []).xVal 0 := by
  decide +kernel

/-- The greatest operand of the small implementation. -/
theorem witness_I2bThenB2i :
    (stateWith smallParams #v[255, 0, 0, 0] []).Inv ∧ 0 ≤ (stateWith smallParams #v[255, 0, 0, 0] []).xVal 0
      ∧ ((stateWith smallParams #v[255, 0, 0, 0] []).xVal 0).natAbs < 256 ^ smallParams.ibufCap := by
  decide +kernel

/-- p = q; p = 5, q = 11, T = 40, where the hint 19 (its own inverse) is passed over for 21, also its own inverse, and
23 with d = 7 is taken; and p = 3, q = 5, T = 8, where every candidate below T is its own inverse. -/
theorem witness_DeriveResult :
    ((stateOf 5 5 0 0 []).xVal 0 = 5 ∧ (stateOf 5 5 0 0 []).xVal 1 = 5)
      ∧ ((stateOf 5 11 19 0 []).xVal 0 = 5 ∧ (stateOf 5 11 19 0 []).xVal 1 = 11 ∧ (40 : Int) = derivedModulus false 5 11
        ∧ derivedStart true (stateOf 5 11 19 0 []) = 19 ∧ 2 < (stateOf 5 11 19 0 []).cfg.eAttempts
        ∧ derivedCandidate 40 19 0 = 19 ∧ derivedCandidate 40 19 1 = 21 ∧ derivedCandidate 40 19 2 = 23
        ∧ (23 : Int) < 40 ∧ (23 : Int).gcd 40 = 1 ∧ (0 : Int) ≤ 7 ∧ (7 : Int) < 40 ∧ (23 * 7 : Int) % 40 = 1
        ∧ (7 : Int) ≠ 23 ∧ ∀ j < 2, (derivedCandidate 40 19 j).gcd 40 = 1 →
          derivedCandidate 40 19 j * derivedCandidate 40 19 j % 40 = 1)
      ∧ ((stateWith smallParams #v[3, 5, 0, 0] []).xVal 0 = 3 ∧ (stateWith smallParams #v[3, 5, 0, 0] []).xVal 1 = 5
        ∧ (8 : Int) = derivedModulus false 3 5
        ∧ ∀ j < (stateWith smallParams #v[3, 5, 0, 0] []).cfg.eAttempts, derivedCandidate 8 3 j < 8 →
          (derivedCandidate 8 3 j).gcd 8 = 1 → derivedCandidate 8 3 j * derivedCandidate 8 3 j % 8 = 1) := by
  decide +kernel

/-- The example of R144 ends with code `OK`, its T is 3120, and a message below n. -/
theorem witness_DerivePostcondition :
    (resultOf (exec (.derive false true) (stateOf 61 53 17 0 []))).map (fun o => statusCode o.status) = some 0
      ∧ (3120 : Int) = derivedModulus false ((stateOf 61 53 17 0 []).xVal 0) ((stateOf 61 53 17 0 []).xVal 1) := by
  decide +kernel

/-- The same with primes, and the greatest message. -/
theorem witness_RsaRoundTrip :
    (Nat.Prime 61 ∧ Nat.Prime 53)
      ∧ (stateOf 61 53 17 0 []).xVal 0 = (61 : Nat) ∧ (stateOf 61 53 17 0 []).xVal 1 = (53 : Nat)
      ∧ registersAfter (.derive false true) (stateOf 61 53 17 0 []) = some (#v[3233, 17, 2753, 0], 0x80000000)
      ∧ (0 : Int) ≤ 3232 ∧ (3232 : Int) < 3233 :=
  ⟨by norm_num, by decide +kernel⟩

/-- The least legal operands, and each check failing. -/
theorem witness_DhxResult :
    (stateOf 1 0 0 0 []).cfg.ok = true
      ∧ (0 < (stateOf 1 0 0 0 []).xVal 0 ∧ 0 ≤ (stateOf 1 0 0 0 []).xVal 2 ∧ 0 ≤ (stateOf 1 0 0 0 []).xVal 3)
      ∧ (stateOf 0 0 0 0 []).xVal 0 ≤ 0 ∧ (stateOf 1 0 (-1) 0 []).xVal 2 < 0 ∧ (stateOf 1 0 0 (-1) []).xVal 3 < 0 := by
  decide +kernel

/-- The example of R156. -/
theorem witness_DhxSharedAgree :
    (stateOf 23 5 6 15 []).cfg.ok = true ∧ 0 < (stateOf 23 5 6 15 []).xVal 0 ∧ 0 ≤ (stateOf 23 5 6 15 []).xVal 2
      ∧ 0 ≤ (stateOf 23 5 6 15 []).xVal 3 := by
  decide +kernel

/-- 1^x is never 2 modulo 3. -/
theorem no_solution (x : Nat) : ¬ solves 1 2 3 x := by simp [solves]

/-- 5 is the ceiling of the square root of 17. -/
theorem ceilSqrt_17 : isCeilSqrt 17 5 := by
  refine ⟨by norm_num, fun j h => ?_⟩
  by_contra hj
  have h4 : (j : Int) ≤ 4 := by omega
  nlinarith

/-- 2 is the ceiling of the square root of 3, and of 4. -/
theorem ceilSqrt_3 (p : Int) (h3 : 3 ≤ p) (h4 : p ≤ 4) : isCeilSqrt p 2 := by
  refine ⟨by norm_num; omega, fun j h => ?_⟩
  by_contra hj
  have h1 : (j : Int) ≤ 1 := by omega
  nlinarith

/-- The hypotheses of each clause: a check failing; base 3, target 13, modulus 17 with the least budget that finds 4;
no solution of 1^x = 2 modulo 3 with budget 3 (covered), with budget 2 (truncated), and with no room at all. -/
theorem witness_DlbfResult :
    ((stateOf 3 13 0 100 []).xVal 2 ≤ 0 ∧ (stateOf 3 13 17 (-1) []).xVal 3 < 0)
      ∧ ((stateOf 3 13 17 5 []).xVal 2 = 17 ∧ (stateOf 3 13 17 5 []).xVal 3 = 5 ∧ leastSolution 3 13 17 4
        ∧ ((4 : Nat) : Int) < 5 ∧ 4 < (stateOf 3 13 17 5 []).cfg.traceCap)
      ∧ (∀ x, ¬ solves 1 2 3 x)
      ∧ (stateWith { Params.vectors with traceCap := 0 } #v[1, 2, 3, 3] []).cfg.traceCap < 3 :=
  ⟨by decide +kernel, ⟨by decide +kernel, by decide +kernel, by unfold leastSolution solves; decide, by decide,
    by decide +kernel⟩, no_solution, by decide +kernel⟩

/-- The examples of R167 and R172 end with code `OK` and a solution. -/
theorem witness_DlogSolutionCorrect :
    (resultOf (exec .dlbf (stateOf 3 13 17 100 []))).map (fun o => (statusCode o.status, getFlag o.status .absent))
        = some (0, false)
      ∧ (resultOf (exec .dlbsgs (stateOf 3 13 17 100 []))).map
          (fun o => (statusCode o.status, getFlag o.status .absent)) = some (0, false)
      ∧ 0 ≤ (stateOf 3 13 17 100 []).xVal 1 ∧ (stateOf 3 13 17 100 []).xVal 1 < (stateOf 3 13 17 100 []).xVal 2
      ∧ (stateOf 3 13 17 5 []).xVal 0 = 3 ∧ (stateOf 3 13 17 5 []).xVal 1 = 13 ∧ (stateOf 3 13 17 5 []).xVal 2 = 17
      ∧ 5 ≤ (stateOf 3 13 17 5 []).xVal 3 ∧ 5 ≤ (stateOf 3 13 17 5 []).cfg.traceCap := by
  decide +kernel

/-- 1^x = 2 modulo 3 ends with null, neither truncated nor without an inverse. -/
theorem witness_DlogNullMeansNone :
    (resultOf (exec .dlbf (stateOf 1 2 3 100 []))).map (·.status) = some 0x80000100
      ∧ (resultOf (exec .dlbsgs (stateOf 1 2 3 100 []))).map (·.status) = some 0x80000100
      ∧ statusCode 0x80000100 = 0 ∧ getFlag 0x80000100 .absent = true ∧ getFlag 0x80000100 .truncated = false
      ∧ getFlag 0x80000100 .wNoInverse = false := by
  decide +kernel

/-- The example of R172, with the least budget that finds 4: m = 5, inv = 7, six records. -/
theorem witness_DlbsgsFinds :
    ((stateOf 3 13 17 6 []).xVal 0 = 3 ∧ (stateOf 3 13 17 6 []).xVal 1 = 13 ∧ (stateOf 3 13 17 6 []).xVal 2 = 17
        ∧ (stateOf 3 13 17 6 []).xVal 3 = 6 ∧ (3 : Int).gcd 17 = 1 ∧ 5 + 4 / 5 + 1 ≤ (stateOf 3 13 17 6 []).cfg.traceCap)
      ∧ isCeilSqrt 17 5 ∧ isGiantFactor 3 17 5 7 ∧ leastSolution 3 13 17 4 ∧ ((5 : Nat) + (4 : Nat) / (5 : Nat) + 1 : Int) ≤ 6 :=
  ⟨by decide +kernel, ceilSqrt_17, by unfold isGiantFactor; decide, by unfold leastSolution solves; decide, by decide⟩

/-- A check failing; and 1^x = 2 modulo 3 with the least budget, 4. -/
theorem witness_DlbsgsNotFound :
    ((stateOf 1 2 0 4 []).xVal 2 ≤ 0 ∧ (stateOf 1 2 3 (-1) []).xVal 3 < 0)
      ∧ ((stateOf 1 2 3 4 []).xVal 2 = 3 ∧ (stateOf 1 2 3 4 []).xVal 3 = 4 ∧ (1 : Int).gcd 3 = 1)
      ∧ isCeilSqrt 3 2 ∧ isGiantFactor 1 3 2 1 ∧ (∀ x, ¬ solves 1 2 3 x) ∧ (2 * (2 : Nat) : Int) ≤ 4
      ∧ 2 * 2 ≤ (stateOf 1 2 3 4 []).cfg.traceCap :=
  ⟨by decide +kernel, by decide +kernel, ceilSqrt_3 3 (by norm_num) (by norm_num), by unfold isGiantFactor; decide,
    no_solution, by decide, by decide +kernel⟩

/-- The example of R175, with the least budget, 2. -/
theorem witness_DlbsgsNoInverse :
    ((stateOf 2 2 4 2 []).xVal 0 = 2 ∧ (stateOf 2 2 4 2 []).xVal 2 = 4 ∧ (stateOf 2 2 4 2 []).xVal 3 = 2
        ∧ 1 < (2 : Int).gcd 4 ∧ 2 ≤ (stateOf 2 2 4 2 []).cfg.traceCap) ∧ isCeilSqrt 4 2 :=
  ⟨by decide +kernel, ceilSqrt_3 4 (by norm_num) (by norm_num)⟩

/-- 1^x = 2 modulo 3 with budget 1 (ends in the baby phase) and with budgets 2 and 3 (in the giant phase). -/
theorem witness_DlbsgsTruncated :
    ((stateOf 1 2 3 1 []).xVal 3 = (1 : Nat) ∧ 1 ≤ (stateOf 1 2 3 1 []).cfg.traceCap ∧ 1 < 2)
      ∧ ((stateOf 1 2 3 2 []).xVal 3 = (2 : Nat) ∧ 2 ≤ 2 ∧ (stateOf 1 2 3 3 []).xVal 3 = (3 : Nat) ∧ 3 < 2 * 2
        ∧ (1 : Int).gcd 3 = 1)
      ∧ isCeilSqrt 3 2 ∧ isGiantFactor 1 3 2 1 ∧ (∀ x, solves 1 2 3 x → 3 - 2 ≤ x / 2) :=
  ⟨by decide +kernel, by decide +kernel, ceilSqrt_3 3 (by norm_num) (by norm_num), by unfold isGiantFactor; decide,
    fun x h => absurd h (no_solution x)⟩

/-- 1^x = 2 modulo 3 with budget 9 and room for one record, for two and for three. -/
theorem witness_DlbsgsOverflow :
    ((stateWith { Params.vectors with traceCap := 1 } #v[1, 2, 3, 9] []).cfg.traceCap < 2
        ∧ ((1 : Nat) : Int) < (stateWith { Params.vectors with traceCap := 1 } #v[1, 2, 3, 9] []).xVal 3)
      ∧ (2 ≤ (stateWith { Params.vectors with traceCap := 2 } #v[1, 2, 3, 9] []).cfg.traceCap
        ∧ (stateWith { Params.vectors with traceCap := 3 } #v[1, 2, 3, 9] []).cfg.traceCap < 2 * 2
        ∧ ((3 : Nat) : Int) < (stateWith { Params.vectors with traceCap := 3 } #v[1, 2, 3, 9] []).xVal 3)
      ∧ isCeilSqrt 3 2 ∧ (∀ x, solves 1 2 3 x → 3 - 2 ≤ x / 2) :=
  ⟨by decide +kernel, by decide +kernel, ceilSqrt_3 3 (by norm_num) (by norm_num),
    fun x h => absurd h (no_solution x)⟩

/-- Base 3, target 13, modulus 17 with the least budget. -/
theorem witness_SolversAgree :
    (0 < (stateOf 3 13 17 17 []).xVal 2 ∧ ((stateOf 3 13 17 17 []).xVal 0).gcd ((stateOf 3 13 17 17 []).xVal 2) = 1
        ∧ (stateOf 3 13 17 17 []).xVal 2 ≤ (stateOf 3 13 17 17 []).xVal 3
        ∧ (2 * (5 : Nat) : Int) ≤ (stateOf 3 13 17 17 []).xVal 3
        ∧ (stateOf 3 13 17 17 []).xVal 2 ≤ (stateOf 3 13 17 17 []).cfg.traceCap
        ∧ 2 * 5 ≤ (stateOf 3 13 17 17 []).cfg.traceCap)
      ∧ isCeilSqrt 17 5 ∧ leastSolution 3 13 17 4 :=
  ⟨by decide +kernel, ceilSqrt_17, by unfold leastSolution solves; decide⟩

/-- Modulus 1 and budget 0. -/
theorem witness_DlogWithinBudget : 0 < (stateOf 3 13 1 0 []).xVal 2 ∧ 0 ≤ (stateOf 3 13 1 0 []).xVal 3 := by
  decide +kernel

/-- Each check failing; a count at the cap, and one above it. -/
theorem witness_MapexpResult :
    ((stateWith smallParams #v[0, 0, 0, 0] []).xVal 1 ≤ 0 ∧ (stateWith smallParams #v[-1, 1, 0, 0] []).xVal 0 < 0
        ∧ (stateWith smallParams #v[0, 1, -1, 0] []).xVal 2 < 0)
      ∧ (0 < (stateWith smallParams #v[0, 1, 4, 0] []).xVal 1 ∧ 0 ≤ (stateWith smallParams #v[0, 1, 4, 0] []).xVal 0
        ∧ 0 ≤ (stateWith smallParams #v[0, 1, 4, 0] []).xVal 2
        ∧ (stateWith smallParams #v[0, 1, 4, 0] []).xVal 2 ≤ smallParams.mapCap)
      ∧ smallParams.mapCap < (stateWith smallParams #v[0, 1, 5, 0] []).xVal 2 := by
  decide +kernel

/-- The first and last words after the key. -/
theorem witness_AesKeySchedule : (4 ≤ 4 ∧ 4 < 44 ∧ 4 % 4 = 0) ∧ (4 ≤ 43 ∧ 43 < 44 ∧ 43 % 4 ≠ 0) ∧ (1 ≤ 9 ∧ 9 < 10) := by
  decide

/-- An input of another length, and the input of R217. -/
theorem witness_AesencResult :
    (stateOf 0 0 0 0 [1]).cfg.ok = true ∧ (stateOf 0 0 0 0 [1]).ibufLen ≠ 32
      ∧ (stateOf 0 0 0 0 aesInput).ibufLen = 32
      ∧ (stateOf 0 0 0 0 aesInput).ibuf = (blockAt aesInput 0).toList ++ (blockAt aesInput 16).toList := by
  decide +kernel

/-- The input of R217. -/
theorem witness_AesKnownAnswer :
    (stateOf 0 0 0 0 aesInput).cfg.ok = true
      ∧ (stateOf 0 0 0 0 aesInput).ibuf
        = [0x00, 0x11, 0x22, 0x33, 0x44, 0x55, 0x66, 0x77, 0x88, 0x99, 0xaa, 0xbb, 0xcc, 0xdd, 0xee, 0xff,
          0x00, 0x01, 0x02, 0x03, 0x04, 0x05, 0x06, 0x07, 0x08, 0x09, 0x0a, 0x0b, 0x0c, 0x0d, 0x0e, 0x0f] := by
  decide +kernel

/-- The empty message, and one at the length where the padding needs a second block. -/
theorem witness_ShaPadding : ([] : List Byte).length < 2 ^ 61 ∧ (List.replicate 56 (1 : Byte)).length < 2 ^ 61 := by
  decide

/-- A block of 64 bytes; the first computed word and the last; the last bit; the first and the last constant. -/
theorem witness_ShaSchedule :
    (List.replicate 64 (1 : Byte)).length = 64 ∧ (16 ≤ 16 ∧ 63 < 64) ∧ 31 < 32
      ∧ ((List.range 312).filter (fun p => decide p.Prime)).getD 63 0 = 311
      ∧ ([2, 3, 5, 7, 11, 13, 17, 19] : List Nat).getD 7 0 = 19 := by
  decide +kernel

/-- Legal lengths with the longest message of the small implementation. -/
theorem witness_Sha256Result :
    (stateWith smallParams #v[0, 0, 0, 0] (List.replicate 32 1)).cfg.ok = true
      ∧ (stateWith smallParams #v[0, 0, 0, 0] (List.replicate 32 1)).lensOk := by
  decide +kernel

/-- The empty message. -/
theorem witness_ShaKnownAnswer : (stateOf 0 0 0 0 []).cfg.ok = true ∧ (stateOf 0 0 0 0 []).ibufLen = 0 := by
  decide +kernel

/-- `MODPOW` does not read `X[3]`: two states that differ there and in the input buffer agree on its operands. -/
theorem witness_OperandsDecideResult : sameOperands .modpow (stateOf 4 13 497 1 []) (stateOf 4 13 497 2 [9]) := by
  decide +kernel

/-- Legal parameters and lengths. -/
theorem witness_CompletionCodes :
    (stateWith smallParams #v[255, -255, 0, 1] [7]).cfg.ok = true
      ∧ (stateWith smallParams #v[255, -255, 0, 1] [7]).lensOk := by
  decide +kernel

/-- A write to `CMD`, and a step other than reset from a state with `READY`. -/
theorem witness_ReadyIsSticky :
    (State.reset.withPending [.access (.write32 0x000000 0)]).pending = .access (.write32 0x000000 0) :: []
      ∧ (State.reset.withPending [.access (.write32 0x000000 0)]).pending.head? ≠ some .reset
      ∧ getFlag ({ State.reset with out := noResults }).out.status .ready = true := by
  decide

/-- A state with the invariant, other than reset, that a step changes: the write of `INIT` is pending. -/
theorem witness_StepKeepsInv :
    ((stateWith smallParams #v[255, -255, 0, 1] [7, 0, 9]).withFetchWord 32 0x01).Inv
      ∧ resultOf (step ((stateWith smallParams #v[255, -255, 0, 1] [7, 0, 9]).withFetchWord 32 0x01))
        = some noResults := by
  decide +kernel

/-- Legal parameters at their least values. -/
theorem witness_ResetInv : { smallParams with mapCap := 1, eAttempts := 1 }.ok = true := by decide

/-- The greatest operands of the small implementation, also with the write of `LCM` pending and its step done. -/
theorem witness_ResultsFitRegisters_step :
    ((stateWith smallParams #v[255, -254, 255, -255] []).withFetchWord 32 0x12).Inv
      ∧ ((stateWith smallParams #v[255, -254, 255, -255] []).withFetchWord 32 0x12).resultsFit
      ∧ (resultOf (step ((stateWith smallParams #v[255, -254, 255, -255] []).withFetchWord 32 0x12))).map (·.r)
        = some #v[64770, 0, 0, 0] := by
  decide +kernel

/-- The greatest operands of the small implementation. -/
theorem witness_ResultsFitRegisters :
    (stateWith smallParams #v[255, -255, 255, -255] []).cfg.ok = true
      ∧ (stateWith smallParams #v[255, -255, 255, -255] []).lensOk := by
  decide +kernel

/-- The least positive number; the greatest and the first too great integer of the small implementation, loaded and
refused; a byte array loaded and refused; a call with a second argument that is invalid, and one that runs. -/
theorem witness_DecimalText :
    (0 : Int) < 1
      ∧ (parseDecimal ['2', '5', '5'] = some 255 ∧ (255 : Int).natAbs < 256 ^ smallParams.opb
        ∧ (runAccesses (ldxAccesses 0 255) (State.resetOf smallParams)).toOption.isSome = true)
      ∧ (parseDecimal ['2', '5', '6'] = some 256 ∧ 256 ^ smallParams.opb ≤ (256 : Int).natAbs)
      ∧ (runAccesses (ldbAccesses [0, 255]) (State.resetOf smallParams)).toOption.isSome = true
      ∧ (∃ v ∈ ([0, 256] : List Int), v < 0 ∨ 255 < v)
      ∧ (driverLoadAll [.int 0 ['1'], .int 1 ['x']] (State.resetOf smallParams)).toOption.map Prod.snd
        = some (some .invalidInput)
      ∧ driverAnswers [.int 0 ['6'], .int 1 ['4']] .gcd [.register 0] = [.text ['2']] := by
  decide +kernel

/-- A state with the invariant whose integers fit, with code `OK` and with an error code. -/
theorem witness_DecimalText_results :
    (stateWith smallParams #v[255, -255, 0, 1] [7]).Inv ∧ (stateWith smallParams #v[255, -255, 0, 1] [7]).resultsFit
      ∧ statusCode (stateWith smallParams #v[255, -255, 0, 1] [7]).out.status = 0
      ∧ { stateWith smallParams #v[255, -255, 0, 1] [7] with out := { noResults with status := 0x80000001 } }.Inv
      ∧ { stateWith smallParams #v[255, -255, 0, 1] [7] with out := { noResults with status := 0x80000001 } }.resultsFit
      ∧ statusCode (0x80000001 : Word) ≠ 0 := by
  decide +kernel

end Sys2Proof.Tests
end

section
/-! The big-endian codec of `00_scope.md` R12 against the library's base-256 digits, and statement O14. -/

namespace Sys2Proof.Machine

open Sys2Proof

/-- `BE` of a concatenation: the first part moves up by the length of the second. -/
theorem beVal_append (as bs : List Byte) : beVal (as ++ bs) = beVal as * 256 ^ bs.length + beVal bs := by
  induction bs using List.reverseRecOn with
  | nil => simp
  | append_singleton bs b ih =>
    rw [← List.append_assoc, beVal_concat, beVal_concat, ih, List.length_append, List.length_singleton]
    ring

/-- `BE` with one more byte in front. -/
theorem beVal_cons (b : Byte) (bs : List Byte) : beVal (b :: bs) = b.toNat * 256 ^ bs.length + beVal bs := by
  have h := beVal_append [b] bs
  simpa [beVal] using h

/-- `BE` as the sum of R12. -/
theorem beVal_eq_sum (bs : List Byte) :
    beVal bs = ∑ i : Fin bs.length, bs[i].toNat * 256 ^ (bs.length - 1 - i.val) := by
  induction bs with
  | nil => simp
  | cons b bs ih =>
    have hterm (i : Fin bs.length) :
        bs[i].toNat * 256 ^ (bs.length - 1 - i.val)
          = (b :: bs)[i.val + 1].toNat * 256 ^ ((b :: bs).length - 1 - (i.val + 1)) := by
      rw [List.length_cons, show bs.length + 1 - 1 - (i.val + 1) = bs.length - 1 - i.val by omega]
      rfl
    rw [beVal_cons, ih]
    simp only [hterm]
    exact (Fin.sum_univ_succ (n := bs.length)
      fun i => (b :: bs)[i.val].toNat * 256 ^ ((b :: bs).length - 1 - i.val)).symm

/-- `BE` reads the bytes, last one first, as base-256 digits. -/
theorem beVal_eq_ofDigits (bs : List Byte) : beVal bs = Nat.ofDigits 256 (bs.reverse.map BitVec.toNat) := by
  induction bs using List.reverseRecOn with
  | nil => rfl
  | append_singleton bs b ih =>
    rw [beVal_concat, ih, List.reverse_append, List.reverse_singleton, List.singleton_append, List.map_cons,
      Nat.ofDigits_cons]
    ring

/-- With enough fuel the loop of `MINBYTES` puts the base-256 digits, last one first, in front of its accumulator. -/
theorem minBytesLoop_eq_digits (fuel v : Nat) (acc : List Byte) (h : v ≤ fuel) :
    minBytesLoop fuel v acc = ((Nat.digits 256 v).map (BitVec.ofNat 8)).reverse ++ acc := by
  induction fuel generalizing v acc with
  | zero =>
    obtain rfl : v = 0 := by omega
    simp [minBytesLoop]
  | succ fuel ih =>
    by_cases hv : v = 0
    · simp [minBytesLoop, hv]
    · have hlow : BitVec.ofNat 8 (v % 256) = BitVec.ofNat 8 v := by
        apply BitVec.eq_of_toNat_eq
        simp
      have hdigits : Nat.digits 256 v = v % 256 :: Nat.digits 256 (v / 256) := Nat.digits_def' (by omega) (by omega)
      rw [minBytesLoop, if_neg hv, ih _ _ (by omega), hdigits]
      simp [hlow]

/-- `MINBYTES` writes the base-256 digits, most significant first. -/
theorem minBytes_eq_digits (v : Nat) : minBytes v = ((Nat.digits 256 v).map (BitVec.ofNat 8)).reverse := by
  simp [minBytes, minBytesLoop_eq_digits v v [] le_rfl]

/-- The bytes of `MINBYTES`, as numbers, are the digits. -/
theorem minBytes_reverse_map_toNat (v : Nat) : (minBytes v).reverse.map BitVec.toNat = Nat.digits 256 v := by
  rw [minBytes_eq_digits, List.reverse_reverse, List.map_map]
  have hbyte : ∀ d ∈ Nat.digits 256 v, (BitVec.toNat ∘ BitVec.ofNat 8) d = id d := fun d hd => by
    simpa using Nat.digits_lt_base (by omega) hd
  rw [List.map_congr_left hbyte, List.map_id]

/-- `BE` undoes `MINBYTES` (R12). -/
@[simp] theorem beVal_minBytes (v : Nat) : beVal (minBytes v) = v := by
  rw [beVal_eq_ofDigits, minBytes_reverse_map_toNat, Nat.ofDigits_digits]

/-- `MINBYTES` has as many bytes as its value has digits. -/
@[simp] theorem length_minBytes (v : Nat) : (minBytes v).length = (Nat.digits 256 v).length := by
  simp [minBytes_eq_digits]

/-- `MINBYTES` fits in `n` bytes exactly when its value is below 256 to the `n`. -/
theorem length_minBytes_le_iff (v n : Nat) : (minBytes v).length ≤ n ↔ v < 256 ^ n := by
  rw [length_minBytes, Nat.digits_length_le_iff (by omega)]

/-- `MINBYTES` is empty for 0 only (R12). -/
theorem minBytes_eq_nil_iff (v : Nat) : minBytes v = [] ↔ v = 0 := by
  simp [minBytes_eq_digits, Nat.digits_eq_nil_iff_eq_zero]

/-- A string that does not begin with a zero byte is `MINBYTES` of its value (R12). -/
theorem minBytes_beVal {bs : List Byte} (h : bs.head? ≠ some 0) : minBytes (beVal bs) = bs := by
  have hdigits : Nat.digits 256 (beVal bs) = bs.reverse.map BitVec.toNat := by
    rw [beVal_eq_ofDigits]
    apply Nat.digits_ofDigits 256 (by omega)
    · intro d hd
      obtain ⟨b, -, rfl⟩ := List.mem_map.mp hd
      exact b.isLt
    · intro hne
      cases bs with
      | nil => simp at hne
      | cons b bs =>
        have hb : b ≠ 0 := by simpa using h
        simpa [← BitVec.toNat_inj] using hb
  rw [minBytes_eq_digits, hdigits]
  simp [Function.comp_def]

/-- `MINBYTES` does not begin with a zero byte (R12): without it the string would be shorter and have the same value. -/
theorem head?_minBytes_ne_zero (v : Nat) : (minBytes v).head? ≠ some 0 := by
  intro h
  obtain ⟨bs, hbs⟩ := List.head?_eq_some_iff.mp h
  have hval : v = beVal bs := by
    have hv := beVal_minBytes v
    rw [hbs, beVal_cons] at hv
    simpa using hv.symm
  have hle : (minBytes v).length ≤ bs.length := by
    rw [length_minBytes_le_iff, hval]
    exact beVal_lt bs
  rw [hbs, List.length_cons] at hle
  omega

/-- Appending a byte to a word moves it up by eight bits. -/
theorem toNat_append_byte {n : Nat} (x : BitVec n) (b : Byte) : (x ++ b).toNat = x.toNat * 256 + b.toNat := by
  rw [BitVec.toNat_append, ← Nat.shiftLeft_add_eq_or_of_lt b.isLt, Nat.shiftLeft_eq]

/-- `BE32` of four bytes is their `BE` (R12). -/
theorem be32At_toNat {bs : List Byte} {i : Nat} (h : i + 4 ≤ bs.length) :
    (be32At bs i).toNat = beVal ((bs.drop i).take 4) := by
  have hbytes : (bs.drop i).take 4 = [bs.getD i 0, bs.getD (i + 1) 0, bs.getD (i + 2) 0, bs.getD (i + 3) 0] := by
    have h0 : i < bs.length := by omega
    have h1 : i + 1 < bs.length := by omega
    have h2 : i + 2 < bs.length := by omega
    have h3 : i + 3 < bs.length := by omega
    rw [List.drop_eq_getElem_cons h0, List.drop_eq_getElem_cons h1, List.drop_eq_getElem_cons h2,
      List.drop_eq_getElem_cons h3]
    simp only [List.take_succ_cons, List.take_zero, List.getD_eq_getElem _ _ h0, List.getD_eq_getElem _ _ h1,
      List.getD_eq_getElem _ _ h2, List.getD_eq_getElem _ _ h3]
  rw [hbytes]
  simp only [be32At, toNat_append_byte, beVal, List.foldl_cons, List.foldl_nil]
  omega

/-- Settles O14: `BE` and `MINBYTES` are the base-256 digits of the library, read from the other end. -/
theorem byteCodec : Obligations.ByteCodec := by
  refine ⟨beVal_eq_sum, fun v => ⟨beVal_minBytes v, ?_, head?_minBytes_ne_zero v, fun bs hbs => ?_⟩,
    fun bs => minBytes_beVal, fun bs i => be32At_toNat⟩
  · rw [List.head?_eq_none_iff, minBytes_eq_nil_iff]
  · rw [length_minBytes_le_iff, ← hbs]
    exact beVal_lt bs

end Sys2Proof.Machine
end

section
/-! The integer functions of `00_scope.md` R11 and `43_discrete_log.md` R166 against the library's, and statement
O15. -/

namespace Sys2Proof.Machine

/-- `bitlen(n)` is the least k with n < 2^k (R11). -/
theorem bitlen_le_iff (n k : Nat) : bitlen n ≤ k ↔ n < 2 ^ k := by
  unfold bitlen
  split
  case isTrue h => simp [h]
  case isFalse h => rw [Nat.succ_le_iff, Nat.log2_lt h]

/-- A number is below 2 to its `bitlen`. -/
theorem lt_two_pow_bitlen (n : Nat) : n < 2 ^ bitlen n := (bitlen_le_iff n _).mp le_rfl

/-- The digit loop keeps r·r ≤ p < (r + 2^k)·(r + 2^k), which with no digit left says that r is the square root. -/
theorem isqrtLoop_eq_sqrt (p k r : Nat) (hlow : r * r ≤ p) (hhigh : p < (r + 2 ^ k) * (r + 2 ^ k)) :
    isqrtLoop p k r = p.sqrt := by
  induction k generalizing r with
  | zero => exact Nat.eq_sqrt.mpr ⟨hlow, hhigh⟩
  | succ k ih =>
    have hpow : 2 ^ (k + 1) = 2 ^ k + 2 ^ k := by rw [pow_succ]; omega
    unfold isqrtLoop
    split
    case isTrue h =>
      refine ih _ h ?_
      rwa [add_assoc, ← hpow]
    case isFalse h => exact ih _ hlow (by omega)

/-- The square root of the model is the library's. -/
theorem isqrt_eq_sqrt (p : Nat) : isqrt p = p.sqrt := by
  have hlt := lt_two_pow_bitlen p
  exact isqrtLoop_eq_sqrt p (bitlen p) 0 (by omega) (by nlinarith)

/-- `ceil_sqrt(p)` is the least m with m·m ≥ p (R11). -/
theorem ceilSqrt_le_iff (p m : Nat) : ceilSqrt p ≤ m ↔ p ≤ m * m := by
  unfold ceilSqrt
  rw [isqrt_eq_sqrt]
  split
  case isTrue h =>
    calc p.sqrt ≤ m ↔ p.sqrt * p.sqrt ≤ m * m := Nat.mul_self_le_mul_self_iff.symm
      _ ↔ p ≤ m * m := by rw [h]
  case isFalse h =>
    have hne : p ≠ m * m := by
      rintro rfl
      simp [Nat.sqrt_eq] at h
    rw [Nat.succ_le_iff, Nat.sqrt_lt]
    omega

/-- Trial division from `d` on finds no divisor up to the square root, when the trials reach it. -/
theorem primeLoop_iff (p n d : Nat) (h : p < (d + n) * (d + n)) :
    primeLoop p n d = true ↔ ∀ m, d ≤ m → m * m ≤ p → ¬ m ∣ p := by
  induction n generalizing d with
  | zero =>
    simp only [primeLoop, true_iff]
    intro m hm hmp
    have hsq := Nat.mul_le_mul hm hm
    rw [Nat.add_zero] at h
    omega
  | succ n ih =>
    unfold primeLoop
    split
    case isTrue hlt =>
      simp only [true_iff]
      intro m hm hmp
      have hsq := Nat.mul_le_mul hm hm
      omega
    case isFalse hle =>
      split
      case isTrue hdvd =>
        simp only [Bool.false_eq_true, false_iff]
        exact fun hall => hall d le_rfl (by omega) (Nat.dvd_of_mod_eq_zero hdvd)
      case isFalse hdvd =>
        rw [ih (d + 1) (by rwa [add_assoc, add_comm 1 n])]
        constructor
        · intro hall m hm hmp
          rcases Nat.eq_or_lt_of_le hm with rfl | hlt
          · exact fun hd => hdvd (Nat.mod_eq_zero_of_dvd hd)
          · exact hall m hlt hmp
        · exact fun hall m hm => hall m (by omega)

/-- Primality is decided exactly (R166). -/
theorem isPrime_eq_decide_prime (p : Nat) : isPrime p = decide p.Prime := by
  have hloop := primeLoop_iff p p 2 (by nlinarith)
  rw [Bool.eq_iff_iff, decide_eq_true_iff, Nat.prime_def_le_sqrt]
  simp only [isPrime, Bool.and_eq_true, decide_eq_true_iff, hloop, Nat.le_sqrt]

/-- Settles O15: each function meets the library's own, `Nat.log2`, `Nat.sqrt` and `Nat.Prime`. -/
theorem integerFunctions : Obligations.IntegerFunctions :=
  ⟨bitlen_le_iff, ceilSqrt_le_iff, isPrime_eq_decide_prime⟩

end Sys2Proof.Machine
end

section
/-! What a command reads (`30_encoding.md` R96): its rule looks at the state through the parameters, the operand
values and the input buffer only. Statement O54. -/

namespace Sys2Proof.Machine

open Sys2Proof

/-- The rule of each command (R96, R97). -/
def commandRule : Instr → State → ResultState → Except ErrorCode ResultState
  | .init => initRule
  | .modpow => modpowRule
  | .gcd => gcdRule
  | .lcm => lcmRule
  | .egcd => egcdRule
  | .modinv => modinvRule
  | .b2i => b2iRule
  | .i2b => i2bRule
  | .derive carm hint => deriveRule carm hint
  | .dhx => dhxRule
  | .dlbf => dlbfRule
  | .dlbsgs => dlbsgsRule
  | .mapexp => mapexpRule
  | .aesenc => aesencRule
  | .sha256 => sha256Rule

/-- Every command runs its rule. -/
theorem exec_eq_runCommand_commandRule (i : Instr) (s : State) : exec i s = runCommand (commandRule i) s := by
  cases i <;> rfl

/-- Two runs whose rules answer alike end with the same result state. -/
theorem runCommand_returns_same {rule : State → ResultState → Except ErrorCode ResultState} {s t : State}
    (h : rule s.prologue ResultState.cleared = rule t.prologue ResultState.cleared) :
    ∃ o, runCommand rule s = s.returns o ∧ runCommand rule t = t.returns o := by
  rcases runCommand_cases rule s with ⟨o, hrule, hrun⟩ | ⟨c, hrule, hrun⟩
  · exact ⟨o, hrun, runCommand_ok (h ▸ hrule)⟩
  · exact ⟨_, hrun, runCommand_error (h ▸ hrule)⟩

/-- The prologue touches no operand, so states that agree on them before it agree after it (R97). -/
theorem sameOperands_prologue {i : Instr} {s t : State} (h : sameOperands i s t) :
    sameOperands i s.prologue t.prologue := h

/-- `dl_entry` reads `X[0..3]` only (R166). -/
theorem dlEntry_congr {s t : State} (h : ∀ k, s.xVal k = t.xVal k) (o : ResultState) : dlEntry s o = dlEntry t o := by
  simp only [dlEntry, h]

/-- The start of the exponent search reads `X[2]` only with `HINT` (R144, R145). -/
theorem searchStart_congr {hint : Bool} {s t : State} (hcfg : s.cfg = t.cfg)
    (hx : hint = true → s.xVal 2 = t.xVal 2) : searchStart hint s = searchStart hint t := by
  cases hint with
  | false => simp only [searchStart, hcfg]; rfl
  | true => simp only [searchStart, hx rfl]; rfl

/-- The rule of a command answers alike in states that agree on what R96 says it reads. -/
theorem commandRule_congr {i : Instr} {s t : State} (h : sameOperands i s t) (o : ResultState) :
    commandRule i s o = commandRule i t o := by
  obtain ⟨hcfg, hx, hbuf⟩ := h
  cases i
  case init => rfl
  case modpow => simp only [commandRule, modpowRule, hx 0 rfl, hx 1 rfl, hx 2 rfl]
  case gcd => simp only [commandRule, gcdRule, hx 0 rfl, hx 1 rfl]
  case lcm => simp only [commandRule, lcmRule, hx 0 rfl, hx 1 rfl]
  case egcd => simp only [commandRule, egcdRule, hx 0 rfl, hx 1 rfl]
  case modinv => simp only [commandRule, modinvRule, hx 0 rfl, hx 1 rfl]
  case b2i => simp only [commandRule, b2iRule, hcfg, (hbuf rfl).2]
  case i2b => simp only [commandRule, i2bRule, hcfg, hx 0 rfl]
  case derive carm hint =>
    have hstart := searchStart_congr (hint := hint) hcfg fun hh => hx 2 (by rw [hh]; rfl)
    simp only [commandRule, deriveRule, hcfg, hx 0 rfl, hx 1 rfl, hstart]
  case dhx => simp only [commandRule, dhxRule, hcfg, hx 0 rfl, hx 1 rfl, hx 2 rfl, hx 3 rfl]
  case dlbf => simp only [commandRule, dlbfRule, hcfg, dlEntry_congr fun k => hx k rfl]
  case dlbsgs => simp only [commandRule, dlbsgsRule, hcfg, dlEntry_congr fun k => hx k rfl]
  case mapexp => simp only [commandRule, mapexpRule, hcfg, hx 0 rfl, hx 1 rfl, hx 2 rfl]
  case aesenc => simp only [commandRule, aesencRule, hcfg, (hbuf rfl).1, (hbuf rfl).2]
  case sha256 => simp only [commandRule, sha256Rule, hcfg, (hbuf rfl).2]

/-- Settles O54: the rule answers alike in both states, and the prologue and the end add nothing of the state. -/
theorem operandsDecideResult : Obligations.OperandsDecideResult := by
  intro i s t h
  rw [exec_eq_runCommand_commandRule, exec_eq_runCommand_commandRule]
  exact runCommand_returns_same (commandRule_congr (sameOperands_prologue h) _)

end Sys2Proof.Machine
end

section
/-! How large the results of the integer functions of `40_integer_kernel.md` and of the exponent search of
`41_rsa_deriver.md` can be, from the size of their arguments: what R31 rests on. -/

namespace Sys2Proof.Machine

/-- A remainder by a positive divisor is a residue. -/
theorem emod_mem {m : Int} (hm : 0 < m) (v : Int) : 0 ≤ v % m ∧ v % m < m :=
  ⟨Int.emod_nonneg _ hm.ne', Int.emod_lt_of_pos _ hm⟩

/-! ## modPow -/

/-- The accumulator of the exponentiation datapath stays a residue (R111). -/
theorem powLoop_acc_mem {m : Int} (hm : 0 < m) (n : Nat) (d : PowerPath) (hd : 0 ≤ d.acc ∧ d.acc < m) :
    0 ≤ (powLoop m n d).acc ∧ (powLoop m n d).acc < m := by
  induction n generalizing d with
  | zero => exact hd
  | succ n ih =>
    unfold powLoop
    split
    case isTrue => exact hd
    case isFalse =>
      refine ih _ ?_
      unfold PowerPath.iterate
      dsimp only
      split
      case isTrue => exact emod_mem hm _
      case isFalse => exact hd

/-- `modPow` answers a residue (R111). -/
theorem modPow_mem {m : Int} (hm : 0 < m) (b e : Int) : 0 ≤ modPow b e m ∧ modPow b e m < m := by
  unfold modPow
  split
  case isTrue => exact ⟨le_rfl, hm⟩
  case isFalse hne => exact powLoop_acc_mem hm _ _ (by simp only [powStart]; omega)

/-! ## gcd and lcm -/

/-- With enough iterations the Euclid loop answers the library's gcd (R114). -/
theorem gcdLoop_eq_gcd (n u v : Nat) (h : v ≤ n) : gcdLoop n u v = u.gcd v := by
  induction n generalizing u v with
  | zero =>
    obtain rfl : v = 0 := by omega
    simp [gcdLoop]
  | succ n ih =>
    unfold gcdLoop
    split
    case isTrue hv => simp [hv]
    case isFalse hv =>
      have hlt : u % v < v := Nat.mod_lt _ (by omega)
      rw [ih _ _ (by omega), Nat.gcd_comm v, ← Nat.gcd_rec, Nat.gcd_comm]

/-- `gcd` is the library's (R114). -/
theorem gcdOf_eq_gcd (a b : Int) : gcdOf a b = a.gcd b := by
  rw [gcdOf, gcdLoop_eq_gcd _ _ _ le_rfl]
  rfl

/-- A common bound of the magnitudes of two integers bounds their gcd. -/
theorem natAbs_gcdOf_lt {a b : Int} {n : Nat} (ha : a.natAbs < n) (hb : b.natAbs < n) : (gcdOf a b).natAbs < n := by
  rw [gcdOf_eq_gcd, Int.natAbs_natCast]
  rcases Nat.eq_zero_or_pos a.natAbs with h0 | hpos
  · rwa [Int.gcd, h0, Nat.gcd_zero_left]
  · exact (Nat.gcd_le_left _ hpos).trans_lt ha

/-- `lcm` is at most the product, in magnitude (R117). -/
theorem natAbs_lcmOf_le (a b : Int) : (lcmOf a b).natAbs ≤ (a * b).natAbs := by
  unfold lcmOf
  split
  case isTrue => simp
  case isFalse =>
    have hle : ((a * b).natAbs : Int) / gcdOf a b ≤ (a * b).natAbs := Int.ediv_le_self _ (by omega)
    have hnonneg : 0 ≤ ((a * b).natAbs : Int) / gcdOf a b :=
      Int.ediv_nonneg (by omega) (by rw [gcdOf_eq_gcd]; omega)
    omega

/-! ## egcd and modInv -/

/-- One iteration does not increase the sum of the two cross products of remainders and coefficients, in magnitude:
what bounds the coefficients of R119. -/
theorem cross_products_iterate_le (r0 r1 c0 c1 : Int) :
    c1.natAbs * (r0 - r0.tdiv r1 * r1).natAbs + (c0 - r0.tdiv r1 * c1).natAbs * r1.natAbs
      ≤ c0.natAbs * r1.natAbs + c1.natAbs * r0.natAbs := by
  have hrem : r0 - r0.tdiv r1 * r1 = r0.tmod r1 := by rw [Int.tmod_def, mul_comm]
  have hcoef : (c0 - r0.tdiv r1 * c1).natAbs ≤ c0.natAbs + r0.natAbs / r1.natAbs * c1.natAbs := by
    calc (c0 - r0.tdiv r1 * c1).natAbs
        ≤ c0.natAbs + (r0.tdiv r1 * c1).natAbs := Int.natAbs_sub_le _ _
      _ = c0.natAbs + r0.natAbs / r1.natAbs * c1.natAbs := by
        rw [Int.natAbs_mul, Int.natAbs_tdiv]
        rfl
  calc c1.natAbs * (r0 - r0.tdiv r1 * r1).natAbs + (c0 - r0.tdiv r1 * c1).natAbs * r1.natAbs
      ≤ c1.natAbs * (r0.natAbs % r1.natAbs)
          + (c0.natAbs + r0.natAbs / r1.natAbs * c1.natAbs) * r1.natAbs := by
        rw [hrem, Int.natAbs_tmod]
        gcongr
    _ = c0.natAbs * r1.natAbs + c1.natAbs * (r0.natAbs % r1.natAbs + r1.natAbs * (r0.natAbs / r1.natAbs)) := by ring
    _ = c0.natAbs * r1.natAbs + c1.natAbs * r0.natAbs := by rw [Nat.mod_add_div]

/-- Two successive coefficients `c0`, `c1` of the Euclid datapath beside remainders `r0`, `r1`: their magnitudes and
the sum of the cross products are below `n`. -/
structure CoefficientsBelow (n : Nat) (r0 r1 c0 c1 : Int) : Prop where
  fst_lt : c0.natAbs < n
  snd_lt : c1.natAbs < n
  cross_lt : c0.natAbs * r1.natAbs + c1.natAbs * r0.natAbs < n

/-- One iteration keeps the bound on the coefficients (R119). -/
theorem CoefficientsBelow.iterate {n : Nat} {r0 r1 c0 c1 : Int} (h : CoefficientsBelow n r0 r1 c0 c1) (hr1 : r1 ≠ 0) :
    CoefficientsBelow n r1 (r0 - r0.tdiv r1 * r1) c1 (c0 - r0.tdiv r1 * c1) := by
  have hcross := (cross_products_iterate_le r0 r1 c0 c1).trans_lt h.cross_lt
  have hle : (c0 - r0.tdiv r1 * c1).natAbs ≤ (c0 - r0.tdiv r1 * c1).natAbs * r1.natAbs :=
    Nat.le_mul_of_pos_right _ (by omega)
  exact ⟨h.snd_lt, by omega, hcross⟩

/-- Every register of the Euclid datapath is below `n` in magnitude, and the bound on the coefficients holds. -/
structure EuclidPath.Below (n : Nat) (d : EuclidPath) : Prop where
  r0_lt : d.r0.natAbs < n
  r1_lt : d.r1.natAbs < n
  s_below : CoefficientsBelow n d.r0 d.r1 d.s0 d.s1
  t_below : CoefficientsBelow n d.r0 d.r1 d.t0 d.t1

/-- One iteration keeps the bound on the datapath (R119). -/
theorem EuclidPath.Below.iterate {n : Nat} {d : EuclidPath} (h : d.Below n) (hr1 : d.r1 ≠ 0) : d.iterate.Below n where
  r0_lt := h.r1_lt
  r1_lt := by
    have hrem : d.r0 - d.r0.tdiv d.r1 * d.r1 = d.r0.tmod d.r1 := by rw [Int.tmod_def, mul_comm]
    have hlt : (d.r0 - d.r0.tdiv d.r1 * d.r1).natAbs < d.r1.natAbs := hrem ▸ natAbs_tmod_lt d.r0 d.r1 hr1
    exact hlt.trans h.r1_lt
  s_below := h.s_below.iterate hr1
  t_below := h.t_below.iterate hr1

/-- The Euclid loop keeps the bound on the datapath (R119). -/
theorem euclidLoop_below {n : Nat} (fuel : Nat) {d : EuclidPath} (h : d.Below n) : (euclidLoop fuel d).Below n := by
  induction fuel generalizing d with
  | zero => exact h
  | succ fuel ih =>
    unfold euclidLoop
    split
    case isTrue => exact h
    case isFalse hr1 => exact ih (h.iterate hr1)

/-- The gcd and the coefficients of `egcd` are below every common bound above 1 of the arguments (R119). -/
theorem natAbs_egcd_lt {a b : Int} {n : Nat} (ha : a.natAbs < n) (hb : b.natAbs < n) (hn : 1 < n) :
    (egcd a b).g.natAbs < n ∧ (egcd a b).x.natAbs < n ∧ (egcd a b).y.natAbs < n := by
  have hstart : EuclidPath.Below n ⟨a, b, 1, 0, 0, 1⟩ :=
    ⟨ha, hb, ⟨by simpa, by simp; omega, by simpa⟩, ⟨by simp; omega, by simpa, by simpa⟩⟩
  have hend := euclidLoop_below b.natAbs hstart
  unfold egcd Bezout.normalise
  dsimp only
  split
  · simpa only [Int.natAbs_neg] using ⟨hend.r0_lt, hend.s_below.fst_lt, hend.t_below.fst_lt⟩
  · exact ⟨hend.r0_lt, hend.s_below.fst_lt, hend.t_below.fst_lt⟩

/-- `modInv` answers a residue (R122). -/
theorem modInv_mem {a m v : Int} (hm : 0 < m) (h : modInv a m = some v) : 0 ≤ v ∧ v < m := by
  simp only [modInv, Option.ite_none_right_eq_some, Option.some.injEq] at h
  obtain ⟨-, rfl⟩ := h
  exact emod_mem hm _

/-! ## The exponent search of DERIVE -/

/-- The first candidate is at least 2 (R145). -/
theorem two_le_firstCandidate (t start : Int) : 2 ≤ firstCandidate t start := by
  unfold firstCandidate
  split <;> omega

/-- The next candidate is greater (R145). -/
theorem lt_nextCandidate (c : Int) : c < nextCandidate c := by
  unfold nextCandidate
  split <;> omega

/-- From a candidate of at least 2 on, the pair that the search accepts lies between 0 and T (R145, R148). -/
theorem exponentSearch_mem {t : Int} {left : Nat} {c e d : Int} (hc : 2 ≤ c)
    (h : exponentSearch t left c = .ok (e, d)) : (0 ≤ e ∧ e < t) ∧ 0 ≤ d ∧ d < t := by
  induction left generalizing c with
  | zero => cases h
  | succ left ih =>
    have hnext : 2 ≤ nextCandidate c := hc.trans (lt_nextCandidate c).le
    unfold exponentSearch at h
    split at h
    case isTrue => cases h
    case isFalse htc =>
      split at h
      case isFalse => exact ih hnext h
      case isTrue =>
        split at h
        case h_2 => exact ih hnext h
        case h_1 d' hinv =>
          split at h
          case isFalse => exact ih hnext h
          case isTrue =>
            cases h
            exact ⟨by omega, modInv_mem (by omega) hinv⟩

end Sys2Proof.Machine
end

section
/-! The result states that a command can leave (`10_state.md` R31, R34, R39 to R46): one predicate for all that the
invariant and R31 ask of them, and for each shared operation of a command one lemma that it keeps the predicate. -/

namespace Sys2Proof

/-! ## Integers that fit -/

/-- The integer fits a result register: at most RESB magnitude bytes (R31). -/
def Params.fits (c : Params) (v : Int) : Prop := v.natAbs < 256 ^ c.resb

/-- The integer fits an operand register: at most OPB magnitude bytes (R24). -/
def Params.fitsOperand (c : Params) (v : Int) : Prop := v.natAbs < 256 ^ c.opb

/-- A result register has room for the product of two operand registers (R8). -/
theorem Params.pow_resb (c : Params) : 256 ^ c.resb = 256 ^ c.opb * 256 ^ c.opb := by
  rw [Params.resb, two_mul, pow_add]

theorem Params.fits_zero (c : Params) : c.fits 0 := by simp [Params.fits]

/-- What is at most a product of operands in magnitude fits a result register. -/
theorem Params.fits_of_natAbs_le_mul {c : Params} {u v w : Int} (hu : c.fitsOperand u) (hv : c.fitsOperand v)
    (hw : w.natAbs ≤ (u * v).natAbs) : c.fits w := by
  rw [Params.fits, Params.pow_resb]
  calc w.natAbs ≤ u.natAbs * v.natAbs := by rwa [← Int.natAbs_mul]
    _ < 256 ^ c.opb * 256 ^ c.opb := Nat.mul_lt_mul'' hu hv

/-- What fits an operand register fits a result register. -/
theorem Params.fitsOperand.fits {c : Params} {v : Int} (h : c.fitsOperand v) : c.fits v := by
  rw [Params.fits, Params.pow_resb]
  exact lt_of_lt_of_le h (Nat.le_mul_of_pos_left _ (by positivity))

/-- An integer between 0 and one that fits an operand register. -/
theorem Params.fitsOperand.of_mem {c : Params} {v w : Int} (hw : c.fitsOperand w) (h : 0 ≤ v ∧ v ≤ w) :
    c.fitsOperand v :=
  lt_of_le_of_lt (by omega : v.natAbs ≤ w.natAbs) hw

/-- A residue of a modulus that fits a result register. -/
theorem Params.fits.of_mem {c : Params} {v w : Int} (hw : c.fits w) (h : 0 ≤ v ∧ v < w) : c.fits v :=
  lt_of_le_of_lt (by omega : v.natAbs ≤ w.natAbs) hw

/-- With legal parameters a register has at least one byte (R8). -/
theorem Params.one_le_opb {c : Params} (h : c.ok = true) : 1 ≤ c.opb := by
  simp only [Params.ok, Bool.and_eq_true, decide_eq_true_eq] at h
  omega

/-- Four integer fields that fit. -/
theorem Params.fits_fields {c : Params} {a b d e : Int} (ha : c.fits a) (hb : c.fits b) (hd : c.fits d)
    (he : c.fits e) (k : Fin 4) : c.fits (#v[a, b, d, e] : Vector Int 4)[k] := by
  fin_cases k
  · exact ha
  · exact hb
  · exact hd
  · exact he

/-- The unused integer fields of a record fit. -/
theorem Params.fits_zero_fields (c : Params) (k : Fin 4) : c.fits (Vector.replicate 4 (0 : Int))[k] := by
  simpa using c.fits_zero

end Sys2Proof

namespace Sys2Proof.Machine

open Sys2Proof

/-- Every operand of a state with legal lengths fits an operand register (R24). -/
theorem State.fitsOperand_xVal {s : State} (h : s.lensOk) (k : Fin 4) : s.cfg.fitsOperand (s.xVal k) :=
  (s.xVal_natAbs_lt k).trans_le (Nat.pow_le_pow_right (by omega) (h.1 k))

/-! ## Records -/

/-- A record of a kind that R44 lists, with `FLAGS` 0 or 1 and integer fields that fit. -/
structure Record.Legal (c : Params) (rec : Record) : Prop where
  kind_pos : 1 ≤ rec.kind.toNat
  kind_le : rec.kind.toNat ≤ 6
  flags_le : rec.flags.toNat ≤ 1
  fields_fit : ∀ k : Fin 4, c.fits rec.f[k]

theorem foundFlag_le_one (b : Bool) : (foundFlag b).toNat ≤ 1 := by cases b <;> decide

theorem dhRecord_legal {c : Params} {step : Word} {base exponent modulus value : Int} (hb : c.fits base)
    (he : c.fits exponent) (hm : c.fits modulus) (hv : c.fits value) :
    (dhRecord step base exponent modulus value).Legal c :=
  ⟨by simp [dhRecord], by simp [dhRecord], by simp [dhRecord, Record.zero], Params.fits_fields hb he hm hv⟩

theorem bfRecord_legal {c : Params} {x v : Int} (hx : c.fits x) (hv : c.fits v) (found : Bool) :
    (bfRecord x v found).Legal c :=
  ⟨by simp [bfRecord], by simp [bfRecord], foundFlag_le_one found, Params.fits_fields hx hv c.fits_zero c.fits_zero⟩

theorem babyRecord_legal {c : Params} {j v : Int} (hj : c.fits j) (hv : c.fits v) : (babyRecord j v).Legal c :=
  ⟨by simp [babyRecord], by simp [babyRecord], by simp [babyRecord, Record.zero],
    Params.fits_fields hj hv c.fits_zero c.fits_zero⟩

theorem giantMiss_legal {c : Params} {i gam : Int} (hi : c.fits i) (hg : c.fits gam) : (giantMiss i gam).Legal c :=
  ⟨by simp [giantMiss], by simp [giantMiss], by simp [giantMiss, Record.zero],
    Params.fits_fields hi hg c.fits_zero c.fits_zero⟩

theorem giantHit_legal {c : Params} {i gam j x : Int} (hi : c.fits i) (hg : c.fits gam) (hj : c.fits j)
    (hx : c.fits x) : (giantHit i gam j x).Legal c :=
  ⟨by simp [giantHit], by simp [giantHit], foundFlag_le_one true, Params.fits_fields hi hg hj hx⟩

theorem aesRecord_legal (c : Params) (round : Nat) (stage : AesStage) (s : AesBlock) :
    (aesRecord round stage s).Legal c :=
  ⟨by simp [aesRecord], by simp [aesRecord], by simp [aesRecord, Record.zero], c.fits_zero_fields⟩

theorem aesKeyRecord_legal (c : Params) (round : Nat) (s key : AesBlock) : (aesKeyRecord round s key).Legal c :=
  { aesRecord_legal c round .addRoundKey s with }

theorem shaRecord_legal (c : Params) (blk t : Nat) (v : ShaVars) (w k : Word) : (shaRecord blk t v w k).Legal c :=
  ⟨by simp [shaRecord], by simp [shaRecord], by simp [shaRecord, Record.zero], c.fits_zero_fields⟩

/-! ## STATUS -/

/-- `STATUS` as `return` can leave it: reserved bits 0, code `OK`, `READY` set (R34, R98). -/
structure StatusReturned (st : Word) : Prop where
  reserved : st &&& ~~~statusUsed = 0
  code : statusCode st = 0
  ready : getFlag st .ready = true

theorem readyStatus_returned : StatusReturned readyStatus := ⟨by decide, by decide, by decide⟩

/-- Writing a flag leaves the reserved bits 0 (R34). -/
theorem setFlag_reserved {st : Word} (h : st &&& ~~~statusUsed = 0) (f : StatusFlag) (b : Bool) :
    setFlag st f b &&& ~~~statusUsed = 0 := by
  have hmask : f.mask &&& ~~~statusUsed = 0 := by cases f <;> decide
  cases b with
  | true => simp [setFlag, BitVec.and_or_distrib_right, h, hmask]
  | false =>
    rw [setFlag, if_neg (by simp), BitVec.and_assoc, BitVec.and_comm (~~~f.mask), ← BitVec.and_assoc, h]
    simp

/-- A command may write every flag but `READY`. -/
theorem StatusReturned.setFlag {st : Word} (h : StatusReturned st) {f : StatusFlag} (hf : f ≠ .ready) (b : Bool) :
    StatusReturned (setFlag st f b) where
  reserved := setFlag_reserved h.reserved f b
  code := by rw [statusCode_setFlag, h.code]
  ready := by rw [getFlag_setFlag, if_neg hf.symm, h.ready]

theorem StatusReturned.dlogWarnings {st : Word} (h : StatusReturned st) (g y p : Int) :
    StatusReturned (dlogWarnings g y p st) :=
  ((h.setFlag (by decide) _).setFlag (by decide) _).setFlag (by decide) _

theorem StatusReturned.clampFlag {st : Word} (h : StatusReturned st) (count : Int) (cap : Nat) :
    StatusReturned (clampFlag count cap st) := by
  unfold Machine.clampFlag
  split
  case isTrue => exact h.setFlag (by decide) _
  case isFalse => exact h

/-- What `return` leaves in `STATUS` is legal (R34, R270). -/
theorem StatusReturned.statusOk {st : Word} (h : StatusReturned st) : statusOk st :=
  ⟨h.reserved, by simp [h.code], .inl h.code, .inl h.ready⟩

/-- What `raise` leaves in `STATUS` is legal (R34, R270). -/
theorem statusOk_raise (c : ErrorCode) : statusOk (setCode readyStatus c) := by cases c <;> decide

/-! ## Result states -/

/-- Everything but `STATUS` of a result state is as the invariant and R31 ask: within the capacities, map entries
that are indices of the map, legal records, integers that fit. -/
structure ResultState.Bounded (c : Params) (o : ResultState) : Prop where
  obuf_le : o.obuf.length ≤ c.obufCap
  pbuf_le : o.pbuf.length ≤ c.pbufCap
  map_le : o.map.length ≤ c.mapCap
  trace_le : o.trace.length ≤ c.traceCap
  registers_fit : ∀ k : Fin 4, c.fits o.r[k]
  entries_index : ∀ v ∈ o.map, 0 ≤ v ∧ v < (o.map.length : Int)
  entries_fit : ∀ v ∈ o.map, c.fits v
  records_legal : ∀ rec ∈ o.trace, rec.Legal c

/-- A result state that a command can return. -/
structure ResultState.Returned (c : Params) (o : ResultState) : Prop extends ResultState.Bounded c o where
  status_returned : StatusReturned o.status

/-- With nothing recorded every bound holds, whatever `STATUS` is. -/
theorem ResultState.bounded_of_empty {c : Params} {o : ResultState}
    (h : o = { ResultState.reset with status := o.status }) : o.Bounded c := by
  rw [h]
  constructor <;> simp [ResultState.reset, c.fits_zero]

theorem ResultState.cleared_returned (c : Params) : ResultState.cleared.Returned c where
  toBounded := ResultState.bounded_of_empty rfl
  status_returned := readyStatus_returned

section
variable {c : Params} {o : ResultState}

theorem ResultState.Returned.withStatus (h : o.Returned c) {st : Word} (hst : StatusReturned st) :
    ({ o with status := st } : ResultState).Returned c :=
  { h with status_returned := hst }

theorem ResultState.Returned.setFlag (h : o.Returned c) {f : StatusFlag} (hf : f ≠ .ready) (b : Bool) :
    (o.setFlag f b).Returned c :=
  h.withStatus (h.status_returned.setFlag hf b)

theorem ResultState.Returned.setR (h : o.Returned c) (k : Fin 4) {v : Int} (hv : c.fits v) :
    (o.setR k v).Returned c :=
  { h with
    registers_fit := fun j => by
      rw [ResultState.setR_get]
      split
      case isTrue => exact hv
      case isFalse => exact h.registers_fit j }

theorem ResultState.Returned.withRecords (h : o.Returned c) {recs : List Record}
    (hlen : o.trace.length + recs.length ≤ c.traceCap) (hrecs : ∀ rec ∈ recs, rec.Legal c) :
    ({ o with trace := o.trace ++ recs } : ResultState).Returned c :=
  { h with
    trace_le := by simpa using hlen
    records_legal := fun rec hmem => (List.mem_append.mp hmem).elim (h.records_legal rec) (hrecs rec) }

/-- A map of entries that are indices of it, over a count that fits an operand register (R191). -/
theorem ResultState.Returned.withMap (h : o.Returned c) {m : List Int} (hlen : m.length ≤ c.mapCap)
    (hfit : c.fits m.length) (hm : ∀ v ∈ m, 0 ≤ v ∧ v < (m.length : Int)) :
    ({ o with map := m } : ResultState).Returned c :=
  { h with
    map_le := hlen
    entries_index := hm
    entries_fit := fun v hv => hfit.of_mem (hm v hv) }

/-! ## The ends of a rule -/

/-- If the rule returns, it is with a result state that is as the invariant and R31 ask. -/
def EndsReturned (c : Params) (r : Except ErrorCode ResultState) : Prop := ∀ o, r = .ok o → o.Returned c

theorem endsReturned_ok (h : o.Returned c) : EndsReturned c (.ok o) := by
  rintro _ ⟨⟩
  exact h

theorem endsReturned_error (c : Params) (e : ErrorCode) : EndsReturned c (.error e) := by
  rintro _ ⟨⟩

/-- A string written to `OBUF` (R39, R276). -/
theorem ResultState.Returned.putObuf (h : o.Returned c) (bs : List Byte) : EndsReturned c (o.putObuf c bs) := by
  rcases o.putObuf_cases c bs with ⟨hlen, heq⟩ | ⟨-, heq⟩
  · rw [heq]
    exact endsReturned_ok { h with obuf_le := hlen }
  · rw [heq]
    exact endsReturned_error c _

/-- A string written to `PBUF` (R40, R276). -/
theorem ResultState.Returned.putPbuf (h : o.Returned c) (bs : List Byte) : EndsReturned c (o.putPbuf c bs) := by
  rcases o.putPbuf_cases c bs with ⟨hlen, heq⟩ | ⟨-, heq⟩
  · rw [heq]
    exact endsReturned_ok { h with pbuf_le := hlen }
  · rw [heq]
    exact endsReturned_error c _

/-- Several legal records emitted (R46). -/
theorem ResultState.Returned.emitAll (h : o.Returned c) {recs : List Record} (hrecs : ∀ rec ∈ recs, rec.Legal c) :
    EndsReturned c (o.emitAll c recs) := by
  rw [ResultState.emitAll_eq c recs o h.trace_le]
  split
  case isTrue hlen => exact endsReturned_ok (h.withRecords hlen hrecs)
  case isFalse => exact endsReturned_error c _

end

end Sys2Proof.Machine
end

section
/-! The searches of the discrete-log solver (`43_discrete_log.md` R167, R172) emit legal records only, no more than
fit, and the solution they find fits a result register. -/

namespace Sys2Proof.Machine

open Sys2Proof

/-- A run with legal records, at most `room` of them, whose solution fits. -/
structure SearchRun.Legal (c : Params) (room : Nat) (run : SearchRun) : Prop where
  records_legal : ∀ rec ∈ run.records, rec.Legal c
  length_le : run.records.length ≤ room
  solution_fits : ∀ x, run.ending = .found x → c.fits x

/-- A run that ends at once and finds nothing. -/
theorem SearchRun.legal_of_no_records (c : Params) (room : Nat) {e : SearchEnd} (he : ∀ x, e ≠ .found x) :
    (SearchRun.mk [] e).Legal c room :=
  ⟨by simp, by simp, fun x hx => absurd hx (he x)⟩

/-- A run that finds its solution with the next record. -/
theorem SearchRun.legal_of_found {c : Params} {rec : Record} {x : Int} (room : Nat) (hrec : rec.Legal c)
    (hx : c.fits x) : (SearchRun.mk [rec] (.found x)).Legal c (room + 1) :=
  ⟨by simpa using hrec, by simp, fun y hy => by cases hy; exact hx⟩

/-- A run with one more record in front. -/
theorem SearchRun.Legal.after {c : Params} {room : Nat} {run : SearchRun} {rec : Record} (h : run.Legal c room)
    (hrec : rec.Legal c) : (run.after rec).Legal c (room + 1) where
  records_legal := by simpa using ⟨hrec, h.records_legal⟩
  length_le := by simpa using h.length_le
  solution_fits := h.solution_fits

/-- The outcome of a run on the result state (R167, R172, R175). -/
theorem ResultState.Returned.commit {c : Params} {o : ResultState} (h : o.Returned c) {run : SearchRun}
    (hrun : run.Legal c (c.traceCap - o.trace.length)) : EndsReturned c (run.commit o) := by
  have htrace := h.trace_le
  have hlen := hrun.length_le
  have h' := h.withRecords (recs := run.records) (by omega) hrun.records_legal
  rcases run.commit_cases o with ⟨x, hx, heq⟩ | ⟨-, heq⟩ | ⟨-, heq⟩ | ⟨-, heq⟩ | ⟨-, heq⟩ <;> rw [heq]
  · exact endsReturned_ok (h'.setR 0 (hrun.solution_fits x hx))
  · exact endsReturned_ok (h'.setFlag (by decide) _)
  · exact endsReturned_ok ((h'.setFlag (by decide) _).setFlag (by decide) _)
  · exact endsReturned_ok ((h'.setFlag (by decide) _).setFlag (by decide) _)
  · exact endsReturned_error c _

section
variable {c : Params} {d : DlogInput}

/-- The loop of `DLBF` at an exponent of at most p, with a residue as running power (R167). -/
theorem bfLoop_legal (hp : 0 < d.p) (hfit : c.fits d.p) (room : Nat) (x v : Int) (hx : 0 ≤ x ∧ x ≤ d.p)
    (hv : 0 ≤ v ∧ v < d.p) : (bfLoop d room x v).Legal c room := by
  induction room generalizing x v with
  | zero =>
    unfold bfLoop
    split_ifs <;> exact SearchRun.legal_of_no_records c _ (by simp)
  | succ room ih =>
    unfold bfLoop
    split_ifs with hend hbudget hhit
    · exact SearchRun.legal_of_no_records c _ (by simp)
    · exact SearchRun.legal_of_no_records c _ (by simp)
    · have hxfit : c.fits x := hfit.of_mem (by omega)
      exact SearchRun.legal_of_found room (bfRecord_legal hxfit (hfit.of_mem hv) true) hxfit
    · have hxfit : c.fits x := hfit.of_mem (by omega)
      exact (ih _ _ (by omega) (emod_mem hp _)).after (bfRecord_legal hxfit (hfit.of_mem hv) false)

/-- Every index in the baby-step table is below m. -/
def BabyTable.IndexBelow (m : Int) (tab : BabyTable) : Prop := ∀ v j, tab.find v = some j → 0 ≤ j ∧ j < m

theorem BabyTable.indexBelow_nil (m : Int) : BabyTable.IndexBelow m [] := by
  rintro v j ⟨⟩

/-- One more baby step in the table (R172). -/
theorem BabyTable.IndexBelow.add {m : Int} {tab : BabyTable} (h : tab.IndexBelow m) (v : Int) {j : Int}
    (hj : 0 ≤ j ∧ j < m) : (tab.add v j).IndexBelow m := by
  unfold BabyTable.add
  split
  case h_1 => exact h
  case h_2 =>
    intro w i hi
    unfold BabyTable.find at hi
    split at hi
    case isTrue => cases hi; exact hj
    case isFalse => exact h w i hi

/-- With both indices below m, the exponent of a hit is below m·m. -/
theorem giantExponent_mem {m i j : Int} (hi : 0 ≤ i ∧ i < m) (hj : 0 ≤ j ∧ j < m) :
    0 ≤ i * m + j ∧ i * m + j < m * m := by
  constructor <;> nlinarith

/-- The giant phase at a step of at most m ≤ p, with a residue as giant value and a table of baby steps (R172). -/
theorem giantLoop_legal {m : Int} (hp : 0 < d.p) (hfit : c.fitsOperand d.p) (hm : 0 ≤ m ∧ m ≤ d.p) (inv : Int)
    {tab : BabyTable} (htab : tab.IndexBelow m) (room : Nat) (n i gam : Int) (hi : 0 ≤ i ∧ i ≤ m)
    (hgam : 0 ≤ gam ∧ gam < d.p) : (giantLoop d m inv tab room n i gam).Legal c room := by
  have hmfit : c.fitsOperand m := hfit.of_mem hm
  have hgfit : c.fits gam := hfit.fits.of_mem hgam
  induction room generalizing n i gam with
  | zero =>
    unfold giantLoop
    split_ifs <;> exact SearchRun.legal_of_no_records c _ (by simp)
  | succ room ih =>
    unfold giantLoop
    split_ifs with hend hbudget
    · exact SearchRun.legal_of_no_records c _ (by simp)
    · exact SearchRun.legal_of_no_records c _ (by simp)
    · have hi' : 0 ≤ i ∧ i < m := by omega
      have hifit : c.fits i := hmfit.fits.of_mem hi'
      split
      case h_1 j hj =>
        have hj' := htab _ _ hj
        have hxfit : c.fits (i * m + j) :=
          (Params.fits_of_natAbs_le_mul hmfit hmfit le_rfl).of_mem (giantExponent_mem hi' hj')
        exact SearchRun.legal_of_found room (giantHit_legal hifit hgfit (hmfit.fits.of_mem hj') hxfit) hxfit
      case h_2 =>
        have hnext := emod_mem hp (gam * inv)
        exact (ih _ _ _ (by omega) hnext (hfit.fits.of_mem hnext)).after (giantMiss_legal hifit hgfit)

/-- Between the phases, with a residue as target (R172, R175). -/
theorem giantPhase_legal {m : Int} (hp : 0 < d.p) (hyy : 0 ≤ d.yy ∧ d.yy < d.p) (hfit : c.fitsOperand d.p)
    (hm : 0 ≤ m ∧ m ≤ d.p) {tab : BabyTable} (htab : tab.IndexBelow m) (room : Nat) (n v : Int) :
    (giantPhase d m tab room n v).Legal c room := by
  unfold giantPhase
  split
  case h_1 => exact SearchRun.legal_of_no_records c _ (by simp)
  case h_2 => exact giantLoop_legal hp hfit hm _ htab room n 0 d.yy (by omega) hyy

/-- The baby phase at a step of at most m ≤ p, with a residue as power, and what follows it (R172). -/
theorem babyLoop_legal {m : Int} (hp : 0 < d.p) (hyy : 0 ≤ d.yy ∧ d.yy < d.p) (hfit : c.fitsOperand d.p)
    (hm : 0 ≤ m ∧ m ≤ d.p) (room : Nat) {tab : BabyTable} (htab : tab.IndexBelow m) (j v : Int) (hj : 0 ≤ j ∧ j ≤ m)
    (hv : 0 ≤ v ∧ v < d.p) : (babyLoop d m room tab j v).Legal c room := by
  induction room generalizing tab j v with
  | zero =>
    unfold babyLoop
    split_ifs
    · exact giantPhase_legal hp hyy hfit hm htab 0 j v
    · exact SearchRun.legal_of_no_records c _ (by simp)
    · exact SearchRun.legal_of_no_records c _ (by simp)
  | succ room ih =>
    unfold babyLoop
    split_ifs with hend hbudget
    · exact giantPhase_legal hp hyy hfit hm htab (room + 1) j v
    · exact SearchRun.legal_of_no_records c _ (by simp)
    · have hj' : 0 ≤ j ∧ j < m := by omega
      have hjfit : c.fits j := (hfit.of_mem hm).fits.of_mem hj'
      exact (ih (htab.add v hj') _ _ (by omega) (emod_mem hp _)).after
        (babyRecord_legal hjfit (hfit.fits.of_mem hv))

end

/-- ceil_sqrt(p) is between 0 and p (R11). -/
theorem ceilSqrt_mem {p : Int} (hp : 0 < p) : 0 ≤ (ceilSqrt p.toNat : Int) ∧ (ceilSqrt p.toNat : Int) ≤ p := by
  have hle : ceilSqrt p.toNat ≤ p.toNat := (ceilSqrt_le_iff _ _).mpr (Nat.le_mul_self _)
  omega

end Sys2Proof.Machine
end

section
/-! Every rule returns, if it returns, a result state that is as the invariant and R31 ask: one lemma per command. -/

namespace Sys2Proof.Machine

open Sys2Proof

/-! ## The integer kernel -/

section
variable {s : State} {o : ResultState}

theorem modpowRule_endsReturned (hl : s.lensOk) (h : o.Returned s.cfg) : EndsReturned s.cfg (modpowRule s o) := by
  unfold modpowRule
  split_ifs with hm he
  · exact endsReturned_error _ _
  · exact endsReturned_error _ _
  · exact endsReturned_ok (h.setR 0 ((s.fitsOperand_xVal hl 2).fits.of_mem (modPow_mem (by omega) _ _)))

theorem gcdRule_endsReturned (hl : s.lensOk) (h : o.Returned s.cfg) : EndsReturned s.cfg (gcdRule s o) := by
  have hg : s.cfg.fitsOperand (gcdOf (s.xVal 0) (s.xVal 1)) :=
    natAbs_gcdOf_lt (s.fitsOperand_xVal hl 0) (s.fitsOperand_xVal hl 1)
  exact endsReturned_ok (h.setR 0 hg.fits)

theorem lcmRule_endsReturned (hl : s.lensOk) (h : o.Returned s.cfg) : EndsReturned s.cfg (lcmRule s o) :=
  endsReturned_ok (h.setR 0 (Params.fits_of_natAbs_le_mul (s.fitsOperand_xVal hl 0) (s.fitsOperand_xVal hl 1)
    (natAbs_lcmOf_le _ _)))

theorem egcdRule_endsReturned (hc : s.cfg.ok = true) (hl : s.lensOk) (h : o.Returned s.cfg) :
    EndsReturned s.cfg (egcdRule s o) := by
  have hone : 1 < 256 ^ s.cfg.opb := Nat.one_lt_pow (by have := Params.one_le_opb hc; omega) (by omega)
  obtain ⟨hg, hx, hy⟩ := natAbs_egcd_lt (s.fitsOperand_xVal hl 0) (s.fitsOperand_xVal hl 1) hone
  exact endsReturned_ok
    (((h.setR 0 (Params.fitsOperand.fits hg)).setR 1 (Params.fitsOperand.fits hx)).setR 2 (Params.fitsOperand.fits hy))

theorem modinvRule_endsReturned (hl : s.lensOk) (h : o.Returned s.cfg) : EndsReturned s.cfg (modinvRule s o) := by
  unfold modinvRule
  split
  case isTrue => exact endsReturned_error _ _
  case isFalse hm =>
    split
    case h_1 => exact endsReturned_ok (h.setFlag (by decide) _)
    case h_2 r hr => exact endsReturned_ok (h.setR 0 ((s.fitsOperand_xVal hl 1).fits.of_mem (modInv_mem (by omega) hr)))

/-- `B2I` checks what R31 asks, as the input buffer may be longer than a result register (R128). -/
theorem b2iRule_endsReturned (h : o.Returned s.cfg) : EndsReturned s.cfg (b2iRule s o) := by
  unfold b2iRule
  split
  case isTrue => exact endsReturned_error _ _
  case isFalse hlen =>
    have hfit : s.cfg.fits (beVal s.ibuf) := by
      rw [Params.fits, Int.natAbs_natCast, ← length_minBytes_le_iff]
      omega
    exact endsReturned_ok (h.setR 0 hfit)

theorem i2bRule_endsReturned (h : o.Returned s.cfg) : EndsReturned s.cfg (i2bRule s o) := by
  unfold i2bRule
  split
  case isTrue => exact endsReturned_error _ _
  case isFalse => exact h.putObuf _

/-! ## The solvers and the mapper -/

/-- T is between 0 and the product of the primes less 1, so it fits a result register (R141). -/
theorem exponentModulus_fits {c : Params} {p q : Int} (hp : 2 ≤ p) (hq : 2 ≤ q) (hpfit : c.fitsOperand p)
    (hqfit : c.fitsOperand q) (carm : Bool) : c.fits (exponentModulus carm p q) := by
  have hp' : c.fitsOperand (p - 1) := hpfit.of_mem (by omega)
  have hq' : c.fitsOperand (q - 1) := hqfit.of_mem (by omega)
  cases carm with
  | true => exact Params.fits_of_natAbs_le_mul hp' hq' (natAbs_lcmOf_le _ _)
  | false => exact Params.fits_of_natAbs_le_mul hp' hq' le_rfl

theorem deriveRule_endsReturned (carm hint : Bool) (hl : s.lensOk) (h : o.Returned s.cfg) :
    EndsReturned s.cfg (deriveRule carm hint s o) := by
  have hp := s.fitsOperand_xVal hl 0
  have hq := s.fitsOperand_xVal hl 1
  unfold deriveRule
  dsimp only
  split_ifs with hne hsmall
  · exact endsReturned_error _ _
  · exact endsReturned_error _ _
  · have ht := exponentModulus_fits (by omega) (by omega) hp hq carm
    split
    case h_1 e d hsearch =>
      obtain ⟨he, hd⟩ := exponentSearch_mem (two_le_firstCandidate _ _) hsearch
      exact endsReturned_ok (((h.setR 0 (Params.fits_of_natAbs_le_mul hp hq le_rfl)).setR 1 (ht.of_mem he)).setR 2
        (ht.of_mem hd))
    case h_2 => exact endsReturned_error _ _

theorem dhxRule_endsReturned (hl : s.lensOk) (h : o.Returned s.cfg) : EndsReturned s.cfg (dhxRule s o) := by
  have hx (k : Fin 4) : s.cfg.fits (s.xVal k) := (s.fitsOperand_xVal hl k).fits
  unfold dhxRule
  dsimp only
  split_ifs with hp hexp
  · exact endsReturned_error _ _
  · exact endsReturned_error _ _
  · have hpow (b e : Int) : s.cfg.fits (modPow b e (s.xVal 0)) := (hx 0).of_mem (modPow_mem (by omega) b e)
    split
    case h_1 o' hemit =>
      have ho' : o'.Returned s.cfg := by
        refine h.emitAll ?_ _ hemit
        simp only [List.forall_mem_cons, List.not_mem_nil, false_implies, implies_true, and_true]
        exact ⟨dhRecord_legal (hx 1) (hx 2) (hx 0) (hpow _ _), dhRecord_legal (hx 1) (hx 3) (hx 0) (hpow _ _),
          dhRecord_legal (hpow _ _) (hx 2) (hx 0) (hpow _ _), dhRecord_legal (hpow _ _) (hx 3) (hx 0) (hpow _ _)⟩
      exact endsReturned_ok
        ((((ho'.setR 0 (hpow _ _)).setR 1 (hpow _ _)).setR 2 (hpow _ _)).setR 3 (hpow _ _))
    case h_2 => exact endsReturned_error _ _

theorem dlbfRule_endsReturned (hl : s.lensOk) (h : o.Returned s.cfg) : EndsReturned s.cfg (dlbfRule s o) := by
  unfold dlbfRule
  rcases dlEntry_cases s o with ⟨-, heq⟩ | ⟨hp, -, heq⟩ <;> rw [heq]
  · exact endsReturned_error _ _
  · exact (h.withStatus (h.status_returned.dlogWarnings _ _ _)).commit
      (bfLoop_legal hp (s.fitsOperand_xVal hl 2).fits _ 0 _ ⟨le_rfl, hp.le⟩ (emod_mem hp 1))

theorem dlbsgsRule_endsReturned (hl : s.lensOk) (h : o.Returned s.cfg) : EndsReturned s.cfg (dlbsgsRule s o) := by
  unfold dlbsgsRule
  rcases dlEntry_cases s o with ⟨-, heq⟩ | ⟨hp, -, heq⟩ <;> rw [heq]
  · exact endsReturned_error _ _
  · have hm := ceilSqrt_mem hp
    exact (h.withStatus (h.status_returned.dlogWarnings _ _ _)).commit
      (babyLoop_legal hp (emod_mem hp _) (s.fitsOperand_xVal hl 2) hm _ (BabyTable.indexBelow_nil _) 0 _
        ⟨le_rfl, hm.1⟩ (emod_mem hp 1))

@[simp] theorem length_mapEntries (e n : Int) (c : Nat) : (mapEntries e n c).length = c := by simp [mapEntries]

/-- Every entry of the map is an index of it (R191). -/
theorem mapEntries_mem {e n : Int} {c : Nat} {v : Int} (h : v ∈ mapEntries e n c) : 0 ≤ v ∧ v < (c : Int) := by
  have hlen := List.length_pos_of_mem h
  rw [length_mapEntries] at hlen
  obtain ⟨i, -, rfl⟩ := List.mem_map.mp h
  exact emod_mem (by omega) _

theorem mapexpRule_endsReturned (hl : s.lensOk) (h : o.Returned s.cfg) : EndsReturned s.cfg (mapexpRule s o) := by
  unfold mapexpRule
  dsimp only
  split_ifs with hn he hcount
  · exact endsReturned_error _ _
  · exact endsReturned_error _ _
  · exact endsReturned_error _ _
  · have hclamp : clampCount (s.xVal 2) s.cfg.mapCap ≤ s.cfg.mapCap := Nat.min_le_right _ _
    have hle : clampCount (s.xVal 2) s.cfg.mapCap ≤ (s.xVal 2).toNat := Nat.min_le_left _ _
    have hfit : s.cfg.fits (clampCount (s.xVal 2) s.cfg.mapCap : Int) :=
      ((s.fitsOperand_xVal hl 2).of_mem (by omega)).fits
    refine endsReturned_ok ((h.withStatus (h.status_returned.clampFlag _ _)).withMap ?_ ?_ ?_)
    · simpa using hclamp
    · simpa using hfit
    · simpa using fun v => mapEntries_mem

/-! ## AES-128 -/

/-- A round adds legal records (R212). -/
theorem aesRound_legal {c : Params} {run : AesRun} (h : ∀ rec ∈ run.records, rec.Legal c) (w : List AesWord)
    (r : Nat) : ∀ rec ∈ (aesRound w r run).records, rec.Legal c := by
  unfold aesRound
  dsimp only
  split
  case isTrue => exact List.forall_mem_append.mpr ⟨h, by simp [aesRecord_legal, aesKeyRecord_legal]⟩
  case isFalse => exact List.forall_mem_append.mpr ⟨h, by simp [aesRecord_legal, aesKeyRecord_legal]⟩

/-- The records of an encryption are legal (R212). -/
theorem aesEncrypt_legal (c : Params) (pt key : AesBlock) : ∀ rec ∈ (aesEncrypt pt key).records, rec.Legal c := by
  unfold aesEncrypt
  refine List.foldlRecOn (motive := fun run : AesRun => ∀ rec ∈ run.records, rec.Legal c) _ _ ?_
    fun run h r _ => aesRound_legal h _ r
  unfold aesRoundZero
  simp [aesRecord_legal, aesKeyRecord_legal]

theorem aesencRule_endsReturned (h : o.Returned s.cfg) : EndsReturned s.cfg (aesencRule s o) := by
  unfold aesencRule
  dsimp only
  split
  case isTrue => exact endsReturned_error _ _
  case isFalse =>
    split
    case h_1 o' hemit => exact (h.emitAll (aesEncrypt_legal _ _ _) o' hemit).putObuf _
    case h_2 => exact endsReturned_error _ _

/-! ## SHA-256 -/

/-- The records of the rounds of a block are legal (R237). -/
theorem shaRounds_legal (c : Params) (blk : Nat) (kws : List (Word × Word)) (t : Nat) (v : ShaVars) :
    ∀ rec ∈ (shaRounds blk kws t v).records, rec.Legal c := by
  induction kws generalizing t v with
  | nil => simp [shaRounds]
  | cons kw kws ih =>
    obtain ⟨k, w⟩ := kw
    simp only [shaRounds, List.forall_mem_cons]
    exact ⟨shaRecord_legal c _ _ _ _ _, ih _ _⟩

/-- The records of the compression of a block are legal (R237). -/
theorem shaCompress_legal (c : Params) (blk : Nat) (block : List Byte) (h : ShaVars) :
    ∀ rec ∈ (shaCompress blk block h).records, rec.Legal c := by
  -- for every run, so that nothing evaluates the rounds on the 64 constants
  have hrun (run : ShaRun) (hr : ∀ rec ∈ run.records, rec.Legal c) :
      ∀ rec ∈ (ShaRun.mk run.records (h.add run.v)).records, rec.Legal c := hr
  exact hrun _ (shaRounds_legal c blk (shaK.zip (shaSchedule block)) 0 h)

/-- The records of the blocks of a message are legal (R240). -/
theorem shaBlocks_legal (c : Params) (padded : List Byte) (n blk : Nat) (v : ShaVars) :
    ∀ rec ∈ (shaBlocks padded n blk v).records, rec.Legal c := by
  induction n generalizing blk v with
  | zero => simp [shaBlocks]
  | succ n ih =>
    simp only [shaBlocks, List.forall_mem_append]
    exact ⟨shaCompress_legal c _ _ _, ih _ _⟩

/-- The records of a hash are legal (R240). -/
theorem shaHash_legal (c : Params) (padded : List Byte) : ∀ rec ∈ (shaHash padded).records, rec.Legal c := by
  unfold shaHash
  exact shaBlocks_legal c padded _ _ _

theorem sha256Rule_endsReturned (h : o.Returned s.cfg) : EndsReturned s.cfg (sha256Rule s o) := by
  unfold sha256Rule
  dsimp only
  split
  case h_1 => exact endsReturned_error _ _
  case h_2 o₁ hpad =>
    split
    case h_1 => exact endsReturned_error _ _
    case h_2 o₂ hemit => exact ((h.putPbuf _ o₁ hpad).emitAll (shaHash_legal _ _) o₂ hemit).putObuf _

/-! ## Every command -/

/-- Every rule, on legal parameters and lengths, returns a result state as the invariant and R31 ask, if it returns. -/
theorem commandRule_endsReturned (i : Instr) (hc : s.cfg.ok = true) (hl : s.lensOk) (h : o.Returned s.cfg) :
    EndsReturned s.cfg (commandRule i s o) := by
  cases i
  case init => exact endsReturned_ok h
  case modpow => exact modpowRule_endsReturned hl h
  case gcd => exact gcdRule_endsReturned hl h
  case lcm => exact lcmRule_endsReturned hl h
  case egcd => exact egcdRule_endsReturned hc hl h
  case modinv => exact modinvRule_endsReturned hl h
  case b2i => exact b2iRule_endsReturned h
  case i2b => exact i2bRule_endsReturned h
  case derive carm hint => exact deriveRule_endsReturned carm hint hl h
  case dhx => exact dhxRule_endsReturned hl h
  case dlbf => exact dlbfRule_endsReturned hl h
  case dlbsgs => exact dlbsgsRule_endsReturned hl h
  case mapexp => exact mapexpRule_endsReturned hl h
  case aesenc => exact aesencRule_endsReturned h
  case sha256 => exact sha256Rule_endsReturned h

end

end Sys2Proof.Machine
end

section
/-! Every step keeps the invariant of the block, and no step leaves an integer that does not fit: statements O57 and
O59. A step either leaves the result state alone or gives it the end of a command or its reset value. -/

namespace Sys2Proof.Machine

open Sys2Proof

/-! ## Host-written locations -/

/-- The page of the block that a page holds (R61). -/
theorem page_of_blockOfPage {page : Nat} {b : IntBlock} (h : blockOfPage page = some b) : b.page = page := by
  unfold blockOfPage at h
  split_ifs at h <;> cases h <;> simp only [IntBlock.page] <;> omega

/-- The byte location found at an offset has that offset (R61). -/
theorem addr_of_byteLocAt {c : Params} {addr : Nat} {loc : ByteLoc} (h : byteLocAt c addr = some loc) :
    loc.addr = addr := by
  have hsplit := Nat.div_add_mod addr 0x10000
  unfold byteLocAt at h
  dsimp only at h
  split_ifs at h
  case neg =>
    split at h
    case h_2 => cases h
    case h_1 b hb =>
      have hpage := page_of_blockOfPage hb
      split_ifs at h
      cases h
      simp only [ByteLoc.addr, hpage]
      omega
  all_goals
    cases h
    simp only [ByteLoc.addr]
    omega

/-- The magnitude bytes of `X[k]` stand in its integer block (R61, R66). -/
theorem xMagAddr_eq_addr (k : Fin 4) (i : Nat) : xMagAddr k i = (ByteLoc.mag (.x k) i).addr := by
  simp only [xMagAddr, xBase, ByteLoc.addr, IntBlock.page]
  omega

/-- A write to a host-written byte location keeps the memory canonical and of host-written bytes. -/
theorem State.memOk.write {s : State} (h : s.memOk) {addr : Nat} (haddr : hostByte s.cfg addr = true) (v : Byte) :
    ({ s with mem := s.mem.write addr v } : State).memOk := by
  obtain ⟨hwf, hbytes⟩ := h
  refine ⟨Memory.write_wf _ hwf _ _, fun cell hcell => ?_⟩
  rcases Memory.mem_write _ _ _ _ hcell with ⟨rfl, -⟩ | hold
  · exact haddr
  · exact hbytes cell hold

/-! ## The input state -/

/-- The part of the invariant that speaks of the parameters and the host-owned input state. -/
structure State.InputsOk (s : State) : Prop where
  params : s.cfg.ok = true
  lens : s.lensOk
  mem : s.memOk

theorem State.Inv.inputsOk {s : State} (h : s.Inv) : s.InputsOk := by
  obtain ⟨hparams, hlens, hmem, -⟩ := h
  exact ⟨hparams, hlens, hmem⟩

/-- A new `X[k]` whose length is within its bound keeps every length within its bound. -/
theorem State.lensOk.set {s : State} (h : s.lensOk) (k : Fin 4) {r : OpReg} (hr : r.len.toNat ≤ s.cfg.opb) :
    ({ s with x := s.x.set k r } : State).lensOk := by
  obtain ⟨hx, hbuf⟩ := h
  refine ⟨fun j => ?_, hbuf⟩
  have hj := hx j
  simp only [Fin.getElem_fin, Vector.getElem_set] at hj ⊢
  split
  case isTrue => exact hr
  case isFalse => exact hj

/-- A word write that takes effect keeps the input state legal and touches neither parameters nor results. -/
theorem State.writeWord_keeps {s u : State} {addr : Nat} {loc : WordLoc} {v : Word} (hs : s.InputsOk)
    (h : s.writeWord addr loc v = .ok u) : u.InputsOk ∧ u.cfg = s.cfg ∧ u.out = s.out := by
  rcases State.writeWord_cases h with ⟨-, hv, rfl⟩ | ⟨-, rfl⟩ | ⟨-, rfl⟩ | ⟨k, -, -, rfl⟩ | ⟨k, -, hv, rfl⟩
  · exact ⟨⟨hs.params, ⟨hs.lens.1, hv⟩, hs.mem⟩, rfl, rfl⟩
  · exact ⟨⟨hs.params, hs.lens, hs.mem⟩, rfl, rfl⟩
  · exact ⟨⟨hs.params, hs.lens, hs.mem⟩, rfl, rfl⟩
  · exact ⟨⟨hs.params, State.lensOk.set hs.lens k (hs.lens.1 k), hs.mem⟩, rfl, rfl⟩
  · exact ⟨⟨hs.params, State.lensOk.set hs.lens k hv, hs.mem⟩, rfl, rfl⟩

/-- A byte write that takes effect keeps the input state legal and touches neither parameters nor results. -/
theorem State.writeByte_keeps {s u : State} {addr : Nat} {loc : ByteLoc} {v : Byte} (hs : s.InputsOk)
    (hloc : byteLocAt s.cfg addr = some loc) (h : s.writeByte addr loc v = .ok u) :
    u.InputsOk ∧ u.cfg = s.cfg ∧ u.out = s.out := by
  have haddr := addr_of_byteLocAt hloc
  rcases State.writeByte_cases h with ⟨k, i, rfl, rfl⟩ | ⟨i, rfl, rfl⟩
  · have hbyte : hostByte s.cfg (xMagAddr k i) = true := by rw [xMagAddr_eq_addr, haddr, hostByte, hloc]
    exact ⟨⟨hs.params, hs.lens, State.memOk.write hs.mem hbyte v⟩, rfl, rfl⟩
  · have hbyte : hostByte s.cfg (ibufAddr i) = true := by
      rw [show ibufAddr i = addr from haddr, hostByte, hloc]
    exact ⟨⟨hs.params, hs.lens, State.memOk.write hs.mem hbyte v⟩, rfl, rfl⟩

/-! ## The result state -/

/-- All that the invariant and R31 ask of a result state. -/
structure ResultState.Legal (c : Params) (o : ResultState) : Prop extends ResultState.Bounded c o where
  status_ok : statusOk o.status

theorem ResultState.Returned.legal {c : Params} {o : ResultState} (h : o.Returned c) : o.Legal c :=
  ⟨h.toBounded, h.status_returned.statusOk⟩

theorem ResultState.reset_legal (c : Params) : ResultState.reset.Legal c :=
  ⟨ResultState.bounded_of_empty rfl, by decide⟩

/-- What `raise` leaves is legal (R272). -/
theorem ResultState.raised_legal (c : Params) (e : ErrorCode) :
    ({ ResultState.cleared with status := setCode readyStatus e } : ResultState).Legal c :=
  ⟨ResultState.bounded_of_empty rfl, statusOk_raise e⟩

/-- Every command ends, changes the result state only, and leaves it legal (R31, R98). -/
theorem exec_returns_legal (i : Instr) {s : State} (hc : s.cfg.ok = true) (hl : s.lensOk) :
    ∃ o, exec i s = s.returns o ∧ o.Legal s.cfg := by
  rw [exec_eq_runCommand_commandRule]
  cases hrule : commandRule i s.prologue ResultState.cleared with
  | ok o =>
    have hret := commandRule_endsReturned (s := s.prologue) i hc hl (ResultState.cleared_returned _) o hrule
    exact ⟨o, runCommand_ok hrule, hret.legal⟩
  | error e => exact ⟨_, by simp only [runCommand, hrule]; rfl, ResultState.raised_legal s.cfg e⟩

/-- The write of a command word, legal or not, changes `CMD` and the result state only, and leaves that legal
(R95, R97). -/
theorem runWord_returns_legal (w : Word) {s : State} (hc : s.cfg.ok = true) (hl : s.lensOk) :
    ∃ o, runWord w s = (s.withCmd w).returns o ∧ o.Legal s.cfg := by
  cases hd : decode w with
  | ok i =>
    rw [runWord_ok hd]
    exact exec_returns_legal i (s := s.withCmd w) hc hl
  | error e =>
    exact ⟨_, by simp only [runWord, hd]; rfl, ResultState.raised_legal s.cfg .illegalCommand⟩

/-- A legal result state over a legal input state is all of the invariant, and R31. -/
theorem State.InputsOk.inv_of_legal {s : State} (hs : s.InputsOk) (ho : s.out.Legal s.cfg) : s.Inv ∧ s.resultsFit :=
  ⟨⟨hs.params, hs.lens, hs.mem, ⟨ho.obuf_le, ho.pbuf_le, ho.map_le, ho.trace_le⟩, ho.status_ok, ho.entries_index,
      fun r hr => have hrec := ho.records_legal r hr; ⟨hrec.kind_pos, hrec.kind_le, hrec.flags_le⟩⟩,
    ho.registers_fit, fun r hr => (ho.records_legal r hr).fields_fit, ho.entries_fit⟩

/-! ## One step -/

/-- What a step does to a state with a legal input state: it keeps that, and leaves the result state alone or legal. -/
structure State.StepsTo (s t : State) : Prop where
  inputs : t.InputsOk
  cfg_eq : t.cfg = s.cfg
  out_cases : t.out = s.out ∨ t.out.Legal s.cfg

/-- What a bus access does (R62, R68, R70). -/
theorem busAccess_stepsTo {a : BusAccess} {s t : State} (hs : s.InputsOk) (h : busAccess a s = .next t) :
    s.StepsTo t := by
  obtain ⟨hc, hl, hm⟩ := hs
  rcases busAccess_cases h with ⟨addr, loc, -, -, rfl⟩ | ⟨addr, loc, -, -, rfl⟩ | ⟨addr, v, u, -, -, hrun, rfl⟩
    | ⟨addr, loc, v, u, -, -, -, hwrite, rfl⟩ | ⟨addr, loc, v, u, -, hloc, hwrite, rfl⟩
  · exact ⟨⟨hc, hl, hm⟩, rfl, .inl rfl⟩
  · exact ⟨⟨hc, hl, hm⟩, rfl, .inl rfl⟩
  · obtain ⟨o, hret, ho⟩ := runWord_returns_legal v hc hl
    obtain rfl := (State.returns_next _ u o).mp (hret ▸ hrun)
    exact ⟨⟨hc, hl, hm⟩, rfl, .inr ho⟩
  · obtain ⟨⟨hc', hl', hm'⟩, hcfg, hout⟩ := State.writeWord_keeps ⟨hc, hl, hm⟩ hwrite
    exact ⟨⟨hc', hl', hm'⟩, hcfg, .inl hout⟩
  · obtain ⟨⟨hc', hl', hm'⟩, hcfg, hout⟩ := State.writeByte_keeps ⟨hc, hl, hm⟩ hloc hwrite
    exact ⟨⟨hc', hl', hm'⟩, hcfg, .inl hout⟩

/-- The input state after reset is legal (R55). -/
theorem State.inputsOk_resetOf {c : Params} (h : c.ok = true) : (State.resetOf c).InputsOk where
  params := h
  lens := ⟨fun k => by simp, by simp⟩
  mem := ⟨State.reset_mem_wf, by simp⟩

/-- What a step does (R71, R300, R301). -/
theorem step_stepsTo {s t : State} (hs : s.InputsOk) (h : step s = .next t) : s.StepsTo t := by
  obtain ⟨hc, hl, hm⟩ := hs
  rcases step_cases h with ⟨-, rfl⟩ | ⟨rest, -, rfl⟩ | ⟨a, rest, -, haccess⟩
  · exact ⟨⟨hc, hl, hm⟩, rfl, .inl rfl⟩
  · obtain ⟨hc', hl', hm'⟩ := State.inputsOk_resetOf hc
    exact ⟨⟨hc', hl', hm'⟩, rfl, .inr (ResultState.reset_legal _)⟩
  · obtain ⟨hin, hcfg, hout⟩ := busAccess_stepsTo (s := s.withPending rest) ⟨hc, hl, hm⟩ haccess
    exact ⟨hin, hcfg, hout⟩

/-- Settles O57: the input state stays legal, and the result state is the old one or a legal one. -/
theorem stepKeepsInv : Obligations.StepKeepsInv := by
  intro s t hs hstep
  obtain ⟨hin, hcfg, hout | hlegal⟩ := step_stepsTo hs.inputsOk hstep
  · obtain ⟨-, -, -, hbuf, hstatus, hcontents⟩ := hs
    refine ⟨hin.params, hin.lens, hin.mem, ?_, ?_, ?_⟩
    · simpa only [State.buffersOk, hcfg, hout] using hbuf
    · simpa only [hout] using hstatus
    · simpa only [State.contentsOk, hout] using hcontents
  · exact (hin.inv_of_legal (hcfg ▸ hlegal)).1

/-- Settles O59: for a command by the bounds of its rule, for a step because the result state is the old one or a
legal one. -/
theorem resultsFitRegisters : Obligations.ResultsFitRegisters := by
  constructor
  · intro i s hc hl
    obtain ⟨o, hexec, ho⟩ := exec_returns_legal i hc hl
    exact ⟨_, hexec, ho.registers_fit, fun r hr => (ho.records_legal r hr).fields_fit, ho.entries_fit⟩
  · intro s t hs hfit hstep
    obtain ⟨hin, hcfg, hout | hlegal⟩ := step_stepsTo hs.inputsOk hstep
    · simpa only [State.resultsFit, hcfg, hout] using hfit
    · exact (hin.inv_of_legal (hcfg ▸ hlegal)).2

end Sys2Proof.Machine
end

section
/-! The state after reset (`10_state.md` R55): every location reads 0, and the invariant holds. Statements O1 and
O58. -/

namespace Sys2Proof.Machine

open Sys2Proof

/-- The canonical magnitude of 0 has no byte (R26). -/
@[simp] theorem canonMag_zero : canonMag 0 = [] := rfl

/-- The canonical sign of 0 is 0 (R26). -/
@[simp] theorem canonSign_zero : canonSign 0 = 0 := rfl

/-- Every integer block shows 0 after reset (R55). -/
theorem blockVal_resetOf (c : Params) (b : IntBlock) : (State.resetOf c).blockVal b = 0 := by
  cases b with
  | x k => simp [State.blockVal, State.xVal, State.xMag, Memory.bytes, signedVal]
  | r k => simp [State.blockVal]
  | f k => simp [State.blockVal, State.windowRecord, Record.zero]
  | map => simp [State.blockVal, State.windowEntry]

/-- Every 32-bit location reads 0 after reset (R55). -/
theorem readWord_resetOf (c : Params) (loc : WordLoc) : (State.resetOf c).readWord loc = 0 := by
  cases loc
  case sign b => cases b <;> simp [State.readWord, State.readSign, blockVal_resetOf]
  case len b => cases b <;> simp [State.readWord, State.readLen, blockVal_resetOf]
  case recW j => simp [State.readWord, State.windowRecord, Record.zero]
  all_goals rfl

/-- Every byte location reads 0 after reset (R55). -/
theorem readByte_resetOf (c : Params) (loc : ByteLoc) : (State.resetOf c).readByte loc = 0 := by
  cases loc
  case mag b i => cases b <;> simp [State.readByte, State.readMag, blockVal_resetOf]
  case recS i => simp [State.readByte, State.windowRecord, Record.zero]
  case recKey i => simp [State.readByte, State.windowRecord, Record.zero]
  all_goals rfl

/-- Settles O1: the reset state is one of `resetOf`, where every location reads 0. -/
theorem resetState : Obligations.ResetState :=
  ⟨readWord_resetOf _, readByte_resetOf _, fun k => blockVal_resetOf _ (.x k), fun k => blockVal_resetOf _ (.r k), rfl,
    rfl⟩

/-- The defaults of R8 are legal, whatever the two open parameters are. -/
theorem default_ok : Params.default.ok = true := by
  simp [Params.ok, Params.default, Params.pbufCap]

/-- Settles O58: after reset the input state and the result state are legal. -/
theorem resetInv : Obligations.ResetInv := by
  have hreset (c : Params) (hc : c.ok = true) : (State.resetOf c).Inv ∧ (State.resetOf c).resultsFit :=
    (State.inputsOk_resetOf hc).inv_of_legal (ResultState.reset_legal c)
  refine ⟨?_, hreset⟩
  rw [State.reset]
  exact hreset _ default_ok

end Sys2Proof.Machine
end

section
/-! The address map of `20_memory.md` R61, R66 and R67 read both ways, from a location to its offset and back, and
statement O7. -/

namespace Sys2Proof

/-! ## The bounds of legal parameters -/

section
variable {c : Params} (h : c.ok = true)
include h

theorem Params.opb_le : c.opb ≤ 0x7F00 := by
  simp only [Params.ok, Bool.and_eq_true, decide_eq_true_eq] at h
  omega

theorem Params.ibufCap_le : c.ibufCap ≤ 0xFF00 := by
  simp only [Params.ok, Bool.and_eq_true, decide_eq_true_eq] at h
  omega

theorem Params.traceCap_lt : c.traceCap < 2 ^ 32 := by
  simp only [Params.ok, Bool.and_eq_true, decide_eq_true_eq] at h
  omega

theorem Params.mapCap_lt : c.mapCap < 2 ^ 32 := by
  simp only [Params.ok, Bool.and_eq_true, decide_eq_true_eq] at h
  omega

theorem Params.obufCap_le : c.obufCap ≤ 0x7F00 := by
  have := Params.opb_le h
  simp only [Params.obufCap]
  omega

/-- `PBUF` fits its page of 64 KiB (R61). -/
theorem Params.pbufCap_le : c.pbufCap ≤ 0xFF80 := by
  have := Params.ibufCap_le h
  simp only [Params.pbufCap]
  omega

/-- The magnitude of an integer block ends within its page (R66). -/
theorem Machine.IntBlock.cap_le (b : Machine.IntBlock) : b.cap c ≤ 0xFE00 := by
  have := Params.opb_le h
  cases b <;> simp only [Machine.IntBlock.cap, Params.resb] <;> omega

end

end Sys2Proof

namespace Sys2Proof.Machine

open Sys2Proof

/-! ## Integer blocks and their pages -/

/-- No integer block lies in a page of the registers, the buffers or the record window (R61). -/
theorem IntBlock.page_ne (b : IntBlock) :
    b.page ≠ 0x00 ∧ b.page ≠ 0x09 ∧ b.page ≠ 0x0A ∧ b.page ≠ 0x0B ∧ b.page ≠ 0x0C := by
  cases b <;> simp only [IntBlock.page] <;> omega

/-- The page of an integer block holds that block (R61). -/
@[simp] theorem blockOfPage_page (b : IntBlock) : blockOfPage b.page = some b := by
  cases b with
  | x k => revert k; decide
  | r k => revert k; decide
  | f k => revert k; decide
  | map => rfl

/-! ## Locations of width 32 -/

/-- The location found at an offset has that offset (R61, R66, R67). -/
theorem addr_of_wordLocAt {addr : Nat} {loc : WordLoc} (h : wordLocAt addr = some loc) : loc.addr = addr := by
  have hsplit := Nat.div_add_mod addr 0x10000
  unfold wordLocAt at h
  dsimp only at h
  split at h
  case isTrue => split at h <;> cases h <;> simp only [WordLoc.addr] <;> omega
  split at h
  case isTrue =>
    split at h
    case h_5 =>
      split at h <;> cases h
      simp only [WordLoc.addr]
      omega
    all_goals
      cases h
      simp only [WordLoc.addr]
      omega
  case isFalse =>
    split at h
    case h_2 => cases h
    case h_1 b hb =>
      have hpage := page_of_blockOfPage hb
      split_ifs at h <;> cases h <;> simp only [WordLoc.addr, hpage] <;> omega

/-- At an offset in the page of an integer block, the map looks in that block only (R66). -/
theorem wordLocAt_block (b : IntBlock) {off : Nat} (h : off < 0x10000) :
    wordLocAt (0x10000 * b.page + off)
      = if off = 0x00 then some (.sign b) else if off = 0x04 then some (.len b) else none := by
  obtain ⟨h0, -, -, -, hC⟩ := b.page_ne
  have hpage : (0x10000 * b.page + off) / 0x10000 = b.page := by omega
  have hoff : (0x10000 * b.page + off) % 0x10000 = off := by omega
  simp only [wordLocAt, hpage, hoff, if_neg h0, if_neg hC, blockOfPage_page]

/-- At the offset of a location the map finds that location (R61, R66, R67). -/
@[simp] theorem wordLocAt_addr (loc : WordLoc) : wordLocAt loc.addr = some loc := by
  cases loc with
  | sign b => exact wordLocAt_block b (off := 0x00) (by omega)
  | len b => exact wordLocAt_block b (off := 0x04) (by omega)
  | recW j => revert j; decide
  | _ => rfl

theorem wordLocAt_eq_some_iff (addr : Nat) (loc : WordLoc) : wordLocAt addr = some loc ↔ loc.addr = addr :=
  ⟨addr_of_wordLocAt, by rintro rfl; exact wordLocAt_addr loc⟩

/-- Every location of width 32 is aligned (R63). -/
theorem WordLoc.addr_mod_four (loc : WordLoc) : loc.addr % 4 = 0 := by
  cases loc <;> simp only [WordLoc.addr] <;> omega

/-! ## Locations of width 8 -/

section
variable {c : Params}

@[simp] theorem ByteLoc.inRange_mag (b : IntBlock) (i : Nat) : (ByteLoc.mag b i).inRange c = true ↔ i < b.cap c :=
  decide_eq_true_iff

@[simp] theorem ByteLoc.inRange_ibuf (i : Nat) : (ByteLoc.ibuf i).inRange c = true ↔ i < c.ibufCap :=
  decide_eq_true_iff

@[simp] theorem ByteLoc.inRange_obuf (i : Nat) : (ByteLoc.obuf i).inRange c = true ↔ i < c.obufCap :=
  decide_eq_true_iff

@[simp] theorem ByteLoc.inRange_pbuf (i : Nat) : (ByteLoc.pbuf i).inRange c = true ↔ i < c.pbufCap :=
  decide_eq_true_iff

@[simp] theorem ByteLoc.inRange_recS (i : Fin 16) : (ByteLoc.recS i).inRange c = true := rfl

@[simp] theorem ByteLoc.inRange_recKey (i : Fin 16) : (ByteLoc.recKey i).inRange c = true := rfl

end

/-- The location found at an offset lies within its array (R61, R66). -/
theorem inRange_of_byteLocAt {c : Params} {addr : Nat} {loc : ByteLoc} (h : byteLocAt c addr = some loc) :
    loc.inRange c = true := by
  unfold byteLocAt at h
  dsimp only at h
  split_ifs at h
  case neg =>
    split at h
    case h_2 => cases h
    case h_1 b hb =>
      split_ifs at h
      cases h
      rw [ByteLoc.inRange_mag]
      omega
  all_goals
    cases h
    simp [*]

/-- At the offset of a location within its array the map finds that location (R61, R66, R67). -/
theorem byteLocAt_addr {c : Params} (hc : c.ok = true) {loc : ByteLoc} (h : loc.inRange c = true) :
    byteLocAt c loc.addr = some loc := by
  cases loc with
  | mag b i =>
    obtain ⟨-, h9, hA, hB, hC⟩ := b.page_ne
    have hi : i < b.cap c := by simpa using h
    have hcap := b.cap_le hc
    have hpage : (0x10000 * b.page + 0x100 + i) / 0x10000 = b.page := by omega
    have hoff : (0x10000 * b.page + 0x100 + i) % 0x10000 = 0x100 + i := by omega
    have hindex : 0x100 + i - 0x100 = i := by omega
    simp only [byteLocAt, ByteLoc.addr, hpage, hoff, hindex, if_neg h9, if_neg hA, if_neg hB, if_neg hC,
      blockOfPage_page]
    rw [if_pos ⟨by omega, hi⟩]
  | ibuf i =>
    have hi : i < c.ibufCap := by simpa using h
    have hcap := Params.ibufCap_le hc
    have hpage : (0x090000 + i) / 0x10000 = 0x09 := by omega
    have hoff : (0x090000 + i) % 0x10000 = i := by omega
    simp only [byteLocAt, ByteLoc.addr, hpage, hoff, hi, if_true]
  | obuf i =>
    have hi : i < c.obufCap := by simpa using h
    have hcap := Params.obufCap_le hc
    have hpage : (0x0A0000 + i) / 0x10000 = 0x0A := by omega
    have hoff : (0x0A0000 + i) % 0x10000 = i := by omega
    simp [byteLocAt, ByteLoc.addr, hpage, hoff, hi]
  | pbuf i =>
    have hi : i < c.pbufCap := by simpa using h
    have hcap := Params.pbufCap_le hc
    have hpage : (0x0B0000 + i) / 0x10000 = 0x0B := by omega
    have hoff : (0x0B0000 + i) % 0x10000 = i := by omega
    simp [byteLocAt, ByteLoc.addr, hpage, hoff, hi]
  | recS i => fin_cases i <;> rfl
  | recKey i => fin_cases i <;> rfl

theorem byteLocAt_eq_some_iff {c : Params} (hc : c.ok = true) (addr : Nat) (loc : ByteLoc) :
    byteLocAt c addr = some loc ↔ loc.inRange c = true ∧ loc.addr = addr :=
  ⟨fun h => ⟨inRange_of_byteLocAt h, addr_of_byteLocAt h⟩, by rintro ⟨h, rfl⟩; exact byteLocAt_addr hc h⟩

/-! ## No byte location inside a 32-bit location -/

/-- Where the 32-bit locations are: the registers, the first eight bytes of an integer block, the record window's
first fields (R61). -/
theorem WordLoc.addr_cases (w : WordLoc) :
    w.addr ≤ 0x20 ∨ (∃ b : IntBlock, w.addr = 0x10000 * b.page ∨ w.addr = 0x10000 * b.page + 0x04)
      ∨ (0x0C0000 ≤ w.addr ∧ w.addr ≤ 0x0C0034) := by
  cases w with
  | sign b => exact .inr (.inl ⟨b, .inl rfl⟩)
  | len b => exact .inr (.inl ⟨b, .inr rfl⟩)
  | _ => simp only [WordLoc.addr]; omega

theorem ByteLoc.addr_not_in_word {c : Params} (hc : c.ok = true) {b : ByteLoc} (h : b.inRange c = true) (w : WordLoc) :
    ¬ (w.addr ≤ b.addr ∧ b.addr < w.addr + 4) := by
  have hibuf := Params.ibufCap_le hc
  have hobuf := Params.obufCap_le hc
  have hpbuf := Params.pbufCap_le hc
  have hw := w.addr_cases
  cases b with
  | mag b i =>
    have hcap := b.cap_le hc
    have hb := b.page_ne
    rw [ByteLoc.inRange_mag] at h
    simp only [ByteLoc.addr]
    rcases hw with hw | ⟨b', hw⟩ | hw <;> omega
  | _ =>
    simp only [ByteLoc.inRange, decide_eq_true_eq] at h
    simp only [ByteLoc.addr]
    rcases hw with hw | ⟨b', hw⟩ | hw
    · omega
    · have hb' := b'.page_ne
      omega
    · omega

/-- Settles O7: the offsets and ranges are those of the definitions, and the map is their inverse. -/
theorem locationMap : Obligations.LocationMap := by
  refine ⟨by decide, fun k => ?_, rfl, fun b i => ⟨rfl, rfl⟩, fun i => ⟨rfl, rfl, rfl⟩,
    ⟨rfl, rfl, rfl, rfl, fun _ => rfl, fun _ => ⟨rfl, rfl⟩⟩, fun c i => ?_, wordLocAt_eq_some_iff,
    fun c addr loc hc => byteLocAt_eq_some_iff hc addr loc,
    fun c b w hc hb => ByteLoc.addr_not_in_word hc hb w⟩
  · simp only [WordLoc.addr, IntBlock.page]
    omega
  · refine ⟨ByteLoc.inRange_ibuf i, ByteLoc.inRange_obuf i, ByteLoc.inRange_pbuf i, fun b => ?_, fun _ => ⟨rfl, rfl⟩⟩
    rw [ByteLoc.inRange_mag]
    cases b <;> simp [IntBlock.cap, Params.resb]

end Sys2Proof.Machine
end

section
/-! One bus access, said by the location it addresses (`20_memory.md` R62, R68, R69, R70), and statements O8, O9, O10,
O11 and O3. -/

namespace Sys2Proof.Machine

open Sys2Proof

/-! ## Reads -/

/-- A 4-byte read at the offset of a location (R62). -/
@[simp] theorem State.read32_addr (s : State) (loc : WordLoc) : s.read32 loc.addr = .ok (s.readWord loc) := by
  simp [State.read32]

/-- A 1-byte read at the offset of a location within its array (R62). -/
theorem State.read8_addr {s : State} (hc : s.cfg.ok = true) {loc : ByteLoc} (h : loc.inRange s.cfg = true) :
    s.read8 loc.addr = .ok (zext32 (s.readByte loc)) := by
  simp [State.read8, byteLocAt_addr hc h]

theorem busAccess_read32_addr (s : State) (loc : WordLoc) :
    busAccess (.read32 loc.addr) s = .next (s.reply (.value (s.readWord loc))) := by
  simp [busAccess]

theorem busAccess_read8_addr {s : State} (hc : s.cfg.ok = true) {loc : ByteLoc} (h : loc.inRange s.cfg = true) :
    busAccess (.read8 loc.addr) s = .next (s.reply (.value (zext32 (s.readByte loc)))) := by
  simp [busAccess, State.read8_addr hc h]

/-! ## Writes -/

/-- The write of a word to `CMD` runs it, and then the bus answers (R70). -/
theorem busAccess_write32_cmd (s : State) (w : Word) :
    busAccess (.write32 WordLoc.cmd.addr w) s = replyAfter (runWord w s) .done := rfl

theorem busAccess_write32_addr (s : State) {loc : WordLoc} (h : loc ≠ .cmd) (v : Word) :
    busAccess (.write32 loc.addr v) s = writeOutcome (s.writeWord loc.addr loc v) := by
  simp only [busAccess, wordLocAt_addr]

theorem busAccess_write8_addr {s : State} (hc : s.cfg.ok = true) {loc : ByteLoc} (h : loc.inRange s.cfg = true)
    (v : Byte) : busAccess (.write8 loc.addr v) s = writeOutcome (s.writeByte loc.addr loc v) := by
  simp only [busAccess, byteLocAt_addr hc h]

/-- A word write takes effect where the location takes the value, and is refused elsewhere (R68, R69 (c), (d)). -/
theorem State.writeWord_takes (s : State) (addr : Nat) {loc : WordLoc} (hloc : loc ≠ .cmd) (v : Word) :
    (loc.takes s.cfg v = true ∧ ∃ u, s.writeWord addr loc v = .ok u)
      ∨ (loc.takes s.cfg v = false ∧ ∃ r, s.writeWord addr loc v = .error (.refused r)) := by
  cases loc with
  | cmd => exact absurd rfl hloc
  | ibufLen => by_cases hv : v.toNat ≤ s.cfg.ibufCap <;> simp [WordLoc.takes, State.writeWord, hv]
  | sign b =>
    cases b with
    | x k => by_cases hv : v.toNat ≤ 1 <;> simp [WordLoc.takes, State.writeWord, hv]
    | _ => simp [WordLoc.takes, State.writeWord]
  | len b =>
    cases b with
    | x k => by_cases hv : v.toNat ≤ s.cfg.opb <;> simp [WordLoc.takes, State.writeWord, hv]
    | _ => simp [WordLoc.takes, State.writeWord]
  | _ => simp [WordLoc.takes, State.writeWord]

/-- A byte write to a host-written location changes the memory at its offset (R68). -/
theorem State.writeByte_hostWritten (s : State) {loc : ByteLoc} (h : loc.hostWritten = true) (v : Byte) :
    s.writeByte loc.addr loc v = .ok { s with mem := s.mem.write loc.addr v } := by
  cases loc with
  | mag b i =>
    cases b with
    | x k => rw [← xMagAddr_eq_addr]; rfl
    | _ => cases h
  | ibuf i => rfl
  | _ => cases h

/-- A byte write to a location that is not host-written is refused (R69 (c)). -/
theorem State.writeByte_readOnly (s : State) (addr : Nat) {loc : ByteLoc} (h : loc.hostWritten = false) (v : Byte) :
    s.writeByte addr loc v = .error (.refused (.readOnly addr)) := by
  cases loc with
  | mag b i =>
    cases b with
    | x k => cases h
    | _ => rfl
  | ibuf i => cases h
  | _ => rfl

/-! ## Stops -/

/-- A 32-bit location lies over an offset exactly when one is found at the aligned offset (R62). -/
theorem wordLocAt_aligned_isSome_iff (a : Nat) :
    (wordLocAt (a - a % 4)).isSome = true ↔ ∃ loc : WordLoc, loc.addr ≤ a ∧ a < loc.addr + 4 := by
  simp only [Option.isSome_iff_exists, wordLocAt_eq_some_iff]
  refine exists_congr fun loc => ?_
  have := loc.addr_mod_four
  omega

theorem byteLocAt_isSome_iff {c : Params} (hc : c.ok = true) (a : Nat) :
    (byteLocAt c a).isSome = true ↔ ∃ loc : ByteLoc, loc.inRange c = true ∧ loc.addr = a := by
  simp only [Option.isSome_iff_exists, byteLocAt_eq_some_iff hc]

/-- A 4-byte access where no 32-bit location is: a refusal where something is, a fault where nothing is. -/
theorem stop32_cases {c : Params} (hc : c.ok = true) (a : Nat) :
    (offsetUsed c a ∧ ∃ r, stop32 c a = .refused r) ∨ (¬ offsetUsed c a ∧ ∃ r, stop32 c a = .fault r) := by
  rw [offsetUsed, ← byteLocAt_isSome_iff hc, ← wordLocAt_aligned_isSome_iff, stop32]
  split
  case isTrue hbyte => exact .inl ⟨.inl hbyte, _, rfl⟩
  case isFalse hbyte =>
    split
    case isTrue hword => exact .inl ⟨.inr hword, _, rfl⟩
    case isFalse hword => exact .inr ⟨by rintro (h | h) <;> contradiction, _, rfl⟩

/-- A 1-byte access where no byte location is: a refusal where something is, a fault where nothing is. -/
theorem stop8_cases {c : Params} (hc : c.ok = true) {a : Nat} (hnone : byteLocAt c a = none) :
    (offsetUsed c a ∧ ∃ r, stop8 a = .refused r) ∨ (¬ offsetUsed c a ∧ ∃ r, stop8 a = .fault r) := by
  rw [offsetUsed, ← byteLocAt_isSome_iff hc, ← wordLocAt_aligned_isSome_iff, stop8, hnone]
  split
  case isTrue hword => exact .inl ⟨.inr hword, _, rfl⟩
  case isFalse hword => exact .inr ⟨by rintro (h | h) <;> contradiction, _, rfl⟩

theorem offsetUsed_wordLoc (c : Params) (loc : WordLoc) : offsetUsed c loc.addr := .inr ⟨loc, by omega⟩

theorem offsetUsed_byteLoc {c : Params} {loc : ByteLoc} (h : loc.inRange c = true) : offsetUsed c loc.addr :=
  .inl ⟨loc, h, rfl⟩

/-- The offset names one 32-bit location. -/
theorem WordLoc.addr_injective {loc loc' : WordLoc} (h : loc.addr = loc'.addr) : loc = loc' :=
  Option.some_injective _ (by rw [← wordLocAt_addr loc, h, wordLocAt_addr])

/-- The offset names one byte location. -/
theorem ByteLoc.addr_injective {c : Params} (hc : c.ok = true) {loc loc' : ByteLoc} (hr : loc.inRange c = true)
    (hr' : loc'.inRange c = true) (h : loc.addr = loc'.addr) : loc = loc' :=
  Option.some_injective _ (by rw [← byteLocAt_addr hc hr, h, byteLocAt_addr hc hr'])

/-! ## Which accesses take effect -/

/-- Every command word, legal or not, ends with a next state (R98, R278). -/
theorem runWord_next (w : Word) (s : State) : ∃ u, runWord w s = .next u := by
  cases hd : decode w with
  | error e => exact ⟨_, runWord_error hd s⟩
  | ok i =>
    rw [runWord_ok hd, exec_eq_runCommand_commandRule]
    rcases runCommand_cases (commandRule i) (s.withCmd w) with ⟨o, -, h⟩ | ⟨e, -, h⟩ <;> exact ⟨_, h⟩

/-- The three ways a bus access can end: it is allowed and takes effect; something is at its offset and it is refused;
nothing is there and it faults (R69). -/
def AccessEnds (s : State) (a : BusAccess) : Prop :=
  (accessAllowed s.cfg a ∧ offsetUsed s.cfg a.addr ∧ ∃ t, busAccess a s = .next t)
    ∨ (¬ accessAllowed s.cfg a ∧ offsetUsed s.cfg a.addr ∧ ∃ r, busAccess a s = .refused r)
    ∨ (¬ accessAllowed s.cfg a ∧ ¬ offsetUsed s.cfg a.addr ∧ ∃ e, busAccess a s = .fault e)

/-- An access that is not allowed and stops as the map says. -/
theorem accessEnds_of_stop {s : State} {a : BusAccess} {e : BusStop} (hallowed : ¬ accessAllowed s.cfg a)
    (haccess : busAccess a s = e.outcome)
    (he : (offsetUsed s.cfg a.addr ∧ ∃ r, e = .refused r) ∨ (¬ offsetUsed s.cfg a.addr ∧ ∃ r, e = .fault r)) :
    AccessEnds s a := by
  rcases he with ⟨hused, r, rfl⟩ | ⟨hused, r, rfl⟩
  · exact .inr (.inl ⟨hallowed, hused, r, haccess⟩)
  · exact .inr (.inr ⟨hallowed, hused, r, haccess⟩)

/-- No 32-bit location is at an offset where the map finds none. -/
theorem WordLoc.addr_ne_of_none {addr : Nat} (h : wordLocAt addr = none) (loc : WordLoc) : loc.addr ≠ addr := by
  rintro rfl
  simp at h

/-- No byte location within its array is at an offset where the map finds none. -/
theorem ByteLoc.addr_ne_of_none {c : Params} (hc : c.ok = true) {addr : Nat} (h : byteLocAt c addr = none)
    {loc : ByteLoc} (hr : loc.inRange c = true) : loc.addr ≠ addr := by
  rintro rfl
  simp [byteLocAt_addr hc hr] at h

theorem accessEnds_read32 {s : State} (hc : s.cfg.ok = true) (addr : Nat) : AccessEnds s (.read32 addr) := by
  cases hl : wordLocAt addr with
  | some loc =>
    obtain rfl := addr_of_wordLocAt hl
    exact .inl ⟨⟨loc, rfl⟩, offsetUsed_wordLoc _ loc, _, busAccess_read32_addr s loc⟩
  | none =>
    refine accessEnds_of_stop ?_ (by simp only [busAccess, State.read32, hl]) (stop32_cases hc addr)
    rintro ⟨loc, h⟩
    exact loc.addr_ne_of_none hl h

theorem accessEnds_read8 {s : State} (hc : s.cfg.ok = true) (addr : Nat) : AccessEnds s (.read8 addr) := by
  cases hl : byteLocAt s.cfg addr with
  | some loc =>
    obtain ⟨hr, rfl⟩ := (byteLocAt_eq_some_iff hc addr loc).mp hl
    exact .inl ⟨⟨loc, hr, rfl⟩, offsetUsed_byteLoc hr, _, busAccess_read8_addr hc hr⟩
  | none =>
    refine accessEnds_of_stop ?_ (by simp only [busAccess, State.read8, hl, BusAccess.addr]) (stop8_cases hc hl)
    rintro ⟨loc, hr, h⟩
    exact ByteLoc.addr_ne_of_none hc hl hr h

theorem accessEnds_write32 {s : State} (hc : s.cfg.ok = true) (addr : Nat) (v : Word) :
    AccessEnds s (.write32 addr v) := by
  cases hl : wordLocAt addr with
  | some loc =>
    obtain rfl := addr_of_wordLocAt hl
    have hused := offsetUsed_wordLoc s.cfg loc
    by_cases hcmd : loc = .cmd
    · subst hcmd
      obtain ⟨u, hu⟩ := runWord_next v s
      exact .inl ⟨⟨.cmd, rfl, rfl⟩, hused, _, by rw [busAccess_write32_cmd, hu]; rfl⟩
    · rcases s.writeWord_takes loc.addr hcmd v with ⟨htakes, u, hu⟩ | ⟨htakes, r, hr⟩
      · exact .inl ⟨⟨loc, rfl, htakes⟩, hused, _, by rw [busAccess_write32_addr s hcmd, hu]; rfl⟩
      · refine .inr (.inl ⟨?_, hused, r, by rw [busAccess_write32_addr s hcmd, hr]; rfl⟩)
        rintro ⟨loc', haddr, htakes'⟩
        obtain rfl := WordLoc.addr_injective haddr
        simp [htakes] at htakes'
  | none =>
    refine accessEnds_of_stop ?_ (by simp only [busAccess, hl]) (stop32_cases hc addr)
    rintro ⟨loc, h, -⟩
    exact loc.addr_ne_of_none hl h

theorem accessEnds_write8 {s : State} (hc : s.cfg.ok = true) (addr : Nat) (v : Byte) :
    AccessEnds s (.write8 addr v) := by
  cases hl : byteLocAt s.cfg addr with
  | some loc =>
    obtain ⟨hr, rfl⟩ := (byteLocAt_eq_some_iff hc addr loc).mp hl
    have hused := offsetUsed_byteLoc hr
    cases hw : loc.hostWritten with
    | true =>
      exact .inl ⟨⟨loc, hr, rfl, hw⟩, hused, _, by
        rw [busAccess_write8_addr hc hr, s.writeByte_hostWritten hw]; rfl⟩
    | false =>
      refine .inr (.inl ⟨?_, hused, _, by rw [busAccess_write8_addr hc hr, s.writeByte_readOnly _ hw]; rfl⟩)
      rintro ⟨loc', hr', haddr, hw'⟩
      obtain rfl := ByteLoc.addr_injective hc hr' hr haddr
      simp [hw] at hw'
  | none =>
    refine accessEnds_of_stop ?_ (by simp only [busAccess, hl, BusAccess.addr]) (stop8_cases hc hl)
    rintro ⟨loc, hr, h, -⟩
    exact ByteLoc.addr_ne_of_none hc hl hr h

theorem busAccess_ends {s : State} (hc : s.cfg.ok = true) (a : BusAccess) : AccessEnds s a := by
  cases a with
  | read32 addr => exact accessEnds_read32 hc addr
  | read8 addr => exact accessEnds_read8 hc addr
  | write32 addr v => exact accessEnds_write32 hc addr v
  | write8 addr v => exact accessEnds_write8 hc addr v

/-- Settles O8: an access ends in exactly one of three ways, as the location at its offset says. -/
theorem accessTakesStep : Obligations.AccessTakesStep := by
  intro s a rest hc hp
  rw [step_access hp]
  rcases busAccess_ends (s := s.withPending rest) hc a with
    ⟨hallowed, hused, t, h⟩ | ⟨hallowed, hused, r, h⟩ | ⟨hallowed, hused, e, h⟩ <;>
  · simp only [State.withPending_cfg] at hallowed hused
    simp [h, hallowed, hused]

/-- Settles O9: a read answers at the offset of the location, and the reply is all it adds. -/
theorem readAnswers : Obligations.ReadAnswers := by
  refine fun s rest hc => ⟨fun loc hp => ?_, fun loc hr hp => ⟨_, zext32_toNat (s.readByte loc), ?_⟩⟩
  · rw [step_access hp, busAccess_read32_addr]
    rfl
  · rw [step_access hp, busAccess_read8_addr (s := s.withPending rest) hc hr]
    rfl

/-! ## What a write leaves -/

/-- A host-written byte location reads the memory at its offset. -/
theorem State.readByte_hostWritten (s : State) {loc : ByteLoc} (h : loc.hostWritten = true) :
    s.readByte loc = s.mem.read loc.addr := by
  cases loc with
  | mag b i =>
    cases b with
    | x k => rw [← xMagAddr_eq_addr]; rfl
    | _ => cases h
  | ibuf i => rfl
  | _ => cases h

/-- A byte location that is not host-written does not read the memory. -/
theorem State.readByte_withMem (s : State) (m : Memory) {loc : ByteLoc} (h : loc.hostWritten = false) :
    { s with mem := m }.readByte loc = s.readByte loc := by
  cases loc with
  | mag b i =>
    cases b with
    | x k => cases h
    | _ => rfl
  | ibuf i => cases h
  | _ => rfl

/-- Settles O10: the write changes the memory at one offset, which one location alone has. -/
theorem byteWriteEffect : Obligations.ByteWriteEffect := by
  intro s loc v rest hc hm hr hw hp
  refine ⟨s.mem.write loc.addr v, ?_, Memory.write_wf _ hm _ _, Memory.read_write _ hm _ _, fun loc' hr' => ?_⟩
  · rw [step_access hp, busAccess_write8_addr (s := s.withPending rest) hc hr, State.writeByte_hostWritten _ hw]
    rfl
  · cases hw' : loc'.hostWritten with
    | false =>
      rw [s.readByte_withMem _ hw', if_neg]
      rintro rfl
      simp [hw] at hw'
    | true =>
      rw [State.readByte_hostWritten _ hw', State.readByte_hostWritten _ hw', Memory.read_write _ hm]
      exact if_congr ⟨ByteLoc.addr_injective hc hr' hr, congrArg _⟩ rfl rfl

/-- A 4-byte write that takes effect leaves everything but `X`, `IBUF_LEN` and the two indices alone (R68). -/
theorem State.writeWord_frame {s u : State} {addr : Nat} {loc : WordLoc} {v : Word}
    (h : s.writeWord addr loc v = .ok u) :
    u.cfg = s.cfg ∧ u.mem = s.mem ∧ u.cmd = s.cmd ∧ u.out = s.out ∧ u.pending = s.pending ∧ u.replies = s.replies := by
  rcases State.writeWord_cases h with ⟨-, -, rfl⟩ | ⟨-, rfl⟩ | ⟨-, rfl⟩ | ⟨k, -, -, rfl⟩ | ⟨k, -, -, rfl⟩ <;>
    exact ⟨rfl, rfl, rfl, rfl, rfl, rfl⟩

/-- What an operand register holds after a write to one. -/
@[simp] theorem getElem_set_opReg (x : Vector OpReg 4) (k j : Fin 4) (r : OpReg) :
    (x.set k.val r)[j.val] = if k = j then r else x[j.val] := by
  simp [Fin.ext_iff, Vector.getElem_set]

/-- The registers a host writes, but `CMD`, after a 4-byte write: the one written holds the value (R68). -/
theorem State.writeWord_registers {s u : State} {addr : Nat} {loc : WordLoc} {v : Word}
    (h : s.writeWord addr loc v = .ok u) :
    (u.ibufLen = if loc = .ibufLen then v else s.ibufLen)
      ∧ (u.traceIdx = if loc = .traceIdx then v else s.traceIdx)
      ∧ (u.mapIdx = if loc = .mapIdx then v else s.mapIdx)
      ∧ (∀ j : Fin 4, u.x[j].sign = if loc = .sign (.x j) then v.setWidth 1 else s.x[j].sign)
      ∧ ∀ j : Fin 4, u.x[j].len = if loc = .len (.x j) then v else s.x[j].len := by
  rcases State.writeWord_cases h with ⟨rfl, -, rfl⟩ | ⟨rfl, rfl⟩ | ⟨rfl, rfl⟩ | ⟨k, rfl, -, rfl⟩ | ⟨k, rfl, -, rfl⟩
  case inr.inr.inr.inl =>
    refine ⟨by simp, by simp, by simp, fun j => ?_, fun j => ?_⟩ <;> by_cases hj : k = j <;> simp [hj]
  case inr.inr.inr.inr =>
    refine ⟨by simp, by simp, by simp, fun j => ?_, fun j => ?_⟩ <;> by_cases hj : k = j <;> simp [hj]
  all_goals simp

/-- The 32-bit locations a host writes (R61): 0 is a value that each of them takes. -/
theorem WordLoc.takes_zero_cases {c : Params} {loc : WordLoc} (h : loc.takes c 0 = true) :
    loc = .cmd ∨ loc = .ibufLen ∨ loc = .traceIdx ∨ loc = .mapIdx ∨ (∃ k, loc = .sign (.x k))
      ∨ ∃ k, loc = .len (.x k) := by
  cases loc with
  | sign b => cases b <;> simp_all [WordLoc.takes]
  | len b => cases b <;> simp_all [WordLoc.takes]
  | _ => simp_all [WordLoc.takes]

/-- A `SIGN` in range is kept by the one bit it is stored in (R22). -/
theorem setWidth_sign {v : Word} (h : v.toNat ≤ 1) : (v.setWidth 1).setWidth 32 = v := by
  apply BitVec.eq_of_toNat_eq
  simp only [BitVec.toNat_setWidth]
  omega

/-- The location written reads the value written (R68). -/
theorem State.readWord_writeWord_same {s u : State} {addr : Nat} {loc : WordLoc} {v : Word}
    (h : s.writeWord addr loc v = .ok u) : u.readWord loc = v := by
  rcases State.writeWord_cases h with ⟨rfl, -, rfl⟩ | ⟨rfl, rfl⟩ | ⟨rfl, rfl⟩ | ⟨k, rfl, hv, rfl⟩ | ⟨k, rfl, -, rfl⟩
  case inr.inr.inr.inl => simp [State.readWord, State.readSign, setWidth_sign hv]
  case inr.inr.inr.inr => simp [State.readWord, State.readLen]
  all_goals rfl

/-- Every other location a host writes reads as before (R68). -/
theorem State.readWord_writeWord_other {s u : State} {addr : Nat} {loc loc' : WordLoc} {v : Word}
    (h : s.writeWord addr loc v = .ok u) (hne : loc' ≠ loc) (hhost : loc'.takes s.cfg 0 = true) :
    u.readWord loc' = s.readWord loc' := by
  obtain ⟨-, -, hcmd, -⟩ := State.writeWord_frame h
  obtain ⟨hibuf, htrace, hmap, hsign, hlen⟩ := State.writeWord_registers h
  rcases WordLoc.takes_zero_cases hhost with rfl | rfl | rfl | rfl | ⟨j, rfl⟩ | ⟨j, rfl⟩
  · exact hcmd
  · exact hibuf.trans (if_neg hne.symm)
  · exact htrace.trans (if_neg hne.symm)
  · exact hmap.trans (if_neg hne.symm)
  · simp only [State.readWord, State.readSign, hsign, if_neg hne.symm]
  · simp only [State.readWord, State.readLen, hlen, if_neg hne.symm]

/-- Settles O11: a value the location takes is written there and nowhere else. -/
theorem wordWriteEffect : Obligations.WordWriteEffect := by
  intro s loc v rest hcmd htakes hp
  rcases (s.withPending rest).writeWord_takes loc.addr hcmd v with ⟨-, u, hu⟩ | ⟨hnot, -⟩
  case inr => simp [htakes] at hnot
  have hread := State.readWord_writeWord_same hu
  have hother (loc' : WordLoc) := State.readWord_writeWord_other (loc' := loc') hu
  obtain ⟨hcfg, hmem, hcmdReg, hout, hpending, hreplies⟩ := State.writeWord_frame hu
  refine ⟨u.reply .done, ?_, hread, hother, hcfg, hmem, hcmdReg, hout, hpending, ?_⟩
  · rw [step_access hp, busAccess_write32_addr _ hcmd, hu]
    rfl
  · rw [State.reply_replies, hreplies, State.withPending_replies]

/-! ## Commands -/

/-- Settles O3: the write to `CMD` is the whole command. -/
theorem stepRunsCommand : Obligations.StepRunsCommand := by
  have hstep (s : State) (w : Word) (i : Instr) (rest : List BusEvent) (hd : decode w = .ok i)
      (hp : s.pending = .access (.write32 0x000000 w) :: rest) :
      step s = replyAfter (exec i { s with pending := rest, cmd := w }) .done := by
    rw [step_access hp]
    change replyAfter (runWord w (s.withPending rest)) .done = _
    rw [runWord_ok hd]
    rfl
  refine ⟨fun s w i rest hd hp => ⟨hstep s w i rest hd hp, fun t ht => ?_⟩, fun s i hd => ?_⟩
  · rw [hstep s w i rest hd hp, ht]
    rfl
  · have hword : BitVec.ofNat 32 ((encode i).toNat % 2 ^ 32) = encode i := by
      rw [Nat.mod_eq_of_lt (encode i).isLt, BitVec.ofNat_toNat, BitVec.setWidth_eq]
    rw [State.withFetchWord, hword, hstep _ _ i s.pending hd rfl]
    rfl

end Sys2Proof.Machine
end

section
/-! The bus sequences `LDX` and `LDB` of `20_memory.md` R77, and statement O12. -/

namespace Sys2Proof.Machine

open Sys2Proof

/-! ## Byte strings in memory -/

/-- The memory with a byte string written to consecutive offsets. -/
def Memory.writeBytes : Memory → Nat → List Byte → Memory
  | m, _, [] => m
  | m, a, b :: bs => Memory.writeBytes (m.write a b) (a + 1) bs

/-- The string leaves every offset outside it alone. -/
theorem Memory.read_writeBytes_other {m : Memory} (hm : m.wf) (bs : List Byte) {a a' : Nat}
    (h : ¬ (a ≤ a' ∧ a' < a + bs.length)) : (m.writeBytes a bs).read a' = m.read a' := by
  induction bs generalizing m a with
  | nil => rfl
  | cons b bs ih =>
    rw [List.length_cons] at h
    rw [Memory.writeBytes, ih (Memory.write_wf m hm a b) (by omega), Memory.read_write_other m hm a a' b (by omega)]

/-- Each offset of the string reads its byte. -/
theorem Memory.read_writeBytes_same {m : Memory} (hm : m.wf) {bs : List Byte} (a : Nat) {i : Nat}
    (hi : i < bs.length) : (m.writeBytes a bs).read (a + i) = bs[i] := by
  induction bs generalizing m a i with
  | nil => simp at hi
  | cons b bs ih =>
    have hm' := Memory.write_wf m hm a b
    rw [Memory.writeBytes]
    cases i with
    | zero => rw [Memory.read_writeBytes_other hm' bs (by omega), Nat.add_zero, Memory.read_write_same m hm]; rfl
    | succ i => rw [show a + (i + 1) = a + 1 + i by omega, ih hm' (a + 1) (by simpa using hi)]; rfl

/-- The string reads back. -/
theorem Memory.bytes_writeBytes_same {m : Memory} (hm : m.wf) (a : Nat) (bs : List Byte) :
    (m.writeBytes a bs).bytes a bs.length = bs := by
  refine List.ext_getElem (Memory.length_bytes _ _ _) fun i _ hi => ?_
  simpa [Memory.bytes] using Memory.read_writeBytes_same hm a hi

/-- A byte string elsewhere reads as before. -/
theorem Memory.bytes_writeBytes_other {m : Memory} (hm : m.wf) (bs : List Byte) {a a' n : Nat}
    (h : ∀ i < n, ¬ (a ≤ a' + i ∧ a' + i < a + bs.length)) : (m.writeBytes a bs).bytes a' n = m.bytes a' n :=
  Memory.bytes_congr _ _ _ _ fun i hi => Memory.read_writeBytes_other hm bs (h i hi)

/-! ## The updates that loads are made of -/

/-- `X[k] <- r`. -/
def State.setX (s : State) (k : Fin 4) (r : OpReg) : State := { s with x := s.x.set k r }

/-- A byte string written to consecutive offsets. -/
def State.setBytes (s : State) (a : Nat) (bs : List Byte) : State := { s with mem := s.mem.writeBytes a bs }

/-- `IBUF_LEN <- w`. -/
def State.setIbufLen (s : State) (w : Word) : State := { s with ibufLen := w }

/-- What the bus has answered. -/
def State.withReplies (s : State) (rs : List BusReply) : State := { s with replies := rs }

/-! ## Sequences of writes -/

theorem hostByte_addr {c : Params} (hc : c.ok = true) {loc : ByteLoc} (hr : loc.inRange c = true) :
    hostByte c loc.addr = loc.hostWritten := by
  rw [hostByte, byteLocAt_addr hc hr]
  cases loc with
  | mag b i => cases b <;> rfl
  | _ => rfl

/-- A 1-byte write at a host-written offset takes effect (R68). -/
theorem busAccess_write8_hostByte {s : State} {a : Nat} (h : hostByte s.cfg a = true) (v : Byte) :
    busAccess (.write8 a v) s = .next ({ s with mem := s.mem.write a v }.reply .done) := by
  unfold hostByte at h
  split at h
  case h_3 => cases h
  all_goals
    rename_i hloc
    obtain rfl := addr_of_byteLocAt hloc
    simp only [busAccess, hloc]
    rw [State.writeByte_hostWritten _ rfl]
    rfl

/-- A 4-byte write that takes effect, and is no command. -/
theorem busAccess_write32_ok {s u : State} {loc : WordLoc} {v : Word} (hne : loc ≠ .cmd)
    (h : s.writeWord loc.addr loc v = .ok u) : busAccess (.write32 loc.addr v) s = .next (u.reply .done) := by
  rw [busAccess_write32_addr s hne, h]
  rfl

/-- The 1-byte writes of a string to host-written offsets change the memory there, and the bus answers each. -/
theorem runAccesses_byteWrites {s : State} {a : Nat} {bs : List Byte}
    (h : ∀ i < bs.length, hostByte s.cfg (a + i) = true) :
    ∃ rs, runAccesses (byteWrites a bs) s = .ok ((s.setBytes a bs).withReplies rs) := by
  induction bs generalizing s a with
  | nil => exact ⟨s.replies, rfl⟩
  | cons b bs ih =>
    have hfirst : hostByte s.cfg a = true := h 0 (by simp)
    rw [byteWrites, runAccesses_cons (busAccess_write8_hostByte hfirst b)]
    refine ih fun i hi => ?_
    rw [show a + 1 + i = a + (i + 1) by omega]
    exact h (i + 1) (by simpa using hi)

/-! ## LDX -/

theorem xBase_eq_addr (k : Fin 4) : xBase k = (WordLoc.sign (.x k)).addr := by
  simp only [xBase, WordLoc.addr, IntBlock.page]
  omega

theorem xBase_add_four_eq_addr (k : Fin 4) : xBase k + 4 = (WordLoc.len (.x k)).addr := by
  simp only [xBase, WordLoc.addr, IntBlock.page]
  omega

/-- Any one-bit sign is written as it is. -/
theorem State.writeWord_sign (s : State) (addr : Nat) (k : Fin 4) (b : BitVec 1) :
    s.writeWord addr (.sign (.x k)) (b.setWidth 32) = .ok (s.setX k { s.x[k] with sign := b }) := by
  have hb := b.isLt
  have hle : (b.setWidth 32).toNat ≤ 1 := by
    rw [BitVec.toNat_setWidth]
    omega
  have hback : (b.setWidth 32).setWidth 1 = b := by
    apply BitVec.eq_of_toNat_eq
    simp only [BitVec.toNat_setWidth]
    omega
  simp only [State.writeWord, hle, hback, if_true]
  rfl

/-- A length within the bound is written as it is. -/
theorem State.writeWord_len {s : State} (addr : Nat) (k : Fin 4) {w : Word} (h : w.toNat ≤ s.cfg.opb) :
    s.writeWord addr (.len (.x k)) w = .ok (s.setX k { s.x[k] with len := w }) := by
  simp only [State.writeWord, h, if_true]
  rfl

/-- The raw form that `LDX` gives an operand register (R26). -/
def canonReg (v : Int) : OpReg := ⟨canonSign v, BitVec.ofNat 32 (canonMag v).length⟩

/-- An integer that fits an operand register has that many bytes (R24). -/
theorem length_canonMag_le {v : Int} {n : Nat} (hv : v.natAbs < 256 ^ n) : (canonMag v).length ≤ n :=
  (length_minBytes_le_iff _ _).mpr hv

/-- A length below 2^32 is kept by a 32-bit register. -/
theorem toNat_ofNat_word {n : Nat} (h : n < 2 ^ 32) : (BitVec.ofNat 32 n).toNat = n := by
  rw [BitVec.toNat_ofNat, Nat.mod_eq_of_lt h]

/-- The state after `LDX k, v`, with what the bus has answered. -/
def State.afterLdx (s : State) (k : Fin 4) (v : Int) (rs : List BusReply) : State :=
  ((s.setX k (canonReg v)).setBytes (xMagAddr k 0) (canonMag v)).withReplies rs

/-- The bus sequence of `LDX` completes: the canonical form of the integer stands in the register (R77). -/
theorem runAccesses_ldx {s : State} (hc : s.cfg.ok = true) (k : Fin 4) {v : Int} (hv : v.natAbs < 256 ^ s.cfg.opb) :
    ∃ rs, runAccesses (ldxAccesses k v) s = .ok (s.afterLdx k v rs) := by
  have hlen := length_canonMag_le hv
  have hopb := Params.opb_le hc
  rw [ldxAccesses, xBase_add_four_eq_addr, xBase_eq_addr, runAccesses_cons
    (busAccess_write32_ok (by simp) (s.writeWord_sign _ k (canonSign v)))]
  have hhost : ∀ i < (canonMag v).length, hostByte s.cfg (xMagAddr k 0 + i) = true := fun i hi => by
    have hr : (ByteLoc.mag (.x k) i).inRange s.cfg = true := (ByteLoc.inRange_mag _ _).mpr (lt_of_lt_of_le hi hlen)
    rw [show xMagAddr k 0 + i = xMagAddr k i from rfl, xMagAddr_eq_addr, hostByte_addr hc hr]
    rfl
  obtain ⟨rs, hbytes⟩ := runAccesses_byteWrites
    (s := (s.setX k { s.x[k] with sign := canonSign v }).reply .done) hhost
  have hword : (BitVec.ofNat 32 (canonMag v).length).toNat ≤ s.cfg.opb := by
    rwa [toNat_ofNat_word (by omega)]
  rw [runAccesses_append hbytes,
    runAccesses_cons (busAccess_write32_ok (by simp) (State.writeWord_len _ k (by exact hword)))]
  refine ⟨.done :: rs, ?_⟩
  simp [State.afterLdx, State.setX, State.setBytes, State.withReplies, State.reply, canonReg]

/-- The canonical raw form has the value of the integer (R22, R26). -/
@[simp] theorem signedVal_canon (v : Int) : signedVal (canonSign v) (beVal (canonMag v)) = v := by
  rw [canonMag, beVal_minBytes]
  by_cases hv : v < 0
  · simp only [canonSign, signedVal, if_pos hv, if_true]
    omega
  · simp only [canonSign, signedVal, if_neg hv, show (0 : BitVec 1) ≠ 1 by decide, if_false]
    omega

section
variable {s : State} (k : Fin 4) {v : Int} (rs : List BusReply)

theorem State.xVal_afterLdx_same (hm : s.mem.wf) (hv : (canonMag v).length < 2 ^ 32) :
    (s.afterLdx k v rs).xVal k = v := by
  have hreg : (s.x.set k (canonReg v))[k] = canonReg v := by simp
  have hlen : (canonReg v).len.toNat = (canonMag v).length := toNat_ofNat_word hv
  simp only [State.xVal, State.xMag, State.afterLdx, State.setX, State.setBytes, State.withReplies, hreg, hlen,
    Memory.bytes_writeBytes_same hm]
  exact signedVal_canon v

theorem State.x_afterLdx_other {j : Fin 4} (hj : j ≠ k) : (s.afterLdx k v rs).x[j] = s.x[j] := by
  simp [State.afterLdx, State.setX, State.setBytes, State.withReplies, Ne.symm hj]

/-- Magnitudes of at most OPB bytes lie apart, each in the page of its block (R61, R66). -/
theorem State.xVal_afterLdx_other (hc : s.cfg.ok = true) (hl : s.lensOk) (hm : s.mem.wf)
    (hv : (canonMag v).length ≤ s.cfg.opb) {j : Fin 4} (hj : j ≠ k) : (s.afterLdx k v rs).xVal j = s.xVal j := by
  have hbytes : (s.afterLdx k v rs).mem.bytes (xMagAddr j 0) s.x[j].len.toNat
      = s.mem.bytes (xMagAddr j 0) s.x[j].len.toNat := by
    refine Memory.bytes_writeBytes_other hm _ fun i hi => ?_
    have hjlen := hl.1 j
    have hopb := Params.opb_le hc
    have hne : j.val ≠ k.val := fun h => hj (Fin.ext h)
    simp only [xMagAddr, xBase]
    omega
  simp only [State.xVal, State.xMag, State.x_afterLdx_other k rs hj, hbytes]

theorem State.ibuf_afterLdx (hc : s.cfg.ok = true) (hm : s.mem.wf) (hv : (canonMag v).length ≤ s.cfg.opb) :
    (s.afterLdx k v rs).ibuf = s.ibuf := by
  have hopb := Params.opb_le hc
  refine Memory.bytes_writeBytes_other hm _ fun i _ => ?_
  simp only [xMagAddr, xBase, ibufAddr]
  omega

end

/-! ## LDB -/

/-- A length within the bound is written as it is. -/
theorem State.writeWord_ibufLen {s : State} (addr : Nat) {w : Word} (h : w.toNat ≤ s.cfg.ibufCap) :
    s.writeWord addr .ibufLen w = .ok (s.setIbufLen w) := by
  simp only [State.writeWord, h, if_true]
  rfl

/-- The state after `LDB bs`, with what the bus has answered. -/
def State.afterLdb (s : State) (bs : List Byte) (rs : List BusReply) : State :=
  ((s.setIbufLen (BitVec.ofNat 32 bs.length)).setBytes (ibufAddr 0) bs).withReplies rs

/-- The bus sequence of `LDB` completes: the string stands in the input buffer (R77). -/
theorem runAccesses_ldb {s : State} (hc : s.cfg.ok = true) {bs : List Byte} (hbs : bs.length ≤ s.cfg.ibufCap) :
    ∃ rs, runAccesses (ldbAccesses bs) s = .ok (s.afterLdb bs rs) := by
  have hcap := Params.ibufCap_le hc
  have hhost : ∀ i < bs.length, hostByte s.cfg (ibufAddr 0 + i) = true := fun i hi => by
    have hr : (ByteLoc.ibuf i).inRange s.cfg = true := (ByteLoc.inRange_ibuf _).mpr (lt_of_lt_of_le hi hbs)
    exact hostByte_addr hc hr
  obtain ⟨rs, hbytes⟩ := runAccesses_byteWrites hhost
  have hword : (BitVec.ofNat 32 bs.length).toNat ≤ s.cfg.ibufCap := by
    rwa [toNat_ofNat_word (by omega)]
  refine ⟨.done :: rs, ?_⟩
  rw [ldbAccesses, runAccesses_append hbytes,
    runAccesses_cons (busAccess_write32_ok (by simp) (State.writeWord_ibufLen _ (by exact hword)))]
  rfl

section
variable {s : State} {bs : List Byte} (rs : List BusReply)

theorem State.ibuf_afterLdb (hm : s.mem.wf) (hbs : bs.length < 2 ^ 32) : (s.afterLdb bs rs).ibuf = bs := by
  have hlen : (BitVec.ofNat 32 bs.length).toNat = bs.length := toNat_ofNat_word hbs
  simp only [State.ibuf, State.afterLdb, State.setIbufLen, State.setBytes, State.withReplies, hlen,
    Memory.bytes_writeBytes_same hm]

/-- The operand registers lie below the input buffer (R61). -/
theorem State.xVal_afterLdb (hc : s.cfg.ok = true) (hl : s.lensOk) (hm : s.mem.wf) (k : Fin 4) :
    (s.afterLdb bs rs).xVal k = s.xVal k := by
  have hbytes : (s.afterLdb bs rs).mem.bytes (xMagAddr k 0) s.x[k].len.toNat
      = s.mem.bytes (xMagAddr k 0) s.x[k].len.toNat := by
    refine Memory.bytes_writeBytes_other hm _ fun i hi => ?_
    have hlen := hl.1 k
    have hopb := Params.opb_le hc
    simp only [xMagAddr, xBase, ibufAddr]
    omega
  exact congrArg (fun bytes => signedVal s.x[k].sign (beVal bytes)) hbytes

end

/-- Settles O12: each sequence completes in a known state, and the bytes it writes are its own. -/
theorem loadsOperands : Obligations.LoadsOperands := by
  intro s hs
  obtain ⟨hc, hl, hm, -⟩ := hs.inputsOk
  refine ⟨fun k v hv => ?_, fun bs hbs => ?_⟩
  · have hlen := length_canonMag_le hv
    have hopb := Params.opb_le hc
    obtain ⟨rs, hrun⟩ := runAccesses_ldx hc k hv
    exact ⟨_, hrun, State.xVal_afterLdx_same k rs hm (by omega),
      fun j hj => ⟨State.x_afterLdx_other k rs hj, State.xVal_afterLdx_other k rs hc hl hm hlen hj⟩,
      fun a => Memory.read_writeBytes_other hm _, State.ibuf_afterLdx k rs hc hm hlen, rfl, rfl, rfl, rfl, rfl, rfl, rfl⟩
  · have hcap := Params.ibufCap_le hc
    obtain ⟨rs, hrun⟩ := runAccesses_ldb hc hbs
    exact ⟨_, hrun, State.ibuf_afterLdb rs hm (by omega), rfl, State.xVal_afterLdb rs hc hl hm,
      fun a => Memory.read_writeBytes_other hm _, rfl, rfl, rfl, rfl, rfl, rfl⟩

end Sys2Proof.Machine
end

section
/-! The read operations of `20_memory.md` R77, and statement O13. -/

namespace Sys2Proof.Machine

open Sys2Proof

/-! ## Results of a sequence of accesses -/

/-- A sequence goes on with the value that its first part answers. -/
theorem except_ok_bind {ε α β : Type} (a : α) (f : α → Except ε β) : (Except.ok a >>= f) = f a := rfl

theorem except_pure {ε α : Type} (a : α) : (pure a : Except ε α) = .ok a := rfl

/-! ## Consecutive reads -/

/-- The 1-byte reads over a byte string give the string (R77). -/
theorem readBytes_ok {s : State} {addr : Nat} {bs : List Byte}
    (h : ∀ (i : Nat) (hi : i < bs.length), s.read8 (addr + i) = .ok (zext32 bs[i])) :
    readBytes s addr bs.length = .ok bs := by
  induction bs generalizing addr with
  | nil => rfl
  | cons b bs ih =>
    have hfirst : s.read8 addr = .ok (zext32 b) := h 0 (by simp)
    have hrest : readBytes s (addr + 1) bs.length = .ok bs := ih fun i hi => by
      rw [show addr + 1 + i = addr + (i + 1) by omega]
      exact h (i + 1) (by simpa using hi)
    simp [readBytes, hfirst, hrest, except_ok_bind, except_pure]

/-- The 4-byte reads over consecutive words give the words (R77). -/
theorem readWords_ok {s : State} {addr : Nat} {ws : List Word}
    (h : ∀ (i : Nat) (hi : i < ws.length), s.read32 (addr + 4 * i) = .ok ws[i]) :
    readWords s addr ws.length = .ok ws := by
  induction ws generalizing addr with
  | nil => rfl
  | cons w ws ih =>
    have hfirst : s.read32 addr = .ok w := h 0 (by simp)
    have hrest : readWords s (addr + 4) ws.length = .ok ws := ih fun i hi => by
      rw [show addr + 4 + 4 * i = addr + 4 * (i + 1) by omega]
      exact h (i + 1) (by simpa using hi)
    simp [readWords, hfirst, hrest, except_ok_bind, except_pure]

/-- The 1-byte reads over a vector of bytes. -/
theorem readBytes_vector {s : State} {addr n : Nat} (v : Vector Byte n)
    (h : ∀ (i : Nat) (hi : i < n), s.read8 (addr + i) = .ok (zext32 v[i])) : readBytes s addr n = .ok v.toList := by
  have hread := readBytes_ok (bs := v.toList) fun i hi => by simpa using h i (by simpa using hi)
  simpa using hread

/-- The 4-byte reads over a vector of words. -/
theorem readWords_vector {s : State} {addr n : Nat} (v : Vector Word n)
    (h : ∀ (i : Nat) (hi : i < n), s.read32 (addr + 4 * i) = .ok v[i]) : readWords s addr n = .ok v.toList := by
  have hread := readWords_ok (ws := v.toList) fun i hi => by simpa using h i (by simpa using hi)
  simpa using hread

/-- A buffer whose length register counts its bytes reads as the string it holds (R77, `RDO` and `RDP`). -/
theorem readBuffer_ok {s : State} {lenLoc : WordLoc} {base : Nat} {bs : List Byte}
    (hlen : s.readWord lenLoc = BitVec.ofNat 32 bs.length) (hbs : bs.length < 2 ^ 32)
    (h : ∀ (i : Nat) (hi : i < bs.length), s.read8 (base + i) = .ok (zext32 bs[i])) :
    readBuffer s lenLoc base = .ok bs := by
  simp only [readBuffer, State.read32_addr, hlen, except_ok_bind, toNat_ofNat_word hbs, readBytes_ok h]

/-! ## Integer blocks of the result state -/

section
variable (s : State) {b : IntBlock} (hb : ∀ k, b ≠ .x k)
include hb

theorem State.readSign_result : s.readSign b = (canonSign (s.blockVal b)).setWidth 32 := by
  cases b with
  | x k => exact absurd rfl (hb k)
  | _ => rfl

theorem State.readLen_result : s.readLen b = BitVec.ofNat 32 (canonMag (s.blockVal b)).length := by
  cases b with
  | x k => exact absurd rfl (hb k)
  | _ => rfl

theorem State.readMag_result (i : Nat) : s.readMag i b = (canonMag (s.blockVal b)).getD i 0 := by
  cases b with
  | x k => exact absurd rfl (hb k)
  | _ => rfl

theorem IntBlock.cap_result (c : Params) : b.cap c = c.resb := by
  cases b with
  | x k => exact absurd rfl (hb k)
  | _ => rfl

end

/-- A block of the result state reads as its integer, if that fits a result register (R66, R77). -/
theorem readInt_result {s : State} (hc : s.cfg.ok = true) {b : IntBlock} (hb : ∀ k, b ≠ .x k)
    (hfit : s.cfg.fits (s.blockVal b)) : readInt s (WordLoc.sign b).addr = .ok (s.blockVal b) := by
  have hlen : (canonMag (s.blockVal b)).length ≤ b.cap s.cfg := by
    rw [IntBlock.cap_result hb]
    exact length_canonMag_le hfit
  have hcap := b.cap_le hc
  have hnum : (BitVec.ofNat 32 (canonMag (s.blockVal b)).length).toNat = (canonMag (s.blockVal b)).length :=
    toNat_ofNat_word (by omega)
  have hreadLen : s.read32 ((WordLoc.sign b).addr + 4) = .ok (s.readLen b) := s.read32_addr (.len b)
  have hbytes : readBytes s ((WordLoc.sign b).addr + 0x100) (canonMag (s.blockVal b)).length
      = .ok (canonMag (s.blockVal b)) := readBytes_ok fun i hi => by
    have hread := State.read8_addr hc (loc := .mag b i) ((ByteLoc.inRange_mag b i).mpr (by omega))
    rwa [State.readByte, s.readMag_result hb, List.getD_eq_getElem _ _ hi] at hread
  have hsign : ((canonSign (s.blockVal b)).setWidth 32).setWidth 1 = canonSign (s.blockVal b) := by
    apply BitVec.eq_of_toNat_eq
    simp
  simp only [readInt, State.read32_addr, hreadLen, State.readWord, s.readSign_result hb, s.readLen_result hb, hnum,
    hbytes, hsign, signedVal_canon, except_ok_bind, except_pure]

/-! ## The windows -/

/-- What holds of every element, and of the value beyond the end, holds of what a window shows. -/
theorem forall_getD {α : Type} {p : α → Prop} {l : List α} {d : α} (h : ∀ x ∈ l, p x) (hd : p d) (i : Nat) :
    p (l.getD i d) := by
  by_cases hi : i < l.length
  · rw [List.getD_eq_getElem _ _ hi]
    exact h _ (List.getElem_mem hi)
  · rwa [List.getD_eq_default _ _ (by omega)]

/-- A vector put together again from its list. -/
theorem ofFn_toList_getD {α : Type} {n : Nat} (v : Vector α n) (d : α) :
    (Vector.ofFn fun i : Fin n => v.toList.getD i.val d) = v := by
  ext i hi
  simp

/-- The record window reads as its record, if the integer fields of that fit (R67, R77). -/
theorem readRecord_ok {s : State} (hc : s.cfg.ok = true) (hfit : ∀ k : Fin 4, s.cfg.fits s.windowRecord.f[k]) :
    readRecord s = .ok s.windowRecord := by
  have hwords : readWords s 0x0C0010 10 = .ok s.windowRecord.w.toList :=
    readWords_vector _ fun i hi => s.read32_addr (.recW ⟨i, hi⟩)
  have hstate : readBytes s 0x0C0040 16 = .ok s.windowRecord.s.toList :=
    readBytes_vector _ fun i hi => State.read8_addr hc (loc := .recS ⟨i, hi⟩) rfl
  have hkey : readBytes s 0x0C0050 16 = .ok s.windowRecord.key.toList :=
    readBytes_vector _ fun i hi => State.read8_addr hc (loc := .recKey ⟨i, hi⟩) rfl
  have hfield (k : Fin 4) : readInt s (WordLoc.sign (.f k)).addr = .ok s.windowRecord.f[k] :=
    readInt_result hc (by simp) (hfit k)
  have hf0 : readInt s 0x0D0000 = .ok s.windowRecord.f[0] := hfield 0
  have hf1 : readInt s 0x0E0000 = .ok s.windowRecord.f[1] := hfield 1
  have hf2 : readInt s 0x0F0000 = .ok s.windowRecord.f[2] := hfield 2
  have hf3 : readInt s 0x100000 = .ok s.windowRecord.f[3] := hfield 3
  have hf : #v[s.windowRecord.f[0], s.windowRecord.f[1], s.windowRecord.f[2], s.windowRecord.f[3]]
      = s.windowRecord.f := by
    ext i hi
    interval_cases i <;> rfl
  simp only [readRecord, State.read32_addr, State.readWord, hwords, hstate, hkey, hf0, hf1, hf2, hf3, hf,
    ofFn_toList_getD, except_ok_bind, except_pure]

theorem runAccesses_singleton {a : BusAccess} {s t : State} (h : busAccess a s = .next t) :
    runAccesses [a] s = .ok t := by
  rw [runAccesses_cons h, runAccesses_nil]

/-- `MAP_IDX <- j`, with the answer to the host. -/
def State.atMapIdx (s : State) (j : Word) : State := { s with mapIdx := j }.reply .done

/-- `TRACE_IDX <- j`, with the answer to the host. -/
def State.atTraceIdx (s : State) (j : Word) : State := { s with traceIdx := j }.reply .done

theorem runAccesses_mapIdx (s : State) (j : Word) :
    runAccesses [.write32 WordLoc.mapIdx.addr j] s = .ok (s.atMapIdx j) :=
  runAccesses_singleton (busAccess_write32_ok (by simp) rfl)

theorem runAccesses_traceIdx (s : State) (j : Word) :
    runAccesses [.write32 WordLoc.traceIdx.addr j] s = .ok (s.atTraceIdx j) :=
  runAccesses_singleton (busAccess_write32_ok (by simp) rfl)

/-- `RDM j` gives the entry, or 0 beyond the end (R41, R77). -/
theorem readMapEntry_ok {s : State} (hc : s.cfg.ok = true) (hfit : ∀ v ∈ s.out.map, s.cfg.fits v) (j : Word) :
    readMapEntry j s = .ok (s.atMapIdx j, s.out.map.getD j.toNat 0) := by
  have hread : readInt (s.atMapIdx j) (WordLoc.sign .map).addr = .ok (s.out.map.getD j.toNat 0) :=
    readInt_result (s := s.atMapIdx j) hc (by simp) (forall_getD hfit s.cfg.fits_zero j.toNat)
  simp only [readMapEntry, runAccesses_mapIdx, hread, except_ok_bind, except_pure]

/-- `RDT j` gives the record, or the record of zeros beyond the end (R42, R77). -/
theorem readTraceRecord_ok {s : State} (hc : s.cfg.ok = true)
    (hfit : ∀ r ∈ s.out.trace, ∀ k : Fin 4, s.cfg.fits r.f[k]) (j : Word) :
    readTraceRecord j s = .ok (s.atTraceIdx j, s.out.trace.getD j.toNat Record.zero) := by
  have hwindow : ∀ k : Fin 4, s.cfg.fits (s.out.trace.getD j.toNat Record.zero).f[k] :=
    forall_getD (p := fun r : Record => ∀ k : Fin 4, s.cfg.fits r.f[k]) hfit s.cfg.fits_zero_fields j.toNat
  have hread : readRecord (s.atTraceIdx j) = .ok (s.out.trace.getD j.toNat Record.zero) :=
    readRecord_ok (s := s.atTraceIdx j) hc hwindow
  simp only [readTraceRecord, runAccesses_traceIdx, hread, except_ok_bind, except_pure]

/-! ## The buffers and the lengths -/

theorem State.Inv.buffers {s : State} (h : s.Inv) : s.buffersOk := by
  obtain ⟨-, -, -, hbuf, -⟩ := h
  exact hbuf

section
variable {s : State} (hc : s.cfg.ok = true) (hbuf : s.buffersOk)
include hc hbuf

theorem State.buffersOk.length_obuf_lt : s.out.obuf.length < 2 ^ 32 := by
  have := Params.obufCap_le hc
  obtain ⟨hobuf, -⟩ := hbuf
  omega

theorem State.buffersOk.length_pbuf_lt : s.out.pbuf.length < 2 ^ 32 := by
  have := Params.pbufCap_le hc
  obtain ⟨-, hpbuf, -⟩ := hbuf
  omega

theorem State.buffersOk.length_map_lt : s.out.map.length < 2 ^ 32 := by
  have := Params.mapCap_lt hc
  obtain ⟨-, -, hmap, -⟩ := hbuf
  omega

theorem State.buffersOk.length_trace_lt : s.out.trace.length < 2 ^ 32 := by
  have := Params.traceCap_lt hc
  obtain ⟨-, -, -, htrace⟩ := hbuf
  omega

/-- `RDO` gives `OBUF` (R77). -/
theorem readBuffer_obuf : readBuffer s .obufLen 0x0A0000 = .ok s.out.obuf := by
  refine readBuffer_ok rfl (State.buffersOk.length_obuf_lt hc hbuf) fun i hi => ?_
  obtain ⟨hobuf, -⟩ := hbuf
  have hread := State.read8_addr hc (loc := .obuf i) ((ByteLoc.inRange_obuf i).mpr (by omega))
  rwa [State.readByte, List.getD_eq_getElem _ _ hi] at hread

/-- `RDP` gives `PBUF` (R77). -/
theorem readBuffer_pbuf : readBuffer s .pbufLen 0x0B0000 = .ok s.out.pbuf := by
  refine readBuffer_ok rfl (State.buffersOk.length_pbuf_lt hc hbuf) fun i hi => ?_
  obtain ⟨-, hpbuf, -⟩ := hbuf
  have hread := State.read8_addr hc (loc := .pbuf i) ((ByteLoc.inRange_pbuf i).mpr (by omega))
  rwa [State.readByte, List.getD_eq_getElem _ _ hi] at hread

end

/-- `RDL` gives what the length register reads. -/
theorem run_rdl (s : State) (reg : LengthReg) : (HostOp.rdl reg).run s = .ok (s, .word (s.readWord reg.loc)) := by
  simp only [HostOp.run, State.read32_addr, except_ok_bind, except_pure]

/-- Settles O13: each operation reads locations that hold the parts of the result, and writes an index at most. -/
theorem readsBackResults : Obligations.ReadsBackResults := by
  intro s hs hfit
  have hc := hs.inputsOk.params
  have hbuf := hs.buffers
  obtain ⟨hregs, hrecs, hmap⟩ := hfit
  have hreg (k : Fin 4) : readInt s (WordLoc.sign (.r k)).addr = .ok s.out.r[k] :=
    readInt_result hc (by simp) (hregs k)
  refine ⟨fun k => ?_, ?_, ?_, rfl,
    ⟨_, run_rdl s .obufLen, toNat_ofNat_word (State.buffersOk.length_obuf_lt hc hbuf)⟩,
    ⟨_, run_rdl s .pbufLen, toNat_ofNat_word (State.buffersOk.length_pbuf_lt hc hbuf)⟩,
    ⟨_, run_rdl s .traceLen, toNat_ofNat_word (State.buffersOk.length_trace_lt hc hbuf)⟩,
    ⟨_, run_rdl s .mapLen, toNat_ofNat_word (State.buffersOk.length_map_lt hc hbuf)⟩,
    rfl, rfl, rfl, rfl, fun k => ⟨?_, ?_⟩, fun j => ⟨⟨s.atMapIdx j, ?_, rfl⟩, s.atTraceIdx j, ?_, rfl⟩⟩
  · simp only [HostOp.run, hreg, except_ok_bind, except_pure]
  · simp only [HostOp.run, readBuffer_obuf hc hbuf, except_ok_bind, except_pure]
  · simp only [HostOp.run, readBuffer_pbuf hc hbuf, except_ok_bind, except_pure]
  · rw [show 0x010004 + 0x10000 * k.val = (WordLoc.len (.x k)).addr by
      rw [← xBase_add_four_eq_addr, xBase]; omega, State.read32_addr]
    rfl
  · refine ⟨s.x[k].sign.setWidth 32, ?_, ?_⟩
    · rw [show 0x010000 + 0x10000 * k.val = (WordLoc.sign (.x k)).addr from xBase_eq_addr k, State.read32_addr]
      rfl
    · have hlt := s.x[k].sign.isLt
      rw [BitVec.toNat_setWidth]
      omega
  · simp only [HostOp.run, readMapEntry_ok hc hmap, except_ok_bind, except_pure]
  · simp only [HostOp.run, readTraceRecord_ok hc hrecs, except_ok_bind, except_pure]

end Sys2Proof.Machine
end

section
/-! The decimal text of `20_memory.md` R78 (a), (b) and (d): writing an integer and reading it back. -/

namespace Sys2Proof.Machine

open Sys2Proof

/-! ## Digits -/

/-- The digit character of a number below 10. -/
def digitChar (d : Nat) : Char := Char.ofNat (48 + d)

theorem toNat_digitChar {d : Nat} (h : d < 10) : (digitChar d).toNat = 48 + d := by
  revert d
  decide

theorem digitChar_ne_minus : ∀ d < 10, some (digitChar d) ≠ some '-' := by decide

theorem digitChar_ne_zero : ∀ d < 10, d ≠ 0 → some (digitChar d) ≠ some '0' := by decide

@[simp] theorem digitVal_digitChar {d : Nat} (h : d < 10) : digitVal (digitChar d) = some d := by
  rw [digitVal, toNat_digitChar h, if_pos (by omega), Nat.add_sub_cancel_left]

theorem digitVal_isSome_iff (c : Char) : (digitVal c).isSome = true ↔ '0' ≤ c ∧ c ≤ '9' := by
  have hrange : ('0' ≤ c ∧ c ≤ '9') ↔ 48 ≤ c.toNat ∧ c.toNat ≤ 57 := Iff.rfl
  rw [hrange, digitVal]
  split <;> simp_all

/-- One digit more to read. -/
theorem digitsVal_cons {c : Char} {d : Nat} (h : digitVal c = some d) (cs : List Char) (acc : Nat) :
    digitsVal (c :: cs) acc = digitsVal cs (acc * 10 + d) := by
  simp only [digitsVal, h]

/-- A string has a value exactly when all of its characters are digits. -/
theorem digitsVal_isSome_iff (cs : List Char) (acc : Nat) :
    (digitsVal cs acc).isSome = true ↔ ∀ c ∈ cs, '0' ≤ c ∧ c ≤ '9' := by
  induction cs generalizing acc with
  | nil => simp [digitsVal]
  | cons c cs ih =>
    rw [List.forall_mem_cons, ← digitVal_isSome_iff]
    cases hd : digitVal c with
    | none => simp [digitsVal, hd]
    | some d => simp [digitsVal_cons hd, ih]

/-- Reading the digits that the loop puts in front of a string is reading the string after the number. -/
theorem digitsVal_digitsLoop {fuel n : Nat} (h : n ≤ fuel) (cs : List Char) :
    digitsVal (digitsLoop fuel n cs) 0 = digitsVal cs n := by
  induction fuel generalizing n cs with
  | zero =>
    obtain rfl : n = 0 := by omega
    rfl
  | succ fuel ih =>
    rw [digitsLoop]
    split
    case isTrue hn => rw [hn]
    case isFalse hn =>
      have hdigit : digitVal (Char.ofNat (48 + n % 10)) = some (n % 10) := digitVal_digitChar (Nat.mod_lt _ (by omega))
      rw [ih (by omega), digitsVal_cons hdigit, Nat.div_add_mod']

/-- The first of the digits that the loop writes is not 0 (R78 (d)). -/
theorem head?_digitsLoop {fuel n : Nat} (h : n ≤ fuel) (hn : 0 < n) (cs : List Char) :
    ∃ d, 0 < d ∧ d < 10 ∧ (digitsLoop fuel n cs).head? = some (digitChar d) := by
  induction fuel generalizing n cs with
  | zero => omega
  | succ fuel ih =>
    rw [digitsLoop, if_neg (by omega)]
    by_cases hlast : n / 10 = 0
    · have hnil : digitsLoop fuel (n / 10) (Char.ofNat (48 + n % 10) :: cs) = Char.ofNat (48 + n % 10) :: cs := by
        rw [hlast]
        cases fuel <;> rfl
      exact ⟨n % 10, by omega, by omega, by rw [hnil]; rfl⟩
    · exact ih (by omega) (by omega) _

/-! ## Natural numbers -/

/-- The text of a number begins with a digit, which is 0 for 0 only (R78 (d)). -/
theorem head?_formatNat (n : Nat) :
    ∃ d, d < 10 ∧ (d = 0 ↔ n = 0) ∧ (formatNat n).head? = some (digitChar d) := by
  rw [formatNat]
  split
  case isTrue hn => exact ⟨0, by omega, by omega, rfl⟩
  case isFalse hn =>
    obtain ⟨d, hd, hlt, hhead⟩ := head?_digitsLoop le_rfl (Nat.pos_of_ne_zero hn) []
    exact ⟨d, hlt, by omega, hhead⟩

theorem formatNat_ne_nil (n : Nat) : formatNat n ≠ [] := by
  obtain ⟨d, -, -, hhead⟩ := head?_formatNat n
  rintro hnil
  simp [hnil] at hhead

/-- Reading the text of a number gives the number (R78 (a), (d)). -/
theorem parseNat_formatNat (n : Nat) : parseNat (formatNat n) = some n := by
  rw [parseNat, if_neg (formatNat_ne_nil n), formatNat]
  split
  case isTrue hn => subst hn; decide
  case isFalse hn => exact digitsVal_digitsLoop le_rfl []

theorem parseNat_isSome_iff (cs : List Char) :
    (parseNat cs).isSome = true ↔ cs ≠ [] ∧ ∀ c ∈ cs, '0' ≤ c ∧ c ≤ '9' := by
  rw [parseNat]
  split <;> simp_all [digitsVal_isSome_iff]

/-! ## Integers -/

theorem parseDecimal_minus (ds : List Char) :
    parseDecimal ('-' :: ds) = (parseNat ds).map (fun n : Nat => -(n : Int)) := by
  rw [parseDecimal]
  cases parseNat ds <;> rfl

/-- Text that does not begin with a minus sign is read as a number. -/
theorem parseDecimal_of_head {cs : List Char} (h : cs.head? ≠ some '-') :
    parseDecimal cs = (parseNat cs).map (fun n : Nat => (n : Int)) := by
  unfold parseDecimal
  split
  case h_1 ds => simp at h
  case h_2 => cases parseNat cs <;> rfl

/-- The text of a number does not begin with a minus sign. -/
theorem head?_formatNat_ne_minus (n : Nat) : (formatNat n).head? ≠ some '-' := by
  obtain ⟨d, hd, -, hhead⟩ := head?_formatNat n
  rw [hhead]
  exact digitChar_ne_minus d hd

theorem formatDecimal_of_neg {v : Int} (h : v < 0) : formatDecimal v = '-' :: formatNat v.natAbs := if_pos h

theorem formatDecimal_of_nonneg {v : Int} (h : 0 ≤ v) : formatDecimal v = formatNat v.natAbs := if_neg (by omega)

/-- Reading the text of an integer gives the integer (R78 (a), (d)). -/
theorem parseDecimal_formatDecimal (v : Int) : parseDecimal (formatDecimal v) = some v := by
  by_cases hv : v < 0
  · rw [formatDecimal_of_neg hv, parseDecimal_minus, parseNat_formatNat, Option.map_some]
    congr 1
    omega
  · rw [formatDecimal_of_nonneg (by omega), parseDecimal_of_head (head?_formatNat_ne_minus _), parseNat_formatNat,
      Option.map_some]
    congr 1
    omega

/-- The text of a positive number does not begin with 0 (R78 (d)). -/
theorem head?_formatDecimal_ne_zero {v : Int} (h : 0 < v) : (formatDecimal v).head? ≠ some '0' := by
  obtain ⟨d, hd, hzero, hhead⟩ := head?_formatNat v.natAbs
  have hne : d ≠ 0 := by omega
  rw [formatDecimal_of_nonneg (by omega), hhead]
  exact digitChar_ne_zero d hd hne

theorem formatDecimal_neg {v : Int} (h : 0 < v) : formatDecimal (-v) = '-' :: formatDecimal v := by
  rw [formatDecimal_of_neg (by omega), formatDecimal_of_nonneg (by omega), Int.natAbs_neg]

/-- Text is accepted exactly when it is an optional minus sign and one or more digits (R78 (a)). -/
theorem parseDecimal_isSome_iff (cs : List Char) :
    (parseDecimal cs).isSome = true ↔
      ∃ ds, (cs = ds ∨ cs = '-' :: ds) ∧ ds ≠ [] ∧ ∀ c ∈ ds, '0' ≤ c ∧ c ≤ '9' := by
  by_cases hminus : ∃ ds, cs = '-' :: ds
  · obtain ⟨ds, rfl⟩ := hminus
    rw [parseDecimal_minus, Option.isSome_map, parseNat_isSome_iff]
    constructor
    · rintro ⟨hne, hdigits⟩
      exact ⟨ds, .inr rfl, hne, hdigits⟩
    · rintro ⟨ds', rfl | heq, hne, hdigits⟩
      · exact absurd (hdigits '-' (by simp)) (by decide)
      · obtain rfl := List.tail_eq_of_cons_eq heq
        exact ⟨hne, hdigits⟩
  · have hhead : cs.head? ≠ some '-' := fun h => hminus (List.head?_eq_some_iff.mp h)
    rw [parseDecimal_of_head hhead, Option.isSome_map, parseNat_isSome_iff]
    constructor
    · rintro ⟨hne, hdigits⟩
      exact ⟨cs, .inl rfl, hne, hdigits⟩
    · rintro ⟨ds, rfl | heq, hne, hdigits⟩
      · exact ⟨hne, hdigits⟩
      · exact absurd ⟨ds, heq⟩ hminus

end Sys2Proof.Machine
end

section
/-! The calls of the driver, `20_memory.md` R78, and statement O60. -/

namespace Sys2Proof.Machine

open Sys2Proof

/-! ## Arguments -/

/-- Text of an integer that fits is loaded by `LDX` (R78 (b)). -/
theorem driverLoad_int {s t : State} {k : Fin 4} {cs : List Char} {v : Int} (hparse : parseDecimal cs = some v)
    (hfit : v.natAbs < 256 ^ s.cfg.opb) (hrun : runAccesses (ldxAccesses k v) s = .ok t) :
    driverLoad (.int k cs) s = .ok (t, none) := by
  have harg : driverArgument s.cfg cs = some v := by simp only [driverArgument, hparse, if_pos hfit]
  simp only [driverLoad, harg, hrun, except_ok_bind, except_pure]

/-- Any other text is an invalid argument (R78 (a), (b)). -/
theorem driverLoad_int_invalid {s : State} (k : Fin 4) {cs : List Char}
    (h : ∀ v : Int, parseDecimal cs = some v → 256 ^ s.cfg.opb ≤ v.natAbs) :
    driverLoad (.int k cs) s = .ok (s, some .invalidInput) := by
  have harg : driverArgument s.cfg cs = none := by
    rw [driverArgument]
    cases hparse : parseDecimal cs with
    | none => rfl
    | some v => exact if_neg (Nat.not_lt.mpr (h v hparse))
  simp only [driverLoad, harg]

/-- Bytes as integers are read back as the bytes (R78 (c)). -/
theorem driverBytes_map_toNat (bs : List Byte) : driverBytes (bs.map fun b => (b.toNat : Int)) = some bs := by
  induction bs with
  | nil => rfl
  | cons b bs ih =>
    have hlt := b.isLt
    have hrange : (0 : Int) ≤ b.toNat ∧ (b.toNat : Int) ≤ 255 := by omega
    have hbyte : BitVec.ofInt 8 (b.toNat : Int) = b := by
      rw [BitVec.ofInt_natCast, BitVec.ofNat_toNat, BitVec.setWidth_eq]
    simp only [List.map_cons, driverBytes, if_pos hrange, ih, hbyte]

/-- A byte array with an element outside 0 to 255 has no bytes (R78 (c)). -/
theorem driverBytes_eq_none {vs : List Int} (h : ∃ v ∈ vs, v < 0 ∨ 255 < v) : driverBytes vs = none := by
  induction vs with
  | nil => simp at h
  | cons v vs ih =>
    rw [driverBytes]
    split
    case isFalse => rfl
    case isTrue hv =>
      have hrest : ∃ u ∈ vs, u < 0 ∨ 255 < u := by
        obtain ⟨u, hu, hout⟩ := h
        rcases List.mem_cons.mp hu with rfl | hu
        · omega
        · exact ⟨u, hu, hout⟩
      simp only [ih hrest]

theorem driverLoad_bytes {s t : State} {bs : List Byte} (hrun : runAccesses (ldbAccesses bs) s = .ok t) :
    driverLoad (.bytes (bs.map fun b => (b.toNat : Int))) s = .ok (t, none) := by
  simp only [driverLoad, driverBytes_map_toNat, hrun, except_ok_bind, except_pure]

theorem driverLoad_bytes_invalid (s : State) {vs : List Int} (h : ∃ v ∈ vs, v < 0 ∨ 255 < v) :
    driverLoad (.bytes vs) s = .ok (s, some .invalidInput) := by
  simp only [driverLoad, driverBytes_eq_none h]

/-! ## Loading touches neither CMD nor the results -/

/-- No access of the sequence writes `CMD`. -/
def CommandFree (as : List BusAccess) : Prop := ∀ w, .write32 WordLoc.cmd.addr w ∉ as

theorem busAccess_keeps_out {a : BusAccess} {s t : State} (hfree : ∀ w, a ≠ .write32 WordLoc.cmd.addr w)
    (h : busAccess a s = .next t) : t.cmd = s.cmd ∧ t.out = s.out := by
  rcases busAccess_cases h with ⟨addr, loc, -, -, rfl⟩ | ⟨addr, loc, -, -, rfl⟩ | ⟨addr, w, u, rfl, hloc, -, -⟩
    | ⟨addr, loc, v, u, -, -, -, hwrite, rfl⟩ | ⟨addr, loc, v, u, -, -, hwrite, rfl⟩
  · exact ⟨rfl, rfl⟩
  · exact ⟨rfl, rfl⟩
  · exact absurd (by rw [addr_of_wordLocAt hloc]) (hfree w)
  · obtain ⟨-, -, hcmd, hout, -⟩ := State.writeWord_frame hwrite
    exact ⟨hcmd, hout⟩
  · rcases State.writeByte_cases hwrite with ⟨k, i, -, rfl⟩ | ⟨i, -, rfl⟩ <;> exact ⟨rfl, rfl⟩

/-- A sequence that completes: its first access does, and then the rest. -/
theorem runAccesses_cons_ok {a : BusAccess} {as : List BusAccess} {s t : State} (h : runAccesses (a :: as) s = .ok t) :
    ∃ u, busAccess a s = .next u ∧ runAccesses as u = .ok t := by
  cases hs : busAccess a s with
  | next u => exact ⟨u, rfl, by rwa [runAccesses_cons hs] at h⟩
  | fault e => simp [runAccesses, hs, outcomeState] at h
  | refused e => simp [runAccesses, hs, outcomeState] at h

theorem runAccesses_keeps_out {as : List BusAccess} {s t : State} (hfree : CommandFree as)
    (h : runAccesses as s = .ok t) : t.cmd = s.cmd ∧ t.out = s.out := by
  induction as generalizing s with
  | nil => cases h; exact ⟨rfl, rfl⟩
  | cons a as ih =>
    obtain ⟨u, hu, hrest⟩ := runAccesses_cons_ok h
    obtain ⟨hcmd, hout⟩ := busAccess_keeps_out (fun w hw => hfree w (by simp [hw])) hu
    obtain ⟨hcmd', hout'⟩ := ih (fun w hw => hfree w (List.mem_cons_of_mem _ hw)) hrest
    exact ⟨hcmd'.trans hcmd, hout'.trans hout⟩

theorem write32_not_mem_byteWrites (addr a : Nat) (w : Word) (bs : List Byte) : .write32 a w ∉ byteWrites addr bs := by
  induction bs generalizing addr with
  | nil => simp [byteWrites]
  | cons b bs ih => simp [byteWrites, ih]

theorem commandFree_ldx (k : Fin 4) (v : Int) : CommandFree (ldxAccesses k v) := by
  intro w hw
  simp only [ldxAccesses, List.mem_cons, List.mem_append, write32_not_mem_byteWrites, false_or, List.not_mem_nil,
    or_false, BusAccess.write32.injEq, WordLoc.addr, xBase] at hw
  omega

theorem commandFree_ldb (bs : List Byte) : CommandFree (ldbAccesses bs) := by
  intro w hw
  simp [ldbAccesses, write32_not_mem_byteWrites, WordLoc.addr] at hw

/-- What loading an argument can do: it is loaded or invalid, and `CMD` and the results stay (R78). -/
theorem driverLoad_keeps_out {arg : DriverArg} {s t : State} {a : Option DriverAnswer}
    (h : driverLoad arg s = .ok (t, a)) :
    (a = none ∨ a = some .invalidInput) ∧ t.cmd = s.cmd ∧ t.out = s.out := by
  rcases driverLoad_cases h with ⟨k, cs, v, -, -, hrun, rfl⟩ | ⟨vs, bs, -, -, hrun, rfl⟩ | ⟨rfl, rfl⟩
  · exact ⟨.inl rfl, runAccesses_keeps_out (commandFree_ldx k v) hrun⟩
  · exact ⟨.inl rfl, runAccesses_keeps_out (commandFree_ldb bs) hrun⟩
  · exact ⟨.inr rfl, rfl, rfl⟩

/-- The first argument is loaded and then the rest, or it is invalid and nothing more is done (log entry 18). -/
theorem driverLoadAll_cons_ok {arg : DriverArg} {args : List DriverArg} {s t : State} {a : Option DriverAnswer}
    (h : driverLoadAll (arg :: args) s = .ok (t, a)) :
    (∃ u, driverLoad arg s = .ok (u, none) ∧ driverLoadAll args u = .ok (t, a))
      ∨ driverLoad arg s = .ok (t, a) := by
  rw [driverLoadAll] at h
  cases hl : driverLoad arg s with
  | error e => rw [hl] at h; cases h
  | ok r =>
    obtain ⟨u, b⟩ := r
    rw [hl, except_ok_bind] at h
    cases b with
    | none => exact .inl ⟨u, rfl, h⟩
    | some b => cases h; exact .inr rfl

theorem driverLoadAll_keeps_out {args : List DriverArg} {s t : State} {a : Option DriverAnswer}
    (h : driverLoadAll args s = .ok (t, a)) :
    (a = none ∨ a = some .invalidInput) ∧ t.cmd = s.cmd ∧ t.out = s.out := by
  induction args generalizing s with
  | nil => cases h; exact ⟨.inl rfl, rfl, rfl⟩
  | cons arg args ih =>
    rcases driverLoadAll_cons_ok h with ⟨u, hload, hrest⟩ | hload
    · obtain ⟨-, hcmd, hout⟩ := driverLoad_keeps_out hload
      obtain ⟨ha, hcmd', hout'⟩ := ih hrest
      exact ⟨ha, hcmd'.trans hcmd, hout'.trans hout⟩
    · exact driverLoad_keeps_out hload

/-! ## Calls -/

/-- The word of an instruction decodes to it (R94). -/
theorem decode_encode (i : Instr) : decode (encode i) = .ok i := by
  rw [decode, encode, fieldsOf_word]
  cases i <;> rfl

/-- The bus sequence of a command completes when the command does (R70). -/
theorem runAccesses_cmd {i : Instr} {t u : State} (h : exec i { t with cmd := encode i } = .next u) :
    runAccesses (cmdAccesses (encode i)) t = .ok (u.reply .done) := by
  have hrun : runWord (encode i) t = .next u := (runWord_ok (decode_encode i) t).trans h
  exact runAccesses_singleton (by rw [busAccess_write32_cmd, hrun]; rfl)

/-- An invalid argument ends the call, and no command is issued (R78). -/
theorem driverCall_invalid {args : List DriverArg} {s t : State} {a : DriverAnswer}
    (h : driverLoadAll args s = .ok (t, some a)) (i : Instr) (qs : List DriverQuery) :
    driverCall args i qs s = .ok (t, [a]) := by
  rw [driverCall, h]
  rfl

/-- A call whose arguments are loaded runs its command and answers its queries (R78). -/
theorem driverCall_ok {args : List DriverArg} {i : Instr} {qs : List DriverQuery} {s t u w : State}
    {answers : List DriverAnswer} (hload : driverLoadAll args s = .ok (t, none))
    (hexec : exec i { t with cmd := encode i } = .next u)
    (hresults : driverResults qs (u.reply .done) = .ok (w, answers)) :
    driverCall args i qs s = .ok (w, answers) := by
  rw [driverCall, hload, except_ok_bind]
  simp only [runAccesses_cmd hexec, except_ok_bind, hresults]

/-! ## Results -/

theorem driverResult_eq (q : DriverQuery) (s : State) :
    driverResult q s
      = if statusCode s.out.status ≠ 0 then .ok (s, .failure (statusCode s.out.status)) else driverRead q s := by
  rw [driverResult, State.read32_addr]
  rfl

/-- From entry `j` on, the driver reads the rest of the map (R78 (d)). -/
theorem readMapEntries_ok {s : State} (hc : s.cfg.ok = true) (hfit : ∀ v ∈ s.out.map, s.cfg.fits v)
    (hlen : s.out.map.length < 2 ^ 32) {n j : Nat} (hj : j + n = s.out.map.length) :
    ∃ t, readMapEntries n j s = .ok (t, s.out.map.drop j) ∧ t.out = s.out := by
  induction n generalizing s j with
  | zero => exact ⟨s, by rw [List.drop_eq_nil_of_le (by omega)]; rfl, rfl⟩
  | succ n ih =>
    have hlt : j < s.out.map.length := by omega
    have hentry := readMapEntry_ok hc hfit (BitVec.ofNat 32 j)
    rw [toNat_ofNat_word (by omega), List.getD_eq_getElem _ _ hlt] at hentry
    obtain ⟨t, hrest, hout⟩ := ih (s := s.atMapIdx (BitVec.ofNat 32 j)) hc hfit hlen (j := j + 1)
      (by rw [show (s.atMapIdx (BitVec.ofNat 32 j)).out = s.out from rfl]; omega)
    refine ⟨t, ?_, hout⟩
    rw [List.drop_eq_getElem_cons hlt]
    simp only [readMapEntries, hentry, hrest, except_ok_bind, except_pure]
    rfl

section
variable {s : State} (hs : s.Inv) (hfit : s.resultsFit)
include hs hfit

/-- A result register: the absent value when the flag is set, else its text (R78 (d)). -/
theorem driverRead_register (k : Fin 4) :
    driverRead (.register k) s
      = .ok (s, if getFlag s.out.status .absent = true then .absent else .text (formatDecimal s.out.r[k])) := by
  have hreg : readInt s (WordLoc.sign (.r k)).addr = .ok s.out.r[k] :=
    readInt_result hs.inputsOk.params (by simp) (hfit.1 k)
  simp only [driverRead, State.read32_addr, State.readWord, hreg, except_ok_bind, except_pure]
  split <;> rfl

/-- The array of `MAPEXP` (R78 (d)). -/
theorem driverRead_mapping :
    ∃ t, driverRead .mapping s = .ok (t, .texts (s.out.map.map formatDecimal)) ∧ t.out = s.out := by
  have hc := hs.inputsOk.params
  have hlen := State.buffersOk.length_map_lt hc hs.buffers
  obtain ⟨-, -, hmap⟩ := hfit
  obtain ⟨t, hread, hout⟩ := readMapEntries_ok hc hmap hlen (j := 0) (Nat.zero_add _)
  refine ⟨t, ?_, hout⟩
  simp only [driverRead, State.read32_addr, State.readWord, toNat_ofNat_word hlen, hread, except_ok_bind, except_pure,
    List.drop_zero]

/-- The integer fields of a record (R78 (d)). -/
theorem driverRead_step (j : Word) :
    driverRead (.step j) s
      = .ok (s.atTraceIdx j, .texts ((s.out.trace.getD j.toNat Record.zero).f.toList.map formatDecimal)) := by
  obtain ⟨-, hrecs, -⟩ := hfit
  simp only [driverRead, readTraceRecord_ok hs.inputsOk.params hrecs, except_ok_bind, except_pure]

end

/-- The output bytes (R78 (e)). -/
theorem driverRead_output {s : State} (hc : s.cfg.ok = true) (hbuf : s.buffersOk) :
    driverRead .output s = .ok (s, .bytes (s.out.obuf.map fun b => (b.toNat : Int))) := by
  simp only [driverRead, readBuffer_obuf hc hbuf, byteArray, except_ok_bind, except_pure]

/-- The padded message (R78 (e)). -/
theorem driverRead_padded {s : State} (hc : s.cfg.ok = true) (hbuf : s.buffersOk) :
    driverRead .padded s = .ok (s, .bytes (s.out.pbuf.map fun b => (b.toNat : Int))) := by
  simp only [driverRead, readBuffer_pbuf hc hbuf, byteArray, except_ok_bind, except_pure]

/-- Settles O60: text is read back by its digits, a load is a bus sequence that leaves `CMD` alone, and each query reads
what `ReadsBackResults` reads. -/
theorem decimalText : Obligations.DecimalText := by
  refine ⟨parseDecimal_formatDecimal, fun v hv => ⟨head?_formatDecimal_ne_zero hv, formatDecimal_neg hv⟩, rfl,
    parseDecimal_isSome_iff, fun s k cs => ⟨fun v t => driverLoad_int, driverLoad_int_invalid k⟩,
    fun s => ⟨fun bs t => driverLoad_bytes, fun vs => driverLoad_bytes_invalid s⟩,
    fun s t args i qs => ⟨fun a hload => ?_, fun u v w => driverCall_ok⟩,
    fun s hs hfit => ⟨fun hcode q => ?_, fun hcode => ?_⟩⟩
  · obtain ⟨ha, hcmd, hout⟩ := driverLoadAll_keeps_out hload
    obtain rfl : a = .invalidInput := by simpa using ha
    exact ⟨rfl, driverCall_invalid hload i qs, hcmd, hout⟩
  · rw [driverResult_eq, if_pos hcode]
  · have hresult (q : DriverQuery) : driverResult q s = driverRead q s := by
      rw [driverResult_eq, if_neg (not_not.mpr hcode)]
    have hc := hs.inputsOk.params
    simp only [hresult]
    exact ⟨driverRead_register hs hfit, driverRead_mapping hs hfit, fun j => ⟨_, driverRead_step hs hfit j, rfl⟩,
      driverRead_output hc hs.buffers, driverRead_padded hc hs.buffers⟩

end Sys2Proof.Machine
end

section
/-! Decoding and encoding of the command word (`30_encoding.md` R90 to R95), and statements O5, O6 and O4. -/

namespace Sys2Proof.Machine

open Sys2Proof

/-! ## Fields -/

/-- A word has the given fields exactly when it is put together from them (R90). -/
theorem fieldsOf_eq_iff (w : Word) (f : CommandFields) : fieldsOf w = f ↔ w = f.word := by
  constructor
  · rintro rfl
    exact (word_fieldsOf w).symm
  · rintro rfl
    exact fieldsOf_word f

/-- An opcode that takes no modifier bits is the opcode column of its command, row by row of R92. -/
theorem fields_of_plainOpcode {op : BitVec 8} {i : Instr} (h : plainOpcode op = some i) :
    i.fields = ⟨op, false, false, 0⟩ := by
  unfold plainOpcode at h
  split at h <;> cases h <;>
    exact congrArg (CommandFields.mk · false false 0) (BitVec.eq_of_toNat_eq (Eq.symm ‹_›))

/-- The checks of R94 pass exactly the fields of commands. -/
theorem decodeFields_eq_ok_iff (f : CommandFields) (i : Instr) : decodeFields f = .ok i ↔ f = i.fields := by
  constructor
  · obtain ⟨op, carm, hint, zero⟩ := f
    intro h
    unfold decodeFields at h
    split_ifs at h with hzero hderive hmod
    · obtain rfl : zero = 0 := not_not.mp hzero
      obtain rfl : op = 0x20 := hderive
      cases h
      rfl
    · obtain rfl : zero = 0 := not_not.mp hzero
      obtain ⟨rfl, rfl⟩ : carm = false ∧ hint = false := by simpa using hmod
      split at h
      case h_1 j hplain =>
        cases h
        exact (fields_of_plainOpcode hplain).symm
      case h_2 => cases h
  · rintro rfl
    cases i <;> rfl

/-- A word decodes to the command whose word it is (R94). -/
theorem decode_eq_ok_iff (w : Word) (i : Instr) : decode w = .ok i ↔ w = encode i := by
  rw [decode, decodeFields_eq_ok_iff, fieldsOf_eq_iff, encode]

/-! ## The 18 words -/

/-- The legal words of R94 and the command of each (R92). -/
def commandTable : List (Word × Instr) :=
  [(0x01, .init), (0x10, .modpow), (0x11, .gcd), (0x12, .lcm), (0x13, .egcd), (0x14, .modinv), (0x15, .b2i),
    (0x16, .i2b), (0x30, .dhx), (0x40, .dlbf), (0x41, .dlbsgs), (0x50, .mapexp), (0x60, .aesenc), (0x70, .sha256),
    (0x020, .derive false false), (0x120, .derive true false), (0x220, .derive false true),
    (0x320, .derive true true)]

/-- The legal words of R94. -/
def legalWords : List Word := commandTable.map Prod.fst

/-- Every command stands in the table with its word. -/
theorem encode_mem_commandTable (i : Instr) : (encode i, i) ∈ commandTable := by
  cases i with
  | derive carm hint => cases carm <;> cases hint <;> decide
  | _ => decide

/-- Every row of the table is a command with its word. -/
theorem eq_encode_of_mem_commandTable : ∀ row ∈ commandTable, row.1 = encode row.2 := by decide

/-- The table lists exactly what decodes (R94). -/
theorem decode_eq_ok_iff_mem_commandTable (w : Word) (i : Instr) : decode w = .ok i ↔ (w, i) ∈ commandTable := by
  rw [decode_eq_ok_iff]
  constructor
  · rintro rfl
    exact encode_mem_commandTable i
  · exact eq_encode_of_mem_commandTable (w, i)

/-- A word is a command exactly when it is one of the 18 (R94). -/
theorem exists_decode_eq_ok_iff (w : Word) : (∃ i, decode w = .ok i) ↔ w ∈ legalWords := by
  simp only [decode_eq_ok_iff_mem_commandTable, legalWords, List.mem_map, Prod.exists, exists_and_right,
    exists_eq_right]

/-- A word that is none of the 18 is refused (R95). -/
theorem decode_error_of_notMem {w : Word} (h : w ∉ legalWords) : ∃ e, decode w = .error e := by
  cases hd : decode w with
  | error e => exact ⟨e, rfl⟩
  | ok i => exact absurd ((exists_decode_eq_ok_iff w).mp ⟨i, hd⟩) h

/-- Settles O5: decoding inverts encoding on the fields, and the 18 words are the words of all commands. -/
theorem decodeIffEncode : Obligations.DecodeIffEncode :=
  ⟨decode_eq_ok_iff, exists_decode_eq_ok_iff, decode_eq_ok_iff_mem_commandTable⟩

/-- Settles O6: each word is the word of its command. -/
theorem sampleWordsDecode : Obligations.SampleWordsDecode :=
  ⟨decode_encode .init, decode_encode .modpow, decode_encode (.derive false true),
    decode_encode (.derive true false), decode_encode .dlbsgs, decode_encode .aesenc, decode_encode .sha256⟩

/-! ## Illegal words -/

/-- Settles O4: the write to `CMD` finds no command to run, and ends with `ILLEGAL_COMMAND` after the prologue. -/
theorem illegalWordEnds : Obligations.IllegalWordEnds := by
  intro s w rest hw hp
  obtain ⟨e, hd⟩ := decode_error_of_notMem hw
  calc step s = replyAfter (runWord w (s.withPending rest)) .done := by
        rw [step_access hp]
        exact busAccess_write32_cmd _ w
    _ = replyAfter (((s.withPending rest).withCmd w).raises 3) .done := by rw [runWord_error hd]
    _ = _ := rfl

end Sys2Proof.Machine
end

section
/-! The two ways in which a command can end (`30_encoding.md` R98), in every state, and statement O53. -/

namespace Sys2Proof.Machine

open Sys2Proof

/-! ## The ends of a rule -/

/-- The rule of a command ends in one of the two ways of R98: it returns with code `OK` and `READY` set, or it raises a
code that is not that of an illegal word. -/
def RuleEnds : Except ErrorCode ResultState → Prop
  | .ok o => StatusReturned o.status
  | .error c => c ≠ .illegalCommand

theorem ruleEnds_ok {o : ResultState} (h : StatusReturned o.status) : RuleEnds (.ok o) := h

theorem ruleEnds_invalidInput : RuleEnds (.error .invalidInput) := by simp [RuleEnds]

theorem ruleEnds_searchExhausted : RuleEnds (.error .searchExhausted) := by simp [RuleEnds]

theorem ruleEnds_resourceLimit : RuleEnds (.error .resourceLimit) := by simp [RuleEnds]

/-- What an operation inside a rule returned. -/
theorem RuleEnds.returned {r : Except ErrorCode ResultState} {o : ResultState} (h : RuleEnds r) (hr : r = .ok o) :
    StatusReturned o.status := by
  rwa [hr] at h

/-- What an operation inside a rule raised, the rule raises. -/
theorem RuleEnds.raised {r : Except ErrorCode ResultState} {c : ErrorCode} (h : RuleEnds r) (hr : r = .error c) :
    RuleEnds (.error c) := by
  rwa [hr] at h

/-! ## The shared operations -/

section
variable {o : ResultState} (h : StatusReturned o.status)
include h

theorem ruleEnds_putObuf (c : Params) (bs : List Byte) : RuleEnds (o.putObuf c bs) := by
  rcases o.putObuf_cases c bs with ⟨-, heq⟩ | ⟨-, heq⟩ <;> rw [heq]
  · exact ruleEnds_ok h
  · exact ruleEnds_resourceLimit

theorem ruleEnds_putPbuf (c : Params) (bs : List Byte) : RuleEnds (o.putPbuf c bs) := by
  rcases o.putPbuf_cases c bs with ⟨-, heq⟩ | ⟨-, heq⟩ <;> rw [heq]
  · exact ruleEnds_ok h
  · exact ruleEnds_resourceLimit

theorem ruleEnds_emitAll (c : Params) (recs : List Record) : RuleEnds (o.emitAll c recs) := by
  induction recs generalizing o with
  | nil => exact ruleEnds_ok h
  | cons rec recs ih =>
    rw [ResultState.emitAll, ResultState.emit_eq]
    by_cases hroom : o.trace.length < c.traceCap
    · rw [if_pos hroom]
      exact ih (o := { o with trace := o.trace ++ [rec] }) h
    · rw [if_neg hroom]
      exact ruleEnds_resourceLimit

theorem ruleEnds_commit (run : SearchRun) : RuleEnds (run.commit o) := by
  rcases run.commit_cases o with ⟨x, -, heq⟩ | ⟨-, heq⟩ | ⟨-, heq⟩ | ⟨-, heq⟩ | ⟨-, heq⟩ <;> rw [heq]
  · exact ruleEnds_ok h
  · exact ruleEnds_ok (h.setFlag (f := .absent) (by decide) true)
  · exact ruleEnds_ok ((h.setFlag (f := .absent) (by decide) true).setFlag (f := .truncated) (by decide) true)
  · exact ruleEnds_ok ((h.setFlag (f := .wNoInverse) (by decide) true).setFlag (f := .absent) (by decide) true)
  · exact ruleEnds_resourceLimit

end

/-- The exponent search raises `SEARCH_EXHAUSTED` only (R145). -/
theorem exponentSearch_error {t : Int} {left : Nat} {c : Int} {e : ErrorCode}
    (h : exponentSearch t left c = .error e) : e = .searchExhausted := by
  induction left generalizing c with
  | zero => cases h; rfl
  | succ left ih =>
    unfold exponentSearch at h
    split at h
    case isTrue => cases h; rfl
    case isFalse =>
      split at h
      case isFalse => exact ih h
      case isTrue =>
        split at h
        case h_2 => exact ih h
        case h_1 =>
          split at h
          case isTrue => cases h
          case isFalse => exact ih h

/-! ## The commands -/

section
variable (s : State) {o : ResultState} (h : StatusReturned o.status)
include h

theorem modpowRule_ends : RuleEnds (modpowRule s o) := by
  unfold modpowRule
  split_ifs
  · exact ruleEnds_invalidInput
  · exact ruleEnds_invalidInput
  · exact ruleEnds_ok h

theorem modinvRule_ends : RuleEnds (modinvRule s o) := by
  unfold modinvRule
  split
  case isTrue => exact ruleEnds_invalidInput
  case isFalse =>
    split
    case h_1 => exact ruleEnds_ok (h.setFlag (f := .absent) (by decide) true)
    case h_2 => exact ruleEnds_ok h

theorem b2iRule_ends : RuleEnds (b2iRule s o) := by
  unfold b2iRule
  split
  case isTrue => exact ruleEnds_resourceLimit
  case isFalse => exact ruleEnds_ok h

theorem i2bRule_ends : RuleEnds (i2bRule s o) := by
  unfold i2bRule
  split
  case isTrue => exact ruleEnds_invalidInput
  case isFalse => exact ruleEnds_putObuf h _ _

theorem deriveRule_ends (carm hint : Bool) : RuleEnds (deriveRule carm hint s o) := by
  unfold deriveRule
  dsimp only
  split_ifs
  · exact ruleEnds_invalidInput
  · exact ruleEnds_invalidInput
  · split
    case h_1 => exact ruleEnds_ok h
    case h_2 e hsearch =>
      obtain rfl := exponentSearch_error hsearch
      exact ruleEnds_searchExhausted

theorem dhxRule_ends : RuleEnds (dhxRule s o) := by
  unfold dhxRule
  dsimp only
  split_ifs
  · exact ruleEnds_invalidInput
  · exact ruleEnds_invalidInput
  · split
    case h_1 o' hemit =>
      have h' := (ruleEnds_emitAll h _ _).returned hemit
      exact ruleEnds_ok h'
    case h_2 e hemit => exact (ruleEnds_emitAll h _ _).raised hemit

theorem dlbfRule_ends : RuleEnds (dlbfRule s o) := by
  unfold dlbfRule
  rcases dlEntry_cases s o with ⟨-, heq⟩ | ⟨-, -, heq⟩ <;> rw [heq]
  · exact ruleEnds_invalidInput
  · exact ruleEnds_commit (h.dlogWarnings _ _ _) _

theorem dlbsgsRule_ends : RuleEnds (dlbsgsRule s o) := by
  unfold dlbsgsRule
  rcases dlEntry_cases s o with ⟨-, heq⟩ | ⟨-, -, heq⟩ <;> rw [heq]
  · exact ruleEnds_invalidInput
  · exact ruleEnds_commit (h.dlogWarnings _ _ _) _

theorem mapexpRule_ends : RuleEnds (mapexpRule s o) := by
  unfold mapexpRule
  dsimp only
  split_ifs
  · exact ruleEnds_invalidInput
  · exact ruleEnds_invalidInput
  · exact ruleEnds_invalidInput
  · exact ruleEnds_ok (h.clampFlag _ _)

theorem aesencRule_ends : RuleEnds (aesencRule s o) := by
  unfold aesencRule
  dsimp only
  split
  case isTrue => exact ruleEnds_invalidInput
  case isFalse =>
    split
    case h_1 o' hemit => exact ruleEnds_putObuf ((ruleEnds_emitAll h _ _).returned hemit) _ _
    case h_2 e hemit => exact (ruleEnds_emitAll h _ _).raised hemit

theorem sha256Rule_ends : RuleEnds (sha256Rule s o) := by
  unfold sha256Rule
  dsimp only
  split
  case h_1 e hpad => exact (ruleEnds_putPbuf h _ _).raised hpad
  case h_2 o₁ hpad =>
    have h₁ := (ruleEnds_putPbuf h _ _).returned hpad
    split
    case h_1 e hemit => exact (ruleEnds_emitAll h₁ _ _).raised hemit
    case h_2 o₂ hemit => exact ruleEnds_putObuf ((ruleEnds_emitAll h₁ _ _).returned hemit) _ _

/-- Every rule ends in one of the two ways of R98, in every state. -/
theorem commandRule_ends (i : Instr) : RuleEnds (commandRule i s o) := by
  cases i
  case init => exact ruleEnds_ok h
  case modpow => exact modpowRule_ends s h
  case gcd => exact ruleEnds_ok h
  case lcm => exact ruleEnds_ok h
  case egcd => exact ruleEnds_ok h
  case modinv => exact modinvRule_ends s h
  case b2i => exact b2iRule_ends s h
  case i2b => exact i2bRule_ends s h
  case derive carm hint => exact deriveRule_ends s h carm hint
  case dhx => exact dhxRule_ends s h
  case dlbf => exact dlbfRule_ends s h
  case dlbsgs => exact dlbsgsRule_ends s h
  case mapexp => exact mapexpRule_ends s h
  case aesenc => exact aesencRule_ends s h
  case sha256 => exact sha256Rule_ends s h

end

/-! ## Every command -/

/-- The codes other than that of an illegal word (R270). -/
theorem ErrorCode.number_of_ne_illegalCommand {c : ErrorCode} (h : c ≠ .illegalCommand) :
    c.number.toNat = 1 ∨ c.number.toNat = 2 ∨ c.number.toNat = 4 := by
  cases c with
  | invalidInput => exact .inl rfl
  | searchExhausted => exact .inr (.inl rfl)
  | illegalCommand => exact absurd rfl h
  | resourceLimit => exact .inr (.inr rfl)

/-- `raise` leaves `READY` set (R272). -/
theorem getFlag_ready_raised (c : ErrorCode) :
    getFlag (0x80000000 + BitVec.ofNat 32 c.number.toNat) .ready = true := by
  cases c <;> decide

/-- Settles O53: the prologue sets `READY` with code `OK`, and the rule ends in one of the two ways from there. -/
theorem commandEnds : Obligations.CommandEnds := by
  intro i s
  have hrule := commandRule_ends s.prologue readyStatus_returned (o := ResultState.cleared) i
  rw [exec_eq_runCommand_commandRule]
  rcases runCommand_cases (commandRule i) s with ⟨o, hok, hrun⟩ | ⟨c, herror, hrun⟩
  · have ho := hrule.returned hok
    exact ⟨o, hrun, ho.ready, .inl ho.code⟩
  · have hc : c ≠ .illegalCommand := hrule.raised herror
    exact ⟨_, hrun, getFlag_ready_raised c, .inr ⟨_, ErrorCode.number_of_ne_illegalCommand hc, hrun⟩⟩

end Sys2Proof.Machine
end

section
/-! How the end of a command follows from the end of its rule, and the exponentiation datapath of
`40_integer_kernel.md` R111: statements O16 and O17. -/

namespace Sys2Proof.Machine

open Sys2Proof

/-! ## The end of a command from the end of its rule -/

/-- A command whose rule returns (R98). -/
theorem exec_returns {i : Instr} {s : State} {o : ResultState}
    (h : commandRule i s.prologue ResultState.cleared = .ok o) : exec i s = s.returns o := by
  rw [exec_eq_runCommand_commandRule, runCommand_ok h]

/-- A command whose rule raises (R272). -/
theorem exec_raises {i : Instr} {s : State} {c : ErrorCode}
    (h : commandRule i s.prologue ResultState.cleared = .error c) : exec i s = s.raises c.number.toNat := by
  rw [exec_eq_runCommand_commandRule, runCommand_error h]

/-- A command whose rule raises `INVALID_INPUT` (R271). -/
theorem exec_invalidInput {i : Instr} {s : State}
    (h : commandRule i s.prologue ResultState.cleared = .error .invalidInput) : exec i s = s.raises 1 := exec_raises h

/-- One result register written after the prologue. -/
theorem cleared_setR_zero (v : Int) : ResultState.cleared.setR 0 v = { noResults with r := #v[v, 0, 0, 0] } := by
  rw [cleared_eq_noResults]
  rfl

/-! ## The exponentiation datapath -/

section
variable (m : Int) (d : PowerPath)

/-- The exponent loses its last binary digit (R111). -/
theorem PowerPath.iterate_ex (n : Nat) : ((PowerPath.iterate m)^[n] d).ex = d.ex / 2 ^ n := by
  induction n with
  | zero => simp
  | succ n ih => rw [Function.iterate_succ_apply', PowerPath.iterate, ih, Nat.div_div_eq_div_mul, pow_succ]

/-- The exponent has digits left before as many iterations as it has digits. -/
theorem PowerPath.iterate_ex_ne_zero {n : Nat} (h : n < d.ex.size) : ((PowerPath.iterate m)^[n] d).ex ≠ 0 := by
  rw [PowerPath.iterate_ex]
  exact (Nat.div_pos (Nat.lt_size.mp h) (by positivity)).ne'

/-- The exponent has no digit left after as many iterations as it has digits. -/
theorem PowerPath.iterate_size_ex : ((PowerPath.iterate m)^[d.ex.size] d).ex = 0 := by
  rw [PowerPath.iterate_ex, Nat.div_eq_of_lt (Nat.lt_size_self _)]

/-- While the exponent has digits left, the loop iterates (R111). -/
theorem powLoop_eq_iterate {n : Nat} (h : ∀ j < n, ((PowerPath.iterate m)^[j] d).ex ≠ 0) :
    powLoop m n d = (PowerPath.iterate m)^[n] d := by
  induction n generalizing d with
  | zero => rfl
  | succ n ih =>
    have hd : d.ex ≠ 0 := h 0 (by omega)
    rw [powLoop, if_neg hd, Function.iterate_succ_apply]
    exact ih _ fun j hj => h (j + 1) (by omega)

/-- The value that the datapath is about to reach, modulo m: what R111 calls its loop invariant. -/
theorem PowerPath.iterate_value :
    (d.iterate m).acc * (d.iterate m).sq ^ (d.iterate m).ex ≡ d.acc * d.sq ^ d.ex [ZMOD m] := by
  have hsq : (d.sq * d.sq % m) ^ (d.ex / 2) ≡ d.sq ^ (2 * (d.ex / 2)) [ZMOD m] := by
    rw [pow_mul, pow_two]
    exact (Int.mod_modEq _ m).pow _
  unfold PowerPath.iterate
  dsimp only
  split
  case isTrue hodd =>
    calc d.acc * d.sq % m * (d.sq * d.sq % m) ^ (d.ex / 2)
        ≡ d.acc * d.sq * d.sq ^ (2 * (d.ex / 2)) [ZMOD m] := (Int.mod_modEq _ m).mul hsq
      _ = d.acc * d.sq ^ (2 * (d.ex / 2) + 1) := by ring
      _ = d.acc * d.sq ^ d.ex := by rw [show 2 * (d.ex / 2) + 1 = d.ex by omega]
  case isFalse heven =>
    calc d.acc * (d.sq * d.sq % m) ^ (d.ex / 2)
        ≡ d.acc * d.sq ^ (2 * (d.ex / 2)) [ZMOD m] := hsq.mul_left _
      _ = d.acc * d.sq ^ d.ex := by rw [show 2 * (d.ex / 2) = d.ex by omega]

end

/-- The loop invariant of R111: the datapath is on its way to `v` modulo m, and `ACC` and `SQ` are residues. -/
structure PowerPath.Computes (m v : Int) (d : PowerPath) : Prop where
  value : d.acc * d.sq ^ d.ex ≡ v [ZMOD m]
  acc_mem : 0 ≤ d.acc ∧ d.acc < m
  sq_mem : 0 ≤ d.sq ∧ d.sq < m

/-- One iteration keeps the loop invariant. -/
theorem PowerPath.Computes.iterate {m v : Int} {d : PowerPath} (hm : 0 < m) (h : d.Computes m v) :
    (d.iterate m).Computes m v where
  value := (d.iterate_value m).trans h.value
  acc_mem := by
    unfold PowerPath.iterate
    dsimp only
    split
    case isTrue => exact emod_mem hm _
    case isFalse => exact h.acc_mem
  sq_mem := emod_mem hm _

/-- The loop invariant holds at the start; with modulus 1 it would not, as `ACC` is 1 there (R111). -/
theorem powStart_computes {m : Int} (hm : 1 < m) (b e : Int) : (powStart b e m).Computes m (b ^ e.toNat) where
  value := by
    rw [powStart, one_mul]
    exact (Int.mod_modEq b m).pow _
  acc_mem := by simp only [powStart]; omega
  sq_mem := emod_mem (by omega) b

/-- The loop invariant holds after every number of iterations (R111). -/
theorem iterate_powStart_computes {m : Int} (hm : 1 < m) (b e : Int) (n : Nat) :
    ((PowerPath.iterate m)^[n] (powStart b e m)).Computes m (b ^ e.toNat) := by
  induction n with
  | zero => exact powStart_computes hm b e
  | succ n ih =>
    rw [Function.iterate_succ_apply']
    exact ih.iterate (by omega)

/-- With no digit of the exponent left, `ACC` is the residue of the value. -/
theorem PowerPath.Computes.acc_eq {m v : Int} {d : PowerPath} (h : d.Computes m v) (hex : d.ex = 0) :
    d.acc = v % m := by
  obtain ⟨hvalue, ⟨hnonneg, hlt⟩, -⟩ := h
  calc d.acc = d.acc * d.sq ^ d.ex % m := by rw [hex, pow_zero, mul_one, Int.emod_eq_of_lt hnonneg hlt]
    _ = v % m := hvalue

/-- `bitlen` is the number of binary digits of the library (R11). -/
theorem bitlen_eq_size (n : Nat) : bitlen n = n.size :=
  eq_of_forall_ge_iff fun k => (bitlen_le_iff n k).trans Nat.size_le.symm

/-- The loop runs once per binary digit of the exponent (R111). -/
theorem powLoop_powStart (b e m : Int) :
    powLoop m (bitlen e.toNat) (powStart b e m) = (PowerPath.iterate m)^[e.toNat.size] (powStart b e m) := by
  rw [bitlen_eq_size]
  exact powLoop_eq_iterate m _ fun j hj => PowerPath.iterate_ex_ne_zero m (powStart b e m) hj

/-- `modPow` is the modular power (R111). -/
theorem modPow_eq_pow_emod {m : Int} (hm : 0 < m) (b e : Int) : modPow b e m = b ^ e.toNat % m := by
  unfold modPow
  split
  case isTrue hone => rw [hone, Int.emod_one]
  case isFalse hne =>
    rw [powLoop_powStart]
    exact (iterate_powStart_computes (by omega) b e _).acc_eq (PowerPath.iterate_size_ex m (powStart b e m))

/-- Settles O16: each iteration takes one binary digit off the exponent and keeps the loop invariant. -/
theorem modPowDatapath : Obligations.ModPowDatapath := by
  intro b e m hm _
  refine ⟨modPow_eq_pow_emod (by omega) b e, fun n hn => PowerPath.iterate_ex_ne_zero m (powStart b e m) hn,
    PowerPath.iterate_size_ex m (powStart b e m), powLoop_powStart b e m, fun hm n => ?_⟩
  obtain ⟨hvalue, ⟨hacc, hacc'⟩, hsq, hsq'⟩ := iterate_powStart_computes hm b e n
  exact ⟨hvalue, hacc, hacc', hsq, hsq'⟩

/-! ## MODPOW -/

/-- `MODPOW` raises exactly at the checks of R112. -/
theorem modpowRule_invalid {s : State} {o : ResultState} (h : s.xVal 2 ≤ 0 ∨ s.xVal 1 < 0) :
    modpowRule s o = .error .invalidInput := by
  unfold modpowRule
  split_ifs
  · rfl
  · rfl
  · omega

/-- `MODPOW` past the checks of R112. -/
theorem modpowRule_valid {s : State} {o : ResultState} (hm : 0 < s.xVal 2) (he : 0 ≤ s.xVal 1) :
    modpowRule s o = .ok (o.setR 0 (s.xVal 0 ^ (s.xVal 1).toNat % s.xVal 2)) := by
  rw [modpowRule, if_neg (by omega), if_neg (by omega), modPow_eq_pow_emod hm]

/-- Settles O17: past the checks the result is that of the datapath. -/
theorem modpowResult : Obligations.ModpowResult := by
  refine ⟨by decide, fun s => ⟨fun hm he => ?_, fun h => ?_⟩⟩
  · rw [← cleared_setR_zero]
    exact exec_returns (modpowRule_valid (s := s.prologue) hm he)
  · exact exec_invalidInput (modpowRule_invalid (s := s.prologue) h)

end Sys2Proof.Machine
end

section
/-! The Euclid datapaths of `40_integer_kernel.md` R114 to R120 and the inverse of R122: `GCD`, `LCM`, `EGCD`, `MODINV`,
statements O18 to O22. -/

namespace Sys2Proof.Machine

open Sys2Proof

/-! ## GCD and LCM -/

/-- Settles O18: the gcd of the model is the library's. -/
theorem gcdResult : Obligations.GcdResult := by
  refine ⟨by decide, fun s => ?_⟩
  rw [← cleared_setR_zero, ← gcdOf_eq_gcd]
  exact exec_returns rfl

/-- `lcm` is the library's (R117). -/
theorem lcmOf_eq_lcm (a b : Int) : lcmOf a b = a.lcm b := by
  unfold lcmOf
  split
  case isTrue h => rcases h with rfl | rfl <;> simp
  case isFalse =>
    rw [gcdOf_eq_gcd, Int.natAbs_mul, Int.lcm, Nat.lcm]
    rfl

/-- Settles O19: the lcm of the model is the library's. -/
theorem lcmResult : Obligations.LcmResult := by
  refine ⟨by decide, fun s => ?_⟩
  rw [← cleared_setR_zero, ← lcmOf_eq_lcm]
  exact exec_returns rfl

/-! ## The recursive definition of the extended Euclid -/

/-- With enough fuel the recursion is every function that meets the two equations of R119. -/
theorem egcdRec_eq_of_equations {f : Int → Int → Bezout} (hzero : ∀ a, f a 0 = ⟨a, 1, 0⟩)
    (hstep : ∀ a b, b ≠ 0 →
      f a b = ⟨(f b (a.tmod b)).g, (f b (a.tmod b)).y, (f b (a.tmod b)).x - a.tdiv b * (f b (a.tmod b)).y⟩)
    {n : Nat} (a : Int) {b : Int} (h : b.natAbs ≤ n) : egcdRec n a b = f a b := by
  induction n generalizing a b with
  | zero =>
    obtain rfl : b = 0 := by omega
    rw [hzero, egcdRec]
  | succ n ih =>
    unfold egcdRec
    split
    case isTrue hb => rw [hb, hzero]
    case isFalse hb =>
      have hlt := natAbs_tmod_lt a b hb
      rw [ih b (by omega), hstep a b hb]

/-- The recursion computes a gcd, up to its sign (R119). -/
theorem natAbs_egcdRec_g {n : Nat} (a : Int) {b : Int} (h : b.natAbs ≤ n) : (egcdRec n a b).g.natAbs = a.gcd b := by
  induction n generalizing a b with
  | zero =>
    obtain rfl : b = 0 := by omega
    simp [egcdRec]
  | succ n ih =>
    unfold egcdRec
    split
    case isTrue hb => simp [hb]
    case isFalse hb =>
      have hlt := natAbs_tmod_lt a b hb
      calc (egcdRec n b (a.tmod b)).g.natAbs
          = b.natAbs.gcd (a.tmod b).natAbs := ih b (by omega)
        _ = a.gcd b := by rw [Int.natAbs_tmod, Nat.gcd_comm, ← Nat.gcd_rec, Nat.gcd_comm, Int.gcd]

/-- The coefficients of the recursion give its first component, however much fuel it has (R119). -/
theorem egcdRec_bezout (n : Nat) (a b : Int) : a * (egcdRec n a b).x + b * (egcdRec n a b).y = (egcdRec n a b).g := by
  induction n generalizing a b with
  | zero => simp [egcdRec]
  | succ n ih =>
    unfold egcdRec
    split
    case isTrue => simp
    case isFalse =>
      dsimp only
      rw [← ih b (a.tmod b), Int.tmod_def]
      ring

/-! ## Sign normalisation -/

theorem Bezout.normalise_g (t : Bezout) : t.normalise.g = t.g.natAbs := by
  unfold Bezout.normalise
  split
  case isTrue hneg => exact (Int.ofNat_natAbs_of_nonpos hneg.le).symm
  case isFalse hnonneg => exact (Int.natAbs_of_nonneg (by omega)).symm

/-- Sign normalisation keeps the coefficients' law (R119). -/
theorem Bezout.normalise_bezout {t : Bezout} {a b : Int} (h : a * t.x + b * t.y = t.g) :
    a * t.normalise.x + b * t.normalise.y = t.normalise.g := by
  unfold Bezout.normalise
  split
  case isTrue =>
    dsimp only
    rw [← h]
    ring
  case isFalse => exact h

theorem Bezout.natAbs_normalise_x (t : Bezout) : t.normalise.x.natAbs = t.x.natAbs := by
  unfold Bezout.normalise
  split <;> simp

theorem Bezout.natAbs_normalise_y (t : Bezout) : t.normalise.y.natAbs = t.y.natAbs := by
  unfold Bezout.normalise
  split <;> simp

/-- Sign normalisation multiplies by the sign of the gcd, where that is not 0 (R119). -/
theorem Bezout.normalise_eq_sign_mul {t : Bezout} (h : t.g ≠ 0) :
    t.normalise = ⟨t.g.natAbs, t.g.sign * t.x, t.g.sign * t.y⟩ := by
  rcases lt_or_gt_of_ne h with hneg | hpos
  · rw [Bezout.normalise, if_pos hneg, Int.sign_eq_neg_one_of_neg hneg, Int.ofNat_natAbs_of_nonpos hneg.le]
    simp
  · rw [Bezout.normalise, if_neg (by omega), Int.sign_eq_one_of_pos hpos, Int.natAbs_of_nonneg hpos.le]
    simp

/-! ## The iterative datapath -/

/-- The next remainder is that of the truncating division (R119). -/
theorem EuclidPath.iterate_r1 (d : EuclidPath) : d.iterate.r1 = d.r0.tmod d.r1 := by
  rw [EuclidPath.iterate, Int.tmod_def, mul_comm]

/-- The coefficients that the loop ends with are those of the recursion on the remainders it starts from, read from the
other end (R119): with the same fuel for both, whether it is enough or not. -/
theorem euclidLoop_eq_egcdRec (n : Nat) (d : EuclidPath) :
    let t := egcdRec n d.r0 d.r1
    (euclidLoop n d).r0 = t.g ∧ (euclidLoop n d).s0 = d.s0 * t.x + d.s1 * t.y
      ∧ (euclidLoop n d).t0 = d.t0 * t.x + d.t1 * t.y := by
  induction n generalizing d with
  | zero => simp [egcdRec, euclidLoop]
  | succ n ih =>
    unfold egcdRec euclidLoop
    split
    case isTrue => simp
    case isFalse =>
      obtain ⟨hr, hs, ht⟩ := ih d.iterate
      rw [EuclidPath.iterate_r1] at hr hs ht
      refine ⟨hr, hs.trans ?_, ht.trans ?_⟩
      all_goals
        dsimp only [EuclidPath.iterate]
        ring

/-- The hardware computes the normative definition (R119). -/
theorem egcd_eq_egcdNormative (a b : Int) : egcd a b = egcdNormative a b := by
  obtain ⟨hr, hs, ht⟩ := euclidLoop_eq_egcdRec b.natAbs ⟨a, b, 1, 0, 0, 1⟩
  rw [egcd, hr, hs, ht, egcdNormative]
  simp

/-- `egcd` computes the library's gcd (R119). -/
theorem egcd_g (a b : Int) : (egcd a b).g = a.gcd b := by
  rw [egcd_eq_egcdNormative, egcdNormative, Bezout.normalise_g, natAbs_egcdRec_g a le_rfl]

/-- The coefficients of `egcd` give the gcd (R119). -/
theorem egcd_bezout (a b : Int) : a * (egcd a b).x + b * (egcd a b).y = (egcd a b).g := by
  rw [egcd_eq_egcdNormative]
  exact Bezout.normalise_bezout (egcdRec_bezout _ a b)

/-- The loop invariant of R119: both remainders are the combinations of the arguments that the coefficients say. -/
structure EuclidPath.Combines (a b : Int) (d : EuclidPath) : Prop where
  fst : d.r0 = a * d.s0 + b * d.t0
  snd : d.r1 = a * d.s1 + b * d.t1

/-- One iteration keeps the loop invariant. -/
theorem EuclidPath.Combines.iterate {a b : Int} {d : EuclidPath} (h : d.Combines a b) : d.iterate.Combines a b where
  fst := h.snd
  snd := by
    obtain ⟨hfst, hsnd⟩ := h
    calc d.r0 - d.r0.tdiv d.r1 * d.r1
        = a * d.s0 + b * d.t0 - d.r0.tdiv d.r1 * (a * d.s1 + b * d.t1) := by rw [← hfst, ← hsnd]
      _ = a * d.iterate.s1 + b * d.iterate.t1 := by
        dsimp only [EuclidPath.iterate]
        ring

/-- The loop invariant holds after every number of iterations (R119). -/
theorem iterate_combines (a b : Int) (n : Nat) : (EuclidPath.iterate^[n] ⟨a, b, 1, 0, 0, 1⟩).Combines a b := by
  induction n with
  | zero => exact ⟨by simp, by simp⟩
  | succ n ih =>
    rw [Function.iterate_succ_apply']
    exact ih.iterate

/-- The second remainder decreases in magnitude (R119). -/
theorem EuclidPath.natAbs_iterate_r1_lt {d : EuclidPath} (h : d.r1 ≠ 0) : d.iterate.r1.natAbs < d.r1.natAbs := by
  rw [EuclidPath.iterate_r1]
  exact natAbs_tmod_lt d.r0 d.r1 h

/-- Settles O20: the recursion is the only function that meets the equations, and the loop computes it. -/
theorem egcdMatchesRecursion : Obligations.EgcdMatchesRecursion := by
  refine ⟨fun f hzero hstep a b => ?_, fun a b => ⟨egcd_g a b, egcd_bezout a b, fun n => ?_⟩⟩
  · rw [egcd_eq_egcdNormative, egcdNormative, egcdRec_eq_of_equations hzero hstep a le_rfl]
    rfl
  · obtain ⟨hfst, hsnd⟩ := iterate_combines a b n
    exact ⟨hfst, hsnd, EuclidPath.natAbs_iterate_r1_lt⟩

/-! ## EGCD -/

/-- What every iteration that takes place keeps, the Euclid loop keeps. -/
theorem euclidLoop_induction {P : EuclidPath → Prop} (hstep : ∀ d, d.r1 ≠ 0 → P d → P d.iterate) (n : Nat)
    {d : EuclidPath} (h : P d) : P (euclidLoop n d) := by
  induction n generalizing d with
  | zero => exact h
  | succ n ih =>
    unfold euclidLoop
    split
    case isTrue => exact h
    case isFalse hr1 => exact ih (hstep d hr1 h)

/-- The range of the first coefficient (R120). -/
theorem abs_egcd_x_le (a b : Int) : |(egcd a b).x| ≤ max 1 |b| := by
  have hend := euclidLoop_induction (P := fun d => CoefficientsBelow (max 1 b.natAbs + 1) d.r0 d.r1 d.s0 d.s1)
    (fun d hr1 hd => hd.iterate hr1) b.natAbs (d := ⟨a, b, 1, 0, 0, 1⟩) ⟨by simp, by simp, by simp⟩
  have hlt := hend.fst_lt
  rw [egcd, Int.abs_eq_natAbs, Int.abs_eq_natAbs, Bezout.natAbs_normalise_x]
  dsimp only
  omega

/-- The range of the second coefficient (R120). -/
theorem abs_egcd_y_le (a b : Int) : |(egcd a b).y| ≤ max 1 |a| := by
  have hend := euclidLoop_induction (P := fun d => CoefficientsBelow (max 1 a.natAbs + 1) d.r0 d.r1 d.t0 d.t1)
    (fun d hr1 hd => hd.iterate hr1) b.natAbs (d := ⟨a, b, 1, 0, 0, 1⟩) ⟨by simp, by simp, by simp⟩
  have hlt := hend.fst_lt
  rw [egcd, Int.abs_eq_natAbs, Int.abs_eq_natAbs, Bezout.natAbs_normalise_y]
  dsimp only
  omega

/-- The corner case b = 0 of R120. -/
theorem egcdNormative_zero_right {a : Int} (ha : a ≠ 0) : egcdNormative a 0 = ⟨a.natAbs, a.sign, 0⟩ := by
  rw [egcdNormative, egcdRec_zero, Bezout.normalise_eq_sign_mul ha]
  simp

/-- The corner cases of R120 in which b divides a: the recursion ends after one unfolding. -/
theorem egcdNormative_of_tmod_eq_zero {a b : Int} (hb : b ≠ 0) (h : a.tmod b = 0) :
    egcdNormative a b = ⟨b.natAbs, 0, b.sign⟩ := by
  rw [egcdNormative, egcdRec_step a b hb, h, egcdRec_zero, Bezout.normalise_eq_sign_mul hb]
  simp

/-- The three result registers written after the prologue. -/
theorem cleared_setR_three (u v w : Int) :
    ((ResultState.cleared.setR 0 u).setR 1 v).setR 2 w = { noResults with r := #v[u, v, w, 0] } := by
  rw [cleared_eq_noResults]
  rfl

/-- Settles O21: the registers hold the triple of the datapath, which is the normative one. -/
theorem egcdResult : Obligations.EgcdResult := by
  refine ⟨by decide, ?_⟩
  rintro s a b rfl rfl
  have hbezout := egcd_bezout (s.xVal 0) (s.xVal 1)
  have hx := abs_egcd_x_le (s.xVal 0) (s.xVal 1)
  have hy := abs_egcd_y_le (s.xVal 0) (s.xVal 1)
  have hexec : exec .egcd s = s.returns { noResults with
      r := #v[(egcd (s.xVal 0) (s.xVal 1)).g, (egcd (s.xVal 0) (s.xVal 1)).x, (egcd (s.xVal 0) (s.xVal 1)).y, 0] } := by
    rw [← cleared_setR_three]
    exact exec_returns rfl
  rw [egcd_g] at hexec hbezout
  rw [egcd_eq_egcdNormative] at hexec hbezout hx hy
  refine ⟨_, _, hexec, rfl, rfl, hbezout, hx, hy, fun hb ha => ?_, fun ha hb => ?_, fun ha hb => ?_, fun hab ha => ?_⟩
  · simp [hb, egcdNormative_zero_right ha]
  · rw [ha, hb]
    decide
  · simp [ha, egcdNormative_of_tmod_eq_zero hb (Int.zero_tmod _)]
  · simp [← hab, egcdNormative_of_tmod_eq_zero ha Int.tmod_self]

/-! ## MODINV -/

/-- The gcd that `modInv` looks at is that of its arguments (R122). -/
theorem egcd_emod_g (a m : Int) : (egcd (a % m) m).g = a.gcd m := by
  rw [egcd_g, Int.gcd_emod]

/-- Coprime to the modulus: `modInv` answers an inverse (R122). -/
theorem modInv_of_coprime {a m : Int} (h : a.gcd m = 1) : ∃ x, modInv a m = some x ∧ a * x % m = 1 % m := by
  have hg : (egcd (a % m) m).g = 1 := by rw [egcd_emod_g, h, Nat.cast_one]
  refine ⟨(egcd (a % m) m).x % m, by simp only [modInv, hg, if_true], ?_⟩
  have hbezout := egcd_bezout (a % m) m
  rw [hg] at hbezout
  calc a * ((egcd (a % m) m).x % m) % m
      = (a % m * (egcd (a % m) m).x + m * (egcd (a % m) m).y) % m := by simp [Int.mul_emod]
    _ = 1 % m := by rw [hbezout]

/-- Not coprime to the modulus: `modInv` answers none (R122). -/
theorem modInv_of_not_coprime {a m : Int} (h : a.gcd m ≠ 1) : modInv a m = none := by
  have hg : (egcd (a % m) m).g ≠ 1 := by
    rw [egcd_emod_g]
    exact_mod_cast h
  simp only [modInv, hg, if_false]

/-- `ABSENT` set after the prologue. -/
theorem cleared_setFlag_absent :
    ResultState.cleared.setFlag .absent true = { noResults with status := 0x80000100 } := by
  decide

/-- `MODINV` raises at the check of R124. -/
theorem modinvRule_invalid {s : State} {o : ResultState} (h : s.xVal 1 ≤ 0) :
    modinvRule s o = .error .invalidInput := if_pos h

/-- `MODINV` with an inverse (R124). -/
theorem modinvRule_some {s : State} {o : ResultState} {x : Int} (hm : 0 < s.xVal 1)
    (h : modInv (s.xVal 0) (s.xVal 1) = some x) : modinvRule s o = .ok (o.setR 0 x) := by
  rw [modinvRule, if_neg (by omega), h]

/-- `MODINV` without an inverse (R124). -/
theorem modinvRule_none {s : State} {o : ResultState} (hm : 0 < s.xVal 1)
    (h : modInv (s.xVal 0) (s.xVal 1) = none) : modinvRule s o = .ok (o.setFlag .absent true) := by
  rw [modinvRule, if_neg (by omega), h]

/-- Settles O22: `modInv` answers an inverse exactly to arguments with gcd 1. -/
theorem modinvResult : Obligations.ModinvResult := by
  refine ⟨by decide, ?_⟩
  rintro s a m rfl rfl
  refine ⟨fun hm => exec_invalidInput (modinvRule_invalid (s := s.prologue) hm), fun hm h => ?_, fun hm h => ?_⟩
  · obtain ⟨x, hx, hinv⟩ := modInv_of_coprime h
    obtain ⟨hnonneg, hlt⟩ := modInv_mem hm hx
    refine ⟨x, hnonneg, hlt, hinv, hx, ?_⟩
    rw [← cleared_setR_zero]
    exact exec_returns (modinvRule_some (s := s.prologue) hm hx)
  · have hnone := modInv_of_not_coprime h
    refine ⟨hnone, ?_⟩
    rw [← cleared_setFlag_absent]
    exact exec_returns (modinvRule_none (s := s.prologue) hm hnone)

end Sys2Proof.Machine
end

section
/-! The conversions between bytes and integers of `40_integer_kernel.md` R128 and R130: `B2I` and `I2B`, statements O23 to
O25. -/

namespace Sys2Proof.Machine

open Sys2Proof

/-! ## B2I -/

/-- `B2I` of a value that fits a result register (R128). -/
theorem exec_b2i_fits {s : State} (h : beVal s.ibuf < 256 ^ s.cfg.resb) :
    exec .b2i s = s.returns { noResults with r := #v[(beVal s.ibuf : Int), 0, 0, 0] } := by
  have hlen := (length_minBytes_le_iff _ _).mpr h
  have hrule : b2iRule s.prologue ResultState.cleared = .ok (ResultState.cleared.setR 0 (beVal s.ibuf)) :=
    if_neg hlen.not_gt
  rw [← cleared_setR_zero]
  exact exec_returns hrule

/-- `B2I` of a value that does not fit a result register (R128). -/
theorem exec_b2i_overflow {s : State} (h : 256 ^ s.cfg.resb ≤ beVal s.ibuf) : exec .b2i s = s.raises 4 := by
  have hlen : s.cfg.resb < (minBytes (beVal s.ibuf)).length := by
    rw [← not_le, length_minBytes_le_iff]
    omega
  have hrule : b2iRule s.prologue ResultState.cleared = .error .resourceLimit := if_pos hlen
  exact exec_raises (i := .b2i) hrule

/-- Settles O23: the value is the one of the library's digits, and its length is compared through `MINBYTES`. -/
theorem b2iResult : Obligations.B2iResult := by
  refine ⟨by decide, ?_⟩
  rintro s v rfl
  rw [← beVal_eq_ofDigits]
  exact ⟨exec_b2i_fits, exec_b2i_overflow⟩

/-! ## I2B -/

/-- `I2B` of a negative integer (R130). -/
theorem exec_i2b_negative {s : State} (h : s.xVal 0 < 0) : exec .i2b s = s.raises 1 := by
  have hrule : i2bRule s.prologue ResultState.cleared = .error .invalidInput := if_pos h
  exact exec_invalidInput hrule

/-- The bytes of an operand fit the output buffer, which is never shorter than an operand register (R8, R130). -/
theorem length_minBytes_xVal_le {s : State} (hl : s.lensOk) (k : Fin 4) (h : 0 ≤ s.xVal k) :
    (minBytes (s.xVal k).toNat).length ≤ s.cfg.obufCap := by
  have hfits : (s.xVal k).natAbs < 256 ^ s.cfg.opb := s.fitsOperand_xVal hl k
  have hlen : (minBytes (s.xVal k).toNat).length ≤ s.cfg.opb := by
    rw [length_minBytes_le_iff]
    omega
  exact hlen.trans (le_max_right 32 s.cfg.opb)

/-- `I2B` of an integer that is not negative (R130): the output buffer has room, so nothing raises. -/
theorem exec_i2b_nonneg {s : State} (hl : s.lensOk) (h : 0 ≤ s.xVal 0) :
    exec .i2b s = s.returns { noResults with obuf := minBytes (s.xVal 0).toNat } := by
  have hlen := length_minBytes_xVal_le hl 0 h
  have hrule : i2bRule s.prologue ResultState.cleared
      = .ok { ResultState.cleared with obuf := minBytes (s.xVal 0).toNat } := by
    have hpos : ¬ s.prologue.xVal 0 < 0 := by
      rw [State.prologue_xVal]
      omega
    rw [i2bRule, if_neg hpos]
    exact if_pos hlen
  rw [← cleared_eq_noResults]
  exact exec_returns hrule

/-- Settles O24: `MINBYTES` writes the library's digits, and they fit the output buffer. -/
theorem i2bResult : Obligations.I2bResult := by
  refine ⟨by decide, fun s hl => ⟨exec_i2b_negative, fun h => ?_⟩⟩
  rw [← minBytes_eq_digits]
  exact exec_i2b_nonneg hl h

/-! ## The round trip -/

/-- An operand fits a result register (R8, R24). -/
theorem State.fits_xVal {s : State} (hl : s.lensOk) (k : Fin 4) : s.cfg.fits (s.xVal k) :=
  Params.fitsOperand.fits (State.fitsOperand_xVal hl k)

/-- `LDB` of a string whose value fits a result register, then `B2I` (R77, R128). -/
theorem exec_b2i_after_ldb {s : State} (hc : s.cfg.ok = true) (hm : s.mem.wf) {bs : List Byte}
    (hlen : bs.length ≤ s.cfg.ibufCap) (hfits : beVal bs < 256 ^ s.cfg.resb) :
    ∃ t, runAccesses (ldbAccesses bs) s = .ok t
      ∧ exec .b2i t = t.returns { noResults with r := #v[(beVal bs : Int), 0, 0, 0] } := by
  obtain ⟨rs, hload⟩ := runAccesses_ldb hc hlen
  have hcap := Params.ibufCap_le hc
  have hbuf : (s.afterLdb bs rs).ibuf = bs := State.ibuf_afterLdb rs hm (by omega)
  rw [← hbuf] at hfits
  refine ⟨_, hload, (exec_b2i_fits hfits).trans ?_⟩
  rw [hbuf]

/-- Settles O25: `I2B` leaves `MINBYTES` of n, `LDB` brings it to the input buffer, and its value is n again. -/
theorem i2bThenB2i : Obligations.I2bThenB2i := by
  intro s hs hnonneg hcap
  obtain ⟨hc, hl, ⟨hm, -⟩, -⟩ := hs
  have hfits : (s.xVal 0).natAbs < 256 ^ s.cfg.resb := s.fits_xVal hl 0
  have hlen : (minBytes (s.xVal 0).toNat).length ≤ s.cfg.ibufCap := by
    rw [length_minBytes_le_iff]
    omega
  obtain ⟨u, hload, hb2i⟩ := exec_b2i_after_ldb
    (s := { s with out := { noResults with obuf := minBytes (s.xVal 0).toNat } }) hc hm hlen
    (by rw [beVal_minBytes]; exact (by omega : (s.xVal 0).toNat < 256 ^ s.cfg.resb))
  rw [beVal_minBytes, Int.toNat_of_nonneg hnonneg] at hb2i
  exact ⟨_, u, _, exec_i2b_nonneg hl hnonneg, hload, hb2i, rfl, rfl⟩

end Sys2Proof.Machine
end

section
/-! The exponent search and the command `DERIVE` of `41_rsa_deriver.md` R141 to R148, and the round trip of R150:
statements O26 to O28. -/

namespace Sys2Proof.Machine

open Sys2Proof

/-! ## The inverse that `modInv` answers -/

/-- An integer has at most one inverse among the residues. -/
theorem eq_of_mul_emod_eq_one {a m x y : Int} (hx : 0 ≤ x ∧ x < m) (hy : 0 ≤ y ∧ y < m) (hax : a * x % m = 1 % m)
    (hay : a * y % m = 1 % m) : x = y := by
  have hmod : x ≡ y [ZMOD m] :=
    calc x = x * 1 := (mul_one x).symm
      _ ≡ x * (a * y) [ZMOD m] := (Int.ModEq.symm hay).mul_left x
      _ = a * x * y := by ring
      _ ≡ 1 * y [ZMOD m] := Int.ModEq.mul_right y hax
      _ = y := one_mul y
  calc x = x % m := (Int.emod_eq_of_lt hx.1 hx.2).symm
    _ = y % m := hmod
    _ = y := Int.emod_eq_of_lt hy.1 hy.2

/-- Coprime to the modulus: `modInv` answers the one inverse among the residues (R122). -/
theorem modInv_eq_some_iff {a m x : Int} (hm : 1 < m) (h : a.gcd m = 1) :
    modInv a m = some x ↔ (0 ≤ x ∧ x < m) ∧ a * x % m = 1 := by
  obtain ⟨y, hy, hinv⟩ := modInv_of_coprime h
  have hmem := modInv_mem (by omega) hy
  have hone : 1 % m = 1 := Int.emod_eq_of_lt (by omega) hm
  rw [hy, Option.some_inj]
  constructor
  · rintro rfl
    exact ⟨hmem, hinv.trans hone⟩
  · rintro ⟨hx, hax⟩
    exact eq_of_mul_emod_eq_one hmem hx hinv (hax.trans hone.symm)

/-! ## The pair that the search looks for -/

/-- A key pair for the exponent modulus `t`: what R148 says of the pair that `DERIVE` returns. -/
structure KeyPair (t e d : Int) : Prop where
  one_lt : 1 < e
  lt : e < t
  coprime : e.gcd t = 1
  inverse_mem : 0 ≤ d ∧ d < t
  inverse : e * d % t = 1
  ne : d ≠ e

/-- The inverse of a key pair is what `modInv` answers. -/
theorem KeyPair.modInv_eq {t e d : Int} (h : KeyPair t e d) : modInv e t = some d := by
  obtain ⟨hone, hlt, hgcd, hmem, hinv, -⟩ := h
  exact (modInv_eq_some_iff (by omega) hgcd).mpr ⟨hmem, hinv⟩

/-- The inverse of a key pair is not 0. -/
theorem KeyPair.inverse_pos {t e d : Int} (h : KeyPair t e d) : 0 < d := by
  have hd : d ≠ 0 := by
    rintro rfl
    simpa using h.inverse
  have hmem := h.inverse_mem
  omega

/-- A candidate in range begins a key pair, or it is its own inverse if it has one (R145). -/
theorem keyPair_or_selfInverse {t c : Int} (hc : 1 < c) (hct : c < t) :
    (∃ d, KeyPair t c d) ∨ (c.gcd t = 1 → c * c % t = 1) := by
  by_cases hgcd : c.gcd t = 1
  · obtain ⟨d, hd, -⟩ := modInv_of_coprime hgcd
    obtain ⟨hmem, hinv⟩ := (modInv_eq_some_iff (by omega) hgcd).mp hd
    by_cases hne : d = c
    · exact .inr fun _ => hne ▸ hinv
    · exact .inl ⟨d, hc, hct, hgcd, hmem, hinv, hne⟩
  · exact .inr fun h => absurd h hgcd

/-! ## One attempt of the search -/

/-- The candidate after `c` is the next odd integer (R145). -/
theorem nextCandidate_eq_nextOdd (c : Int) : nextCandidate c = nextOdd c := by
  simp only [nextCandidate, nextOdd, Int.even_iff]

theorem lt_nextOdd (c : Int) : c < nextOdd c := nextCandidate_eq_nextOdd c ▸ lt_nextCandidate c

/-- The candidates do not fall below the start (R145). -/
theorem le_iterate_nextOdd (k : Nat) (c : Int) : c ≤ nextOdd^[k] c :=
  Function.id_le_iterate_of_id_le (fun x => (lt_nextOdd x).le) k c

/-- A candidate that has reached T ends the search (R145). -/
theorem exponentSearch_of_le {t c : Int} (left : Nat) (h : t ≤ c) :
    exponentSearch t left c = .error .searchExhausted := by
  cases left with
  | zero => rfl
  | succ left => rw [exponentSearch, if_pos h]

/-- A candidate that begins a key pair is accepted (R145). -/
theorem exponentSearch_of_keyPair {t c d : Int} (left : Nat) (h : KeyPair t c d) :
    exponentSearch t (left + 1) c = .ok (c, d) := by
  have hlt : ¬ t ≤ c := h.lt.not_ge
  have hgcd : gcdOf c t = 1 := by rw [gcdOf_eq_gcd, h.coprime, Nat.cast_one]
  simp only [exponentSearch, if_neg hlt, if_pos hgcd, h.modInv_eq, if_pos h.ne]

/-- A candidate that is its own inverse, or has none, is passed over (R145). -/
theorem exponentSearch_of_selfInverse {t c : Int} (left : Nat) (hc : 1 < c) (hct : c < t)
    (h : c.gcd t = 1 → c * c % t = 1) :
    exponentSearch t (left + 1) c = exponentSearch t left (nextOdd c) := by
  rw [exponentSearch, if_neg hct.not_ge, gcdOf_eq_gcd, nextCandidate_eq_nextOdd]
  by_cases hgcd : c.gcd t = 1
  · have hinv : modInv c t = some c := (modInv_eq_some_iff (by omega) hgcd).mpr ⟨by omega, h hgcd⟩
    simp [hgcd, hinv]
  · rw [if_neg (by exact_mod_cast hgcd)]

/-! ## The search -/

/-- The pair that the search answers is a key pair (R148). -/
theorem keyPair_of_exponentSearch {t c e d : Int} {left : Nat} (hc : 1 < c)
    (h : exponentSearch t left c = .ok (e, d)) : KeyPair t e d := by
  induction left generalizing c with
  | zero => cases h
  | succ left ih =>
    rcases le_or_gt t c with hle | hct
    · cases (exponentSearch_of_le _ hle).symm.trans h
    · rcases keyPair_or_selfInverse hc hct with ⟨d', hpair⟩ | hself
      · cases (exponentSearch_of_keyPair left hpair).symm.trans h
        exact hpair
      · rw [exponentSearch_of_selfInverse left hc hct hself] at h
        exact ih (hc.trans (lt_nextOdd c)) h

/-- The search answers the first candidate that begins a key pair (R145). -/
theorem exponentSearch_eq_ok {t c d : Int} {left k : Nat} (hc : 1 < c) (hk : k < left)
    (hpair : KeyPair t (nextOdd^[k] c) d)
    (hself : ∀ j < k, (nextOdd^[j] c).gcd t = 1 → nextOdd^[j] c * nextOdd^[j] c % t = 1) :
    exponentSearch t left c = .ok (nextOdd^[k] c, d) := by
  induction k generalizing c left with
  | zero =>
    obtain ⟨left, rfl⟩ : ∃ n, left = n + 1 := ⟨left - 1, by omega⟩
    exact exponentSearch_of_keyPair left hpair
  | succ k ih =>
    obtain ⟨left, rfl⟩ : ∃ n, left = n + 1 := ⟨left - 1, by omega⟩
    have hct : c < t := (le_iterate_nextOdd (k + 1) c).trans_lt hpair.lt
    rw [exponentSearch_of_selfInverse left hc hct (hself 0 (by omega))]
    exact ih (hc.trans (lt_nextOdd c)) (by omega) hpair fun j hj => hself (j + 1) (by omega)

/-- Without a key pair among the candidates below T, the search ends without an answer (R145). -/
theorem exponentSearch_eq_error {t c : Int} {left : Nat} (hc : 1 < c)
    (hself : ∀ j < left, nextOdd^[j] c < t → (nextOdd^[j] c).gcd t = 1 → nextOdd^[j] c * nextOdd^[j] c % t = 1) :
    exponentSearch t left c = .error .searchExhausted := by
  induction left generalizing c with
  | zero => rfl
  | succ left ih =>
    rcases le_or_gt t c with hle | hct
    · exact exponentSearch_of_le _ hle
    · rw [exponentSearch_of_selfInverse left hc hct (hself 0 (by omega) hct)]
      exact ih (hc.trans (lt_nextOdd c)) fun j hj => hself (j + 1) (by omega)

/-! ## DERIVE -/

/-- The exponent modulus of the model is T of R141. -/
theorem exponentModulus_eq_derivedModulus (carm : Bool) (p q : Int) :
    exponentModulus carm p q = derivedModulus carm p q := by
  rw [exponentModulus, derivedModulus, lcmOf_eq_lcm]

/-- The search starts at candidate number 0 (R145). -/
theorem firstCandidate_eq_derivedCandidate_zero (t start : Int) :
    firstCandidate t start = derivedCandidate t start 0 := by
  simp only [firstCandidate, derivedCandidate, Function.iterate_zero_apply]
  split_ifs <;> omega

/-- The first candidate of R145 is greater than 1. -/
theorem one_lt_derivedCandidate_zero (t start : Int) : 1 < derivedCandidate t start 0 :=
  firstCandidate_eq_derivedCandidate_zero t start ▸ two_le_firstCandidate t start

/-- The search of a `DERIVE` command, in the terms of its statements (R144, R145). -/
def State.keySearch (s : State) (carm hint : Bool) : Except ErrorCode (Int × Int) :=
  let t := derivedModulus carm (s.xVal 0) (s.xVal 1)
  exponentSearch t s.cfg.eAttempts (derivedCandidate t (derivedStart hint s) 0)

/-- The operands of `DERIVE` past the checks of R144. -/
structure State.KeyOperands (s : State) : Prop where
  ne : s.xVal 0 ≠ s.xVal 1
  two_le_fst : 2 ≤ s.xVal 0
  two_le_snd : 2 ≤ s.xVal 1

/-- The operands pass the checks of R144, or one of the checks refuses them. -/
theorem State.keyOperands_or_invalid (s : State) :
    s.KeyOperands ∨ (s.xVal 0 = s.xVal 1 ∨ s.xVal 0 < 2 ∨ s.xVal 1 < 2) := by
  by_cases h : s.xVal 0 = s.xVal 1 ∨ s.xVal 0 < 2 ∨ s.xVal 1 < 2
  · exact .inr h
  · exact .inl ⟨by omega, by omega, by omega⟩

section
variable {carm hint : Bool} {s : State}

/-- The rule of `DERIVE` raises at the checks of R144. -/
theorem deriveRule_invalid {o : ResultState} (h : s.xVal 0 = s.xVal 1 ∨ s.xVal 0 < 2 ∨ s.xVal 1 < 2) :
    deriveRule carm hint s o = .error .invalidInput := by
  unfold deriveRule
  dsimp only
  split_ifs with heq
  · rfl
  · rfl
  · omega

/-- `DERIVE` at the checks of R144. -/
theorem exec_derive_invalid (h : s.xVal 0 = s.xVal 1 ∨ s.xVal 0 < 2 ∨ s.xVal 1 < 2) :
    exec (.derive carm hint) s = s.raises 1 := exec_invalidInput (deriveRule_invalid (s := s.prologue) h)

/-- `DERIVE` past the checks of R144 does what its search says. -/
theorem deriveRule_eq_keySearch (h : s.KeyOperands) :
    deriveRule carm hint s.prologue ResultState.cleared = (s.keySearch carm hint).map
      fun k => { noResults with r := #v[s.xVal 0 * s.xVal 1, k.1, k.2, 0] } := by
  obtain ⟨hne, hp, hq⟩ := h
  have hsmall : ¬ (s.xVal 0 < 2 ∨ s.xVal 1 < 2) := by omega
  have hstart : searchStart hint s.prologue = derivedStart hint s := rfl
  simp only [deriveRule, State.prologue_xVal, State.prologue_cfg, if_neg hne, if_neg hsmall, hstart,
    exponentModulus_eq_derivedModulus, firstCandidate_eq_derivedCandidate_zero, cleared_setR_three]
  unfold State.keySearch
  dsimp only
  split
  case h_1 hsearch => rw [hsearch]; rfl
  case h_2 hsearch => rw [hsearch]; rfl

/-- `DERIVE` when its search finds a pair (R144). -/
theorem exec_derive_found (h : s.KeyOperands) {e d : Int} (hsearch : s.keySearch carm hint = .ok (e, d)) :
    exec (.derive carm hint) s = s.returns { noResults with r := #v[s.xVal 0 * s.xVal 1, e, d, 0] } := by
  refine exec_returns ((deriveRule_eq_keySearch h).trans ?_)
  rw [hsearch]
  rfl

/-- `DERIVE` when its search finds no pair (R145). -/
theorem exec_derive_exhausted (h : s.KeyOperands) (hsearch : s.keySearch carm hint = .error .searchExhausted) :
    exec (.derive carm hint) s = s.raises 2 := by
  refine exec_raises (c := .searchExhausted) ((deriveRule_eq_keySearch h).trans ?_)
  rw [hsearch]
  rfl

end

/-- Settles O26: past the checks the command does what its search says, and the search answers the first candidate that
begins a key pair. -/
theorem deriveResult : Obligations.DeriveResult := by
  intro carm hint
  refine ⟨by cases carm <;> cases hint <;> decide, ?_⟩
  rintro s p q t c rfl rfl rfl rfl
  have hstart := one_lt_derivedCandidate_zero (derivedModulus carm (s.xVal 0) (s.xVal 1)) (derivedStart hint s)
  refine ⟨exec_derive_invalid, ?_, ?_⟩
  · intro hne hp hq k d hk hlt hgcd hd hdt hinv hdk hself
    have hone := hstart.trans_le (le_iterate_nextOdd k _)
    exact exec_derive_found ⟨hne, hp, hq⟩
      (exponentSearch_eq_ok hstart hk ⟨hone, hlt, hgcd, ⟨hd, hdt⟩, hinv, hdk⟩ hself)
  · intro hne hp hq hself
    exact exec_derive_exhausted ⟨hne, hp, hq⟩ (exponentSearch_eq_error hstart hself)

/-! ## The postcondition -/

/-- A command that raised does not end with code `OK` (R270). -/
theorem statusCode_ne_zero_of_raises {s t : State} {c : ErrorCode} (h : s.raises c.number.toNat = .next t) :
    statusCode t.out.status ≠ 0 := by
  have hcode : statusCode (0x80000000 + BitVec.ofNat 32 c.number.toNat) ≠ 0 := by cases c <;> decide
  cases h
  exact hcode

/-- `DERIVE` ends with code `OK` only past its checks, with a key pair for T in its result registers. -/
theorem keyPair_of_exec_derive {carm hint : Bool} {s t : State} (h : exec (.derive carm hint) s = .next t)
    (hcode : statusCode t.out.status = 0) :
    s.KeyOperands ∧ ∃ e d, KeyPair (derivedModulus carm (s.xVal 0) (s.xVal 1)) e d
      ∧ t.out.r = #v[s.xVal 0 * s.xVal 1, e, d, 0] := by
  rcases s.keyOperands_or_invalid with hops | hinvalid
  · cases hsearch : s.keySearch carm hint with
    | ok k =>
      have hpair := keyPair_of_exponentSearch (one_lt_derivedCandidate_zero _ _) hsearch
      rw [exec_derive_found hops hsearch] at h
      cases h
      exact ⟨hops, k.1, k.2, hpair, rfl⟩
    | error c =>
      obtain rfl := exponentSearch_error hsearch
      rw [exec_derive_exhausted hops hsearch] at h
      exact absurd hcode (statusCode_ne_zero_of_raises (c := .searchExhausted) h)
  · rw [exec_derive_invalid hinvalid] at h
    exact absurd hcode (statusCode_ne_zero_of_raises (c := .invalidInput) h)

/-- Settles O27: the search answers key pairs only. -/
theorem derivePostcondition : Obligations.DerivePostcondition := by
  rintro carm hint s t m hexec hcode rfl
  obtain ⟨-, e, d, hpair, hr⟩ := keyPair_of_exec_derive hexec hcode
  rw [hr]
  exact ⟨rfl, hpair.one_lt, hpair.lt, hpair.coprime, hpair.inverse, hpair.ne.symm, hpair.inverse_pos,
    hpair.inverse_mem.2⟩

/-! ## The round trip -/

/-- Both choices of T are multiples of p − 1 and of q − 1 (R141, R150). -/
theorem sub_one_dvd_derivedModulus (carm : Bool) (p q : Int) :
    p - 1 ∣ derivedModulus carm p q ∧ q - 1 ∣ derivedModulus carm p q := by
  cases carm with
  | true => exact ⟨Int.dvd_lcm_left _ _, Int.dvd_lcm_right _ _⟩
  | false => exact ⟨dvd_mul_right _ _, dvd_mul_left _ _⟩

/-- Fermat: an exponent that is 1 modulo p − 1 gives every integer back modulo the prime p. -/
theorem pow_modEq_self_of_prime {p : Nat} (hp : p.Prime) {x : Nat} (hx : 0 < x) (h : (p : Int) - 1 ∣ x - 1) (c : Int) :
    c ^ x ≡ c [ZMOD p] := by
  have hdvd : p - 1 ∣ x - 1 := by
    have hone := hp.one_lt
    rw [← Int.natCast_dvd_natCast]
    push_cast [Nat.cast_sub hone.le, Nat.cast_sub hx]
    exact h
  simpa using Int.ModEq.pow_eq_pow hp hdvd hx one_pos c

/-- The product of a key pair gives every integer back modulo n, as an exponent (R150). -/
theorem KeyPair.pow_modEq_self {carm : Bool} {p q : Nat} (hp : p.Prime) (hq : q.Prime) (hne : p ≠ q) {e d : Int}
    (h : KeyPair (derivedModulus carm p q) e d) (c : Int) : c ^ (e.toNat * d.toNat) ≡ c [ZMOD (p * q)] := by
  have he := h.one_lt
  have hd := h.inverse_pos
  have hpos : 0 < e.toNat * d.toNat := Nat.mul_pos (by omega) (by omega)
  have hdvd : derivedModulus carm p q ∣ ((e.toNat * d.toNat : Nat) : Int) - 1 := by
    rw [Nat.cast_mul, Int.toNat_of_nonneg (by omega), Int.toNat_of_nonneg hd.le, ← h.inverse]
    exact Int.dvd_self_sub_emod
  obtain ⟨hpT, hqT⟩ := sub_one_dvd_derivedModulus carm p q
  rw [← Int.modEq_and_modEq_iff_modEq_mul (by simpa using (Nat.coprime_primes hp hq).mpr hne)]
  exact ⟨pow_modEq_self_of_prime hp hpos (hpT.trans hdvd) c, pow_modEq_self_of_prime hq hpos (hqT.trans hdvd) c⟩

/-- Two modular powers in a row are one with the product of the exponents. -/
theorem modPow_modPow {n : Int} (hn : 0 < n) (c a b : Int) :
    modPow (modPow c a n) b n = c ^ (a.toNat * b.toNat) % n := by
  rw [modPow_eq_pow_emod hn, modPow_eq_pow_emod hn, pow_mul]
  exact (Int.mod_modEq _ n).pow _

/-- Settles O28: e·d is 1 modulo p − 1 and modulo q − 1, and Fermat's theorem for p and for q gives the message back. -/
theorem rsaRoundTrip : Obligations.RsaRoundTrip := by
  intro carm hint s t p q hp hq hsp hsq hexec hcode c hc hlt
  obtain ⟨hops, e, d, hpair, hr⟩ := keyPair_of_exec_derive hexec hcode
  have hne : p ≠ q := by
    rintro rfl
    exact hops.ne (hsp.trans hsq.symm)
  rw [hsp, hsq] at hpair hr
  rw [hr] at hlt ⊢
  have hn : (0 : Int) < p * q := hc.trans_lt hlt
  have hback : c ^ (e.toNat * d.toNat) % (p * q) = c :=
    calc c ^ (e.toNat * d.toNat) % (p * q) = c % (p * q) := hpair.pow_modEq_self hp hq hne c
      _ = c := Int.emod_eq_of_lt hc hlt
  refine ⟨(modPow_modPow hn c d e).trans ?_, (modPow_modPow hn c e d).trans hback⟩
  rw [mul_comm]
  exact hback

end Sys2Proof.Machine
end

section
/-! The Diffie–Hellman tracer `DHX` of `42_diffie_hellman.md` R156, R157 and R159: statements O29 and O30. -/

namespace Sys2Proof

/-- The trace has room for the four records of an exchange (R8, R46). -/
theorem Params.four_le_traceCap {c : Params} (h : c.ok = true) : 4 ≤ c.traceCap := by
  simp only [Params.ok, Bool.and_eq_true, decide_eq_true_eq] at h
  omega

end Sys2Proof

namespace Sys2Proof.Machine

open Sys2Proof

/-! ## The result state of an exchange -/

/-- What an accepted exchange leaves (R156, R157): the two public values, the two shared values, and a record for each of
the four exponentiations. -/
def dhResults (p g a b : Int) : ResultState :=
  let pubA := g ^ a.toNat % p
  let pubB := g ^ b.toNat % p
  let sharedA := pubB ^ a.toNat % p
  let sharedB := pubA ^ b.toNat % p
  { noResults with
    r := #v[pubA, pubB, sharedA, sharedB]
    trace := [dhRecord 1 g a p pubA, dhRecord 2 g b p pubB, dhRecord 3 pubB a p sharedA, dhRecord 4 pubA b p sharedB] }

/-- The four result registers written after the records of a command. -/
theorem cleared_trace_setR_four (recs : List Record) (t u v w : Int) :
    (((({ ResultState.cleared with trace := recs }.setR 0 t).setR 1 u).setR 2 v).setR 3 w)
      = { noResults with r := #v[t, u, v, w], trace := recs } := by
  rw [cleared_eq_noResults]
  rfl

/-! ## DHX -/

/-- `DHX` raises at the checks of R156. -/
theorem dhxRule_invalid {s : State} {o : ResultState} (h : s.xVal 0 ≤ 0 ∨ s.xVal 2 < 0 ∨ s.xVal 3 < 0) :
    dhxRule s o = .error .invalidInput := by
  unfold dhxRule
  dsimp only
  split_ifs
  · rfl
  · rfl
  · omega

/-- The rule of `DHX` past the checks of R156: the four records fit the trace, so nothing raises. -/
theorem dhxRule_valid {s : State} (hc : s.cfg.ok = true) (hp : 0 < s.xVal 0) (ha : 0 ≤ s.xVal 2) (hb : 0 ≤ s.xVal 3) :
    dhxRule s ResultState.cleared = .ok (dhResults (s.xVal 0) (s.xVal 1) (s.xVal 2) (s.xVal 3)) := by
  have hmodulus : ¬ s.xVal 0 ≤ 0 := by omega
  have hexponents : ¬ (s.xVal 2 < 0 ∨ s.xVal 3 < 0) := by omega
  simp only [dhxRule, if_neg hmodulus, if_neg hexponents, modPow_eq_pow_emod hp, ResultState.emitAll_cleared,
    List.length_cons, List.length_nil, zero_add, Nat.reduceAdd, if_pos (Params.four_le_traceCap hc),
    cleared_trace_setR_four, dhResults]

/-- `DHX` past the checks of R156. -/
theorem exec_dhx_valid {s : State} (hc : s.cfg.ok = true) (hp : 0 < s.xVal 0) (ha : 0 ≤ s.xVal 2) (hb : 0 ≤ s.xVal 3) :
    exec .dhx s = s.returns (dhResults (s.xVal 0) (s.xVal 1) (s.xVal 2) (s.xVal 3)) :=
  exec_returns (dhxRule_valid (s := s.prologue) hc hp ha hb)

/-- Settles O29: past the checks the four records fit the trace, and each value is the modular power. -/
theorem dhxResult : Obligations.DhxResult := by
  refine ⟨by decide, ?_⟩
  rintro s p g a b pubA pubB shA shB hc rfl rfl rfl rfl rfl rfl rfl rfl
  exact ⟨fun h => exec_invalidInput (dhxRule_invalid (s := s.prologue) h), exec_dhx_valid hc⟩

/-! ## The shared value -/

/-- A modular power raised again is the modular power with the product of the exponents (R159). -/
theorem pow_emod_pow_emod {p : Int} (hp : 0 < p) (g a b : Int) :
    (g ^ a.toNat % p) ^ b.toNat % p = g ^ (a.toNat * b.toNat) % p := by
  simpa only [modPow_eq_pow_emod hp] using modPow_modPow hp g a b

/-- Settles O30: B^a and A^b are both the residue of g^(a·b). -/
theorem dhxSharedAgree : Obligations.DhxSharedAgree := by
  intro s hc hp ha hb
  have hsharedA := pow_emod_pow_emod hp (s.xVal 1) (s.xVal 3) (s.xVal 2)
  have hsharedB := pow_emod_pow_emod hp (s.xVal 1) (s.xVal 2) (s.xVal 3)
  rw [mul_comm] at hsharedA
  exact ⟨_, exec_dhx_valid hc hp ha hb, hsharedA.trans hsharedB.symm, rfl, rfl, hsharedA⟩

end Sys2Proof.Machine
end

section
/-! The discrete logarithm of `43_discrete_log.md` R165 as a congruence, and how a search over exponents runs and ends a
command (R166, R167, R172): what both solvers share. -/

namespace Sys2Proof.Machine

open Sys2Proof

/-! ## Least solutions -/

section
variable {g y p : Int}

/-- A congruence that has a solution has a least one. -/
theorem exists_leastSolution {x : Nat} (h : solves g y p x) : ∃ k, leastSolution g y p k := by
  classical
  have hex : ∃ k, solves g y p k := ⟨x, h⟩
  exact ⟨Nat.find hex, Nat.find_spec hex, fun _ => Nat.find_min hex⟩

/-- The least solution is at most every solution. -/
theorem le_of_leastSolution {x k : Nat} (h : leastSolution g y p k) (hx : solves g y p x) : k ≤ x := by
  by_contra hlt
  exact h.2 x (by omega) hx

theorem leastSolution_unique {x k : Nat} (hx : leastSolution g y p x) (hk : leastSolution g y p k) : x = k :=
  le_antisymm (le_of_leastSolution hx hk.1) (le_of_leastSolution hk hx.1)

/-- No least solution lies at or above the second of two equal powers: the powers between them can be cut (R169). -/
theorem leastSolution_lt_of_pow_eq {x i j : Nat} (h : leastSolution g y p x) (hij : i < j)
    (heq : g ^ i % p = g ^ j % p) : x < j := by
  by_contra hjx
  refine h.2 (x - j + i) (by omega) ?_
  have hpow : g ^ (x - j) * g ^ i ≡ g ^ (x - j) * g ^ j [ZMOD p] := Int.ModEq.mul_left _ heq
  rw [← pow_add, ← pow_add, show x - j + j = x by omega] at hpow
  exact hpow.trans h.1

/-- The least solution is below p: among p + 1 powers two are equal modulo p (R169). -/
theorem leastSolution_lt_modulus (hp : 0 < p) {x : Nat} (h : leastSolution g y p x) : (x : Int) < p := by
  have hcard : (Finset.Ico 0 p).card < (Finset.range (p.toNat + 1)).card := by simp
  obtain ⟨i, hi, j, hj, hne, heq⟩ := Finset.exists_ne_map_eq_of_card_lt_of_maps_to hcard
    (f := fun k : Nat => g ^ k % p) fun k _ => by simpa using emod_mem hp (g ^ k)
  rw [Finset.mem_range] at hi hj
  rcases Nat.lt_or_gt_of_ne hne with hlt | hlt
  · have hx := leastSolution_lt_of_pow_eq h hlt heq
    omega
  · have hx := leastSolution_lt_of_pow_eq h hlt heq.symm
    omega

/-- Without a solution below p there is none (R169). -/
theorem not_solves_of_forall_lt (hp : 0 < p) (h : ∀ x : Nat, (x : Int) < p → ¬ solves g y p x) (x : Nat) :
    ¬ solves g y p x := by
  intro hx
  obtain ⟨k, hk⟩ := exists_leastSolution hx
  exact h k (leastSolution_lt_modulus hp hk) hk.1

/-- The running power of both solvers: one more factor, reduced. -/
theorem pow_emod_mul_emod (g p : Int) (k : Nat) : g ^ k % p * (g % p) % p = g ^ (k + 1) % p := by
  rw [← Int.mul_emod, pow_succ]

end

/-! ## The status of a discrete-log command -/

/-- The flags of `dlogStatus` read back (R34). -/
theorem dlogStatus_reads : ∀ absent truncated nonprime base target noInverse : Bool,
    let st := dlogStatus absent truncated nonprime base target noInverse
    statusCode st = 0 ∧ getFlag st .absent = absent ∧ getFlag st .truncated = truncated
      ∧ getFlag st .wBaseFactor = base ∧ getFlag st .wNoInverse = noInverse := by
  decide

section
variable (g y p : Int) (absent truncated noInverse : Bool)

@[simp] theorem statusCode_dlogEnd : statusCode (dlogEnd g y p absent truncated noInverse) = 0 :=
  (dlogStatus_reads _ _ _ _ _ _).1

@[simp] theorem getFlag_absent_dlogEnd : getFlag (dlogEnd g y p absent truncated noInverse) .absent = absent :=
  (dlogStatus_reads _ _ _ _ _ _).2.1

@[simp] theorem getFlag_truncated_dlogEnd :
    getFlag (dlogEnd g y p absent truncated noInverse) .truncated = truncated :=
  (dlogStatus_reads _ _ _ _ _ _).2.2.1

@[simp] theorem getFlag_wBaseFactor_dlogEnd :
    getFlag (dlogEnd g y p absent truncated noInverse) .wBaseFactor = decide (1 < g.gcd p) :=
  (dlogStatus_reads _ _ _ _ _ _).2.2.2.1

@[simp] theorem getFlag_wNoInverse_dlogEnd :
    getFlag (dlogEnd g y p absent truncated noInverse) .wNoInverse = noInverse :=
  (dlogStatus_reads _ _ _ _ _ _).2.2.2.2

end

/-- The warnings of `dl_entry`, with primality and the gcd of the library (R166). -/
theorem dlogWarnings_readyStatus_eq_dlogEnd (g y p : Int) :
    dlogWarnings g y p readyStatus = dlogEnd g y p false false false := by
  simp only [dlogWarnings_readyStatus, dlogEnd, isPrime_eq_decide_prime, gcdOf_eq_gcd, Nat.one_lt_cast]

/-! ## A search and the end of its command -/

/-- The inputs of a search on these operands (R166). -/
def dlogInput (g y p budget : Int) : DlogInput := ⟨g % p, y % p, p, budget⟩

/-- `dl_entry` past its checks (R166). -/
theorem dlEntry_valid {s : State} {o : ResultState} (hp : 0 < s.xVal 2) (hb : 0 ≤ s.xVal 3) :
    dlEntry s o = .ok (dlogInput (s.xVal 0) (s.xVal 1) (s.xVal 2) (s.xVal 3),
      { o with status := dlogWarnings (s.xVal 0) (s.xVal 1) (s.xVal 2) o.status }) := by
  rcases dlEntry_cases s o with ⟨hinvalid, -⟩ | ⟨-, -, heq⟩
  · omega
  · exact heq

/-- `dl_entry` at its checks (R166). -/
theorem dlEntry_invalid {s : State} {o : ResultState} (h : s.xVal 2 ≤ 0 ∨ s.xVal 3 < 0) :
    dlEntry s o = .error .invalidInput := by
  rcases dlEntry_cases s o with ⟨-, heq⟩ | ⟨hp, hb, -⟩
  · exact heq
  · omega

/-- How a command ends with a search on the operands g, y and p (R98, R167, R172, R175). -/
def SearchRun.outcome (g y p : Int) (s : State) (run : SearchRun) : Host.Outcome State Fault Refusal :=
  match run.ending with
  | .found x => s.returns { noResults with
      status := dlogEnd g y p false false false, r := #v[x, 0, 0, 0], trace := run.records }
  | .exhausted => s.returns { noResults with status := dlogEnd g y p true false false, trace := run.records }
  | .truncated => s.returns { noResults with status := dlogEnd g y p true true false, trace := run.records }
  | .noInverse => s.returns { noResults with status := dlogEnd g y p true false true, trace := run.records }
  | .overflow => s.raises 4

/-- The end of a command whose rule commits a search. -/
theorem exec_eq_outcome {i : Instr} {s : State} {g y p : Int} {run : SearchRun}
    (h : commandRule i s.prologue ResultState.cleared
      = run.commit { ResultState.cleared with status := dlogWarnings g y p readyStatus }) :
    exec i s = run.outcome g y p s := by
  rw [dlogWarnings_readyStatus_eq_dlogEnd] at h
  obtain ⟨records, ending⟩ := run
  cases ending with
  | found x => exact exec_returns h
  | exhausted =>
    refine (exec_returns h).trans ?_
    simp only [ResultState.setFlag, dlogEnd, setFlag_absent_dlogStatus, SearchRun.outcome]
    rfl
  | truncated =>
    refine (exec_returns h).trans ?_
    simp only [ResultState.setFlag, dlogEnd, setFlag_absent_dlogStatus, setFlag_truncated_dlogStatus, SearchRun.outcome]
    rfl
  | noInverse =>
    refine (exec_returns h).trans ?_
    simp only [ResultState.setFlag, dlogEnd, setFlag_noInverse_dlogStatus, SearchRun.outcome]
    rfl
  | overflow => exact exec_raises h

/-! ## The records of a search -/

/-- The run with several records emitted before it. -/
def SearchRun.afterAll (recs : List Record) (run : SearchRun) : SearchRun :=
  { run with records := recs ++ run.records }

theorem SearchRun.afterAll_afterAll (recs recs' : List Record) (run : SearchRun) :
    (run.afterAll recs').afterAll recs = run.afterAll (recs ++ recs') := by
  simp [SearchRun.afterAll]

/-- A run that ends at once, with records emitted before it. -/
theorem SearchRun.afterAll_ending (recs : List Record) (e : SearchEnd) :
    (SearchRun.mk [] e).afterAll recs = ⟨recs, e⟩ := by
  simp [SearchRun.afterAll]

/-- A loop whose steps 0 to n − 1 each emit one record and go on: it emits these records, then runs on from step n with
the room that is left. -/
theorem loop_eq_afterAll {loop : Nat → Nat → SearchRun} {rec : Nat → Record} {n : Nat}
    (hstep : ∀ k < n, ∀ room, loop (room + 1) k = (loop room (k + 1)).after (rec k)) {room : Nat} (hroom : n ≤ room) :
    loop room 0 = (loop (room - n) n).afterAll ((List.range n).map rec) := by
  induction n with
  | zero => rfl
  | succ n ih =>
    have hnext := hstep n (by omega) (room - (n + 1))
    rw [show room - (n + 1) + 1 = room - n by omega] at hnext
    rw [ih (fun k hk => hstep k (by omega)) (by omega), hnext]
    simp [SearchRun.afterAll, SearchRun.after, List.range_succ]

/-- What a search may say at its end, with the given room in `TRACE` (R165, R169, R276). -/
def SearchEnd.Sound (g y p budget : Int) (room : Nat) : SearchEnd → Prop
  | .found x => ∃ k : Nat, x = k ∧ solves g y p k
  | .exhausted => ∀ k, ¬ solves g y p k
  | .truncated => True
  | .noInverse => True
  | .overflow => (room : Int) < budget

/-- A run that ends as it may, within its budget (R174). -/
structure SearchRun.Sound (g y p budget : Int) (room : Nat) (run : SearchRun) : Prop where
  ending : run.ending.Sound g y p budget room
  length_le : (run.records.length : Int) ≤ budget

end Sys2Proof.Machine
end

section
/-! The brute-force solver `DLBF` of `43_discrete_log.md` R167 to R169: statement O31. -/

namespace Sys2Proof.Machine

open Sys2Proof

/-! ## The loop, one iteration at a time -/

section
variable {g y p budget x v : Int} {room : Nat}

theorem bfLoop_exhausted (h : x = p) : bfLoop (dlogInput g y p budget) room x v = ⟨[], .exhausted⟩ := by
  cases room <;> exact if_pos h

theorem bfLoop_truncated (hp : x ≠ p) (hb : x = budget) :
    bfLoop (dlogInput g y p budget) room x v = ⟨[], .truncated⟩ := by
  cases room <;> rw [bfLoop, dlogInput, if_neg hp, if_pos hb]

theorem bfLoop_overflow (hp : x ≠ p) (hb : x ≠ budget) :
    bfLoop (dlogInput g y p budget) 0 x v = ⟨[], .overflow⟩ := by
  rw [bfLoop, dlogInput, if_neg hp, if_neg hb]

theorem bfLoop_hit (hp : x ≠ p) (hb : x ≠ budget) (hv : v = y % p) :
    bfLoop (dlogInput g y p budget) (room + 1) x v = ⟨[bfRecord x v true], .found x⟩ := by
  rw [bfLoop, dlogInput, if_neg hp, if_neg hb, if_pos hv]

theorem bfLoop_miss (hp : x ≠ p) (hb : x ≠ budget) (hv : v ≠ y % p) :
    bfLoop (dlogInput g y p budget) (room + 1) x v
      = (bfLoop (dlogInput g y p budget) room (x + 1) (v * (g % p) % p)).after (bfRecord x v false) := by
  rw [bfLoop, dlogInput, if_neg hp, if_neg hb, if_neg hv]

end

/-! ## The search -/

/-- The search of `DLBF` with the given room in `TRACE` (R167). -/
def bfSearch (g y p budget : Int) (room : Nat) : SearchRun := bfLoop (dlogInput g y p budget) room 0 (1 % p)

section
variable {g y p budget : Int} {room : Nat}

/-- The search passes every exponent that is no solution. -/
theorem bfSearch_misses {n : Nat} (hp : (n : Int) ≤ p) (hb : (n : Int) ≤ budget) (hroom : n ≤ room)
    (hmiss : ∀ x < n, ¬ solves g y p x) :
    bfSearch g y p budget room
      = (bfLoop (dlogInput g y p budget) (room - n) n (g ^ n % p)).afterAll (bfMisses g p n) := by
  have hstep : ∀ k < n, ∀ room, bfLoop (dlogInput g y p budget) (room + 1) k (g ^ k % p)
      = (bfLoop (dlogInput g y p budget) room (k + 1 : Nat) (g ^ (k + 1) % p)).after
          (bfRecord k (g ^ k % p) false) := by
    intro k hk room
    rw [bfLoop_miss (by omega) (by omega) (hmiss k hk), Nat.cast_succ, pow_emod_mul_emod]
  have hloop := loop_eq_afterAll (loop := fun room k => bfLoop (dlogInput g y p budget) room k (g ^ k % p)) hstep hroom
  simp only [pow_zero, Nat.cast_zero] at hloop
  exact hloop

/-- The search ends at the least solution (R167). -/
theorem bfSearch_found {x : Nat} (hp : 0 < p) (hx : leastSolution g y p x) (hb : (x : Int) < budget)
    (hroom : x < room) :
    bfSearch g y p budget room = ⟨bfMisses g p x ++ [bfHit g p x], .found x⟩ := by
  have hxp := leastSolution_lt_modulus hp hx
  obtain ⟨left, hleft⟩ : ∃ left, room - x = left + 1 := ⟨room - x - 1, by omega⟩
  rw [bfSearch_misses (by omega) (by omega) (by omega) hx.2, hleft, bfLoop_hit (by omega) (by omega) hx.1]
  rfl

/-- The search covers all p exponents without a solution (R169). -/
theorem bfSearch_exhausted (hp : 0 < p) (hb : p ≤ budget) (hroom : p ≤ room)
    (hmiss : ∀ x : Nat, (x : Int) < p → ¬ solves g y p x) :
    bfSearch g y p budget room = ⟨bfMisses g p p.toNat, .exhausted⟩ := by
  rw [bfSearch_misses (n := p.toNat) (by omega) (by omega) (by omega) fun x hx => hmiss x (by omega),
    bfLoop_exhausted (by omega), SearchRun.afterAll_ending]

/-- The budget ends the search (R167). -/
theorem bfSearch_truncated (hb : 0 ≤ budget) (hp : budget < p) (hroom : budget ≤ room)
    (hmiss : ∀ x : Nat, (x : Int) < budget → ¬ solves g y p x) :
    bfSearch g y p budget room = ⟨bfMisses g p budget.toNat, .truncated⟩ := by
  rw [bfSearch_misses (n := budget.toNat) (by omega) (by omega) (by omega) fun x hx => hmiss x (by omega),
    bfLoop_truncated (by omega) (by omega), SearchRun.afterAll_ending]

/-- A full trace ends the search (R46). -/
theorem bfSearch_overflow (hp : (room : Int) < p) (hb : (room : Int) < budget) (hmiss : ∀ x < room, ¬ solves g y p x) :
    bfSearch g y p budget room = ⟨bfMisses g p room, .overflow⟩ := by
  rw [bfSearch_misses hp.le hb.le le_rfl hmiss, Nat.sub_self,
    bfLoop_overflow (by omega) (by omega), SearchRun.afterAll_ending]

@[simp] theorem length_bfMisses (g p : Int) (n : Nat) : (bfMisses g p n).length = n := by simp [bfMisses]

/-- Whatever the operands and the room, the search of `DLBF` ends as it may. -/
theorem bfSearch_sound (hp : 0 < p) (hb : 0 ≤ budget) : (bfSearch g y p budget room).Sound g y p budget room := by
  by_cases hfound : ∃ x, leastSolution g y p x ∧ (x : Int) < budget ∧ x < room
  · obtain ⟨x, hx, hxb, hxroom⟩ := hfound
    rw [bfSearch_found hp hx hxb hxroom]
    exact ⟨⟨x, rfl, hx.1⟩, by simp; omega⟩
  · have hmiss (x : Nat) (hxb : (x : Int) < budget) (hxroom : x < room) : ¬ solves g y p x := by
      intro hx
      obtain ⟨k, hk⟩ := exists_leastSolution hx
      have hkx := le_of_leastSolution hk hx
      exact hfound ⟨k, hk, by omega, by omega⟩
    by_cases hcover : p ≤ budget ∧ p ≤ room
    · have hnone (x : Nat) (hx : (x : Int) < p) : ¬ solves g y p x := hmiss x (by omega) (by omega)
      rw [bfSearch_exhausted hp hcover.1 hcover.2 hnone]
      exact ⟨not_solves_of_forall_lt hp hnone, by simp; omega⟩
    · by_cases hroom : budget ≤ room
      · rw [bfSearch_truncated hb (by omega) hroom fun x hx => hmiss x hx (by omega)]
        exact ⟨trivial, by simp; omega⟩
      · have hfull : (room : Int) < budget := by omega
        rw [bfSearch_overflow (by omega) hfull fun x hx => hmiss x (by omega) hx]
        exact ⟨hfull, by simp; omega⟩

end

/-! ## The command -/

/-- `DLBF` past its checks commits its search (R167). -/
theorem exec_dlbf {s : State} (hp : 0 < s.xVal 2) (hb : 0 ≤ s.xVal 3) :
    exec .dlbf s = (bfSearch (s.xVal 0) (s.xVal 1) (s.xVal 2) (s.xVal 3) s.cfg.traceCap).outcome
      (s.xVal 0) (s.xVal 1) (s.xVal 2) s := by
  apply exec_eq_outcome
  simp only [commandRule, dlbfRule, dlEntry_valid (s := s.prologue) hp hb]
  rfl

/-- `DLBF` raises at the checks of R166. -/
theorem exec_dlbf_invalid {s : State} (h : s.xVal 2 ≤ 0 ∨ s.xVal 3 < 0) : exec .dlbf s = s.raises 1 := by
  apply exec_invalidInput
  simp only [commandRule, dlbfRule, dlEntry_invalid (s := s.prologue) h]

/-- Settles O31: each clause says which test of the loop ends the search. -/
theorem dlbfResult : Obligations.DlbfResult := by
  refine ⟨by decide, ?_⟩
  rintro s g y p budget rfl rfl rfl rfl
  refine ⟨exec_dlbf_invalid, fun hp hb => ?_⟩
  rw [exec_dlbf hp hb]
  refine ⟨fun x hx hxb hroom => ?_, fun hpb hroom hmiss => ?_, fun hbp hroom hmiss => ?_, fun hpfull hbfull hmiss => ?_⟩
  · rw [bfSearch_found hp hx hxb hroom]
    rfl
  · rw [bfSearch_exhausted hp hpb hroom hmiss]
    rfl
  · rw [bfSearch_truncated hb hbp hroom hmiss]
    rfl
  · rw [bfSearch_overflow hpfull hbfull hmiss]
    rfl

end Sys2Proof.Machine
end

section
/-! What the baby-step giant-step solver `DLBSGS` computes with (`43_discrete_log.md` R172): the step count m, the table
of baby steps, the factor of the giant phase, and which giant step hits. -/

namespace Sys2Proof.Machine

open Sys2Proof

/-! ## The number of steps -/

/-- m is the ceiling of the square root exactly when `ceil_sqrt` computes it (R11). -/
theorem isCeilSqrt_iff (p : Int) (m : Nat) : isCeilSqrt p m ↔ ceilSqrt p.toNat = m := by
  have hle (j : Nat) : p ≤ (j : Int) * j ↔ ceilSqrt p.toNat ≤ j := by
    rw [ceilSqrt_le_iff, Int.toNat_le, Nat.cast_mul]
  simp only [isCeilSqrt, hle]
  exact ⟨fun ⟨hceil, hleast⟩ => le_antisymm hceil (hleast _ le_rfl), by rintro rfl; exact ⟨le_rfl, fun _ => id⟩⟩

/-- A positive modulus takes at least one step. -/
theorem isCeilSqrt_pos {p : Int} {m : Nat} (hp : 0 < p) (hm : isCeilSqrt p m) : 0 < m := by
  by_contra hzero
  obtain rfl : m = 0 := by omega
  have hsq := hm.1
  simp at hsq
  omega

/-- The least solution lies within the m giant steps of m exponents each (R176). -/
theorem leastSolution_div_lt {g y p : Int} {m x : Nat} (hp : 0 < p) (hm : isCeilSqrt p m)
    (hx : leastSolution g y p x) : x / m < m := by
  have hxp := leastSolution_lt_modulus hp hx
  rw [Nat.div_lt_iff_lt_mul (isCeilSqrt_pos hp hm)]
  exact_mod_cast hxp.trans_le hm.1

/-! ## The table of baby steps -/

/-- One more entry is found where no earlier one is (R172). -/
theorem BabyTable.find_add (tab : BabyTable) (v w j : Int) :
    (tab.add v j).find w = (tab.find w).or (if v = w then some j else none) := by
  unfold BabyTable.add
  cases htab : tab.find v with
  | some i =>
    by_cases hvw : v = w
    · subst hvw
      simp [htab]
    · simp [hvw]
  | none =>
    by_cases hvw : v = w
    · subst hvw
      simp [BabyTable.find, htab]
    · simp [BabyTable.find, hvw]

/-- The table after `n` baby steps. -/
def babyTable (g p : Int) : Nat → BabyTable
  | 0 => []
  | n + 1 => (babyTable g p n).add (g ^ n % p) n

/-- The table lacks a value exactly when no baby step has it. -/
theorem babyTable_find_eq_none_iff (g p : Int) (n : Nat) (v : Int) :
    (babyTable g p n).find v = none ↔ ∀ j < n, g ^ j % p ≠ v := by
  induction n with
  | zero => simp [babyTable, BabyTable.find]
  | succ n ih =>
    rw [Nat.forall_lt_succ_right, ← ih]
    simp [babyTable, BabyTable.find_add]

/-- The table holds the least baby step with a value (R172). -/
theorem babyTable_find_eq_some {g p : Int} {n j : Nat} {v : Int} (hj : j < n) (hv : g ^ j % p = v)
    (hleast : ∀ i < j, g ^ i % p ≠ v) : (babyTable g p n).find v = some (j : Int) := by
  induction n with
  | zero => omega
  | succ n ih =>
    rw [babyTable, BabyTable.find_add]
    rcases Nat.lt_succ_iff_lt_or_eq.mp hj with hlt | rfl
    · rw [ih hlt, Option.some_or]
    · rw [(babyTable_find_eq_none_iff g p j v).mpr hleast, Option.none_or, if_pos hv]

/-! ## The factor of the giant phase -/

section
variable {g y p inv : Int} {m : Nat}

/-- Between the phases a base coprime to the modulus gives the factor (R172). -/
theorem modInv_giantFactor (hp : 0 < p) (hgcd : g.gcd p = 1) :
    ∃ inv, isGiantFactor g p m inv ∧ modInv (g ^ m % p) p = some inv := by
  have hcoprime : (g ^ m % p).gcd p = 1 := by
    rw [Int.gcd_emod, ← Int.isCoprime_iff_gcd_eq_one]
    exact (Int.isCoprime_iff_gcd_eq_one.mpr hgcd).pow_left
  obtain ⟨inv, hinv, hone⟩ := modInv_of_coprime hcoprime
  obtain ⟨hnonneg, hlt⟩ := modInv_mem hp hinv
  rw [mul_comm] at hone
  exact ⟨inv, ⟨hnonneg, hlt, ((Int.mod_modEq (g ^ m) p).mul_left inv).symm.trans hone⟩, hinv⟩

/-- The factor is the one that `modInv` answers. -/
theorem modInv_of_isGiantFactor (hp : 0 < p) (hgcd : g.gcd p = 1) (h : isGiantFactor g p m inv) :
    modInv (g ^ m % p) p = some inv := by
  obtain ⟨inv', ⟨hnonneg', hlt', hone'⟩, hmod⟩ := modInv_giantFactor (m := m) hp hgcd
  obtain ⟨hnonneg, hlt, hone⟩ := h
  rw [mul_comm] at hone hone'
  rw [hmod, eq_of_mul_emod_eq_one ⟨hnonneg', hlt'⟩ ⟨hnonneg, hlt⟩ hone' hone]

/-- A base with a factor in common with the modulus gives no factor (R175). -/
theorem modInv_pow_of_not_coprime (hm : 0 < m) (hgcd : g.gcd p ≠ 1) : modInv (g ^ m % p) p = none := by
  apply modInv_of_not_coprime
  rwa [Int.gcd_emod, ne_eq, ← Int.isCoprime_iff_gcd_eq_one, IsCoprime.pow_left_iff hm, Int.isCoprime_iff_gcd_eq_one]

/-! ## The giant step that hits -/

/-- A giant value is the residue of a baby step exactly when the two steps make a solution (R176). -/
theorem solves_iff_babyStep_eq_giantValue (h : isGiantFactor g p m inv) (i j : Nat) :
    solves g y p (i * m + j) ↔ g ^ j % p = y * inv ^ i % p := by
  have hone : (inv * g ^ m) ^ i ≡ 1 [ZMOD p] := by simpa using Int.ModEq.pow i h.2.2
  constructor
  · intro hx
    calc g ^ j = 1 * g ^ j := (one_mul _).symm
      _ ≡ (inv * g ^ m) ^ i * g ^ j [ZMOD p] := (hone.mul_right _).symm
      _ = g ^ (i * m + j) * inv ^ i := by ring
      _ ≡ y * inv ^ i [ZMOD p] := Int.ModEq.mul_right _ hx
  · intro hj
    calc g ^ (i * m + j) = g ^ j * (g ^ m) ^ i := by ring
      _ ≡ y * inv ^ i * (g ^ m) ^ i [ZMOD p] := Int.ModEq.mul_right _ hj
      _ = y * (inv * g ^ m) ^ i := by ring
      _ ≡ y * 1 [ZMOD p] := hone.mul_left _
      _ = y := mul_one y

/-- A giant step before those of all solutions misses. -/
theorem babyTable_find_miss (h : isGiantFactor g p m inv) {i : Nat} (hmiss : ∀ x, solves g y p x → i < x / m) :
    (babyTable g p m).find (y * inv ^ i % p) = none := by
  rw [babyTable_find_eq_none_iff]
  intro j hj heq
  have hlt := hmiss _ ((solves_iff_babyStep_eq_giantValue h i j).mpr heq)
  rw [Nat.mul_comm, Nat.mul_add_div (by omega), Nat.div_eq_of_lt hj] at hlt
  omega

/-- The giant step of the least solution hits its baby step (R176). -/
theorem babyTable_find_hit (hm : 0 < m) (h : isGiantFactor g p m inv) {x : Nat} (hx : leastSolution g y p x) :
    (babyTable g p m).find (y * inv ^ (x / m) % p) = some ((x % m : Nat) : Int) := by
  have hdiv : x / m * m + x % m = x := Nat.div_add_mod' x m
  apply babyTable_find_eq_some (Nat.mod_lt x hm)
  · rw [← solves_iff_babyStep_eq_giantValue h, hdiv]
    exact hx.1
  · intro j hj heq
    exact hx.2 (x / m * m + j) (by omega) ((solves_iff_babyStep_eq_giantValue h _ j).mpr heq)

/-- The running value of the giant phase: one more factor, reduced. -/
theorem mul_pow_emod_mul_emod (y inv p : Int) (i : Nat) : y * inv ^ i % p * inv % p = y * inv ^ (i + 1) % p := by
  rw [pow_succ, ← mul_assoc]
  exact (Int.mod_modEq (y * inv ^ i) p).mul_right inv

end

end Sys2Proof.Machine
end

section
/-! The baby-step giant-step solver `DLBSGS` of `43_discrete_log.md` R172 to R175: statements O34 to O38. -/

namespace Sys2Proof.Machine

open Sys2Proof

/-! ## The loops, one iteration at a time -/

section
variable {g y p budget m inv n i v : Int} {tab : BabyTable} {room : Nat}

theorem babyLoop_done (h : i = m) :
    babyLoop (dlogInput g y p budget) m room tab i v = giantPhase (dlogInput g y p budget) m tab room i v := by
  cases room <;> exact if_pos h

theorem babyLoop_truncated (hm : i ≠ m) (hb : i = budget) :
    babyLoop (dlogInput g y p budget) m room tab i v = ⟨[], .truncated⟩ := by
  cases room <;> rw [babyLoop, dlogInput, if_neg hm, if_pos hb]

theorem babyLoop_overflow (hm : i ≠ m) (hb : i ≠ budget) :
    babyLoop (dlogInput g y p budget) m 0 tab i v = ⟨[], .overflow⟩ := by
  rw [babyLoop, dlogInput, if_neg hm, if_neg hb]

theorem babyLoop_step (hm : i ≠ m) (hb : i ≠ budget) :
    babyLoop (dlogInput g y p budget) m (room + 1) tab i v
      = (babyLoop (dlogInput g y p budget) m room (tab.add v i) (i + 1) (v * (g % p) % p)).after (babyRecord i v) := by
  rw [babyLoop, dlogInput, if_neg hm, if_neg hb]

theorem giantPhase_some (h : modInv v p = some inv) :
    giantPhase (dlogInput g y p budget) m tab room n v
      = giantLoop (dlogInput g y p budget) m inv tab room n 0 (y % p) := by
  rw [giantPhase, dlogInput, h]

theorem giantPhase_none (h : modInv v p = none) :
    giantPhase (dlogInput g y p budget) m tab room n v = ⟨[], .noInverse⟩ := by
  rw [giantPhase, dlogInput, h]

theorem giantLoop_exhausted (h : i = m) :
    giantLoop (dlogInput g y p budget) m inv tab room n i v = ⟨[], .exhausted⟩ := by
  cases room <;> exact if_pos h

theorem giantLoop_truncated (hm : i ≠ m) (hb : n = budget) :
    giantLoop (dlogInput g y p budget) m inv tab room n i v = ⟨[], .truncated⟩ := by
  cases room <;> rw [giantLoop, dlogInput, if_neg hm, if_pos hb]

theorem giantLoop_overflow (hm : i ≠ m) (hb : n ≠ budget) :
    giantLoop (dlogInput g y p budget) m inv tab 0 n i v = ⟨[], .overflow⟩ := by
  rw [giantLoop, dlogInput, if_neg hm, if_neg hb]

theorem giantLoop_hit {j : Int} (hm : i ≠ m) (hb : n ≠ budget) (hv : tab.find v = some j) :
    giantLoop (dlogInput g y p budget) m inv tab (room + 1) n i v
      = ⟨[giantHit i v j (i * m + j)], .found (i * m + j)⟩ := by
  rw [giantLoop, dlogInput, if_neg hm, if_neg hb, hv]

theorem giantLoop_miss (hm : i ≠ m) (hb : n ≠ budget) (hv : tab.find v = none) :
    giantLoop (dlogInput g y p budget) m inv tab (room + 1) n i v
      = (giantLoop (dlogInput g y p budget) m inv tab room (n + 1) (i + 1) (v * inv % p)).after (giantMiss i v) := by
  rw [giantLoop, dlogInput, if_neg hm, if_neg hb, hv]

end

/-! ## The baby phase -/

/-- The search of `DLBSGS` with m steps a phase and the given room in `TRACE` (R172). -/
def bsgsSearch (g y p budget : Int) (m room : Nat) : SearchRun :=
  babyLoop (dlogInput g y p budget) m room [] 0 (1 % p)

@[simp] theorem length_babySteps (g p : Int) (n : Nat) : (babySteps g p n).length = n := by simp [babySteps]

@[simp] theorem length_giantMisses (y p inv : Int) (n : Nat) : (giantMisses y p inv n).length = n := by
  simp [giantMisses]

section
variable {g y p budget inv : Int} {m room : Nat}

/-- The search takes the baby steps that budget and room allow. -/
theorem bsgsSearch_babySteps {n : Nat} (hm : n ≤ m) (hb : (n : Int) ≤ budget) (hroom : n ≤ room) :
    bsgsSearch g y p budget m room
      = (babyLoop (dlogInput g y p budget) m (room - n) (babyTable g p n) n (g ^ n % p)).afterAll
          (babySteps g p n) := by
  have hstep : ∀ k < n, ∀ room, babyLoop (dlogInput g y p budget) m (room + 1) (babyTable g p k) k (g ^ k % p)
      = (babyLoop (dlogInput g y p budget) m room (babyTable g p (k + 1)) (k + 1 : Nat) (g ^ (k + 1) % p)).after
          (babyRecord k (g ^ k % p)) := by
    intro k hk room
    rw [babyLoop_step (by omega) (by omega), Nat.cast_succ, pow_emod_mul_emod]
    rfl
  have hloop := loop_eq_afterAll
    (loop := fun room k => babyLoop (dlogInput g y p budget) m room (babyTable g p k) k (g ^ k % p)) hstep hroom
  simp only [pow_zero, Nat.cast_zero] at hloop
  exact hloop

/-- The budget ends the search in the baby phase (R174). -/
theorem bsgsSearch_baby_truncated {n : Nat} (hb : (n : Int) = budget) (hm : n < m) (hroom : n ≤ room) :
    bsgsSearch g y p budget m room = ⟨babySteps g p n, .truncated⟩ := by
  rw [bsgsSearch_babySteps hm.le hb.le hroom,
    babyLoop_truncated (by omega) hb, SearchRun.afterAll_ending]

/-- A full trace ends the search in the baby phase (R46). -/
theorem bsgsSearch_baby_overflow (hm : room < m) (hb : (room : Int) < budget) :
    bsgsSearch g y p budget m room = ⟨babySteps g p room, .overflow⟩ := by
  rw [bsgsSearch_babySteps hm.le hb.le le_rfl, Nat.sub_self,
    babyLoop_overflow (by omega) (by omega), SearchRun.afterAll_ending]

/-- After the m baby steps comes the giant phase. -/
theorem bsgsSearch_giantPhase (hb : (m : Int) ≤ budget) (hroom : m ≤ room) :
    bsgsSearch g y p budget m room
      = (giantPhase (dlogInput g y p budget) m (babyTable g p m) (room - m) m (g ^ m % p)).afterAll
          (babySteps g p m) := by
  rw [bsgsSearch_babySteps le_rfl hb hroom, babyLoop_done rfl]

/-- Without a factor the search ends between the phases (R175). -/
theorem bsgsSearch_noInverse (hm : 0 < m) (hgcd : g.gcd p ≠ 1) (hb : (m : Int) ≤ budget) (hroom : m ≤ room) :
    bsgsSearch g y p budget m room = ⟨babySteps g p m, .noInverse⟩ := by
  rw [bsgsSearch_giantPhase hb hroom, giantPhase_none (modInv_pow_of_not_coprime hm hgcd), SearchRun.afterAll_ending]

/-! ## The giant phase -/

section
variable (hp : 0 < p) (hgcd : g.gcd p = 1) (hinv : isGiantFactor g p m inv)
include hp hgcd hinv

/-- The search passes the giant steps before that of the least solution. -/
theorem bsgsSearch_giantMisses {n : Nat} (hn : n ≤ m) (hb : (m + n : Int) ≤ budget) (hroom : m + n ≤ room)
    (hmiss : ∀ x, solves g y p x → n ≤ x / m) :
    bsgsSearch g y p budget m room
      = (giantLoop (dlogInput g y p budget) m inv (babyTable g p m) (room - m - n) (m + n : Nat) n
          (y * inv ^ n % p)).afterAll (babySteps g p m ++ giantMisses y p inv n) := by
  have hstep : ∀ k < n, ∀ room,
      giantLoop (dlogInput g y p budget) m inv (babyTable g p m) (room + 1) (m + k : Nat) k (y * inv ^ k % p)
        = (giantLoop (dlogInput g y p budget) m inv (babyTable g p m) room (m + (k + 1) : Nat) (k + 1 : Nat)
            (y * inv ^ (k + 1) % p)).after (giantMiss k (y * inv ^ k % p)) := by
    intro k hk room
    have hnone := babyTable_find_miss hinv fun x hx => hk.trans_le (hmiss x hx)
    rw [giantLoop_miss (by omega) (by omega) hnone, mul_pow_emod_mul_emod]
    rfl
  have hloop := loop_eq_afterAll (loop := fun room k =>
    giantLoop (dlogInput g y p budget) m inv (babyTable g p m) room (m + k : Nat) k (y * inv ^ k % p)) hstep
    (show n ≤ room - m by omega)
  simp only [pow_zero, mul_one, Nat.cast_zero, Nat.add_zero] at hloop
  rw [bsgsSearch_giantPhase (by omega) (by omega), giantPhase_some (modInv_of_isGiantFactor hp hgcd hinv), hloop,
    SearchRun.afterAll_afterAll]
  rfl

/-- The search ends at the giant step of the least solution (R176). -/
theorem bsgsSearch_found {x : Nat} (hm : isCeilSqrt p m) (hx : leastSolution g y p x)
    (hb : (m + x / m + 1 : Int) ≤ budget) (hroom : m + x / m + 1 ≤ room) :
    bsgsSearch g y p budget m room
      = ⟨babySteps g p m ++ giantMisses y p inv (x / m) ++ [giantFound y p inv m x], .found x⟩ := by
  have hquot := leastSolution_div_lt hp hm hx
  have hhit := babyTable_find_hit (isCeilSqrt_pos hp hm) hinv hx
  have hexponent : ((x / m : Nat) : Int) * m + (x % m : Nat) = x := by exact_mod_cast Nat.div_add_mod' x m
  have hbudget : ((m + x / m : Nat) : Int) + 1 ≤ budget := by exact_mod_cast hb
  obtain ⟨left, hleft⟩ : ∃ left, room - m - x / m = left + 1 := ⟨room - m - x / m - 1, by omega⟩
  rw [bsgsSearch_giantMisses hp hgcd hinv hquot.le (by omega) (by omega)
      fun k hk => Nat.div_le_div_right (le_of_leastSolution hx hk),
    hleft, giantLoop_hit (by omega) (by omega) hhit, hexponent]
  rfl

/-- The search covers all m giant steps without a solution (R172). -/
theorem bsgsSearch_exhausted (hmiss : ∀ x, ¬ solves g y p x) (hb : (2 * m : Int) ≤ budget) (hroom : 2 * m ≤ room) :
    bsgsSearch g y p budget m room = ⟨babySteps g p m ++ giantMisses y p inv m, .exhausted⟩ := by
  rw [bsgsSearch_giantMisses hp hgcd hinv le_rfl (by omega) (by omega) fun x hx => absurd hx (hmiss x),
    giantLoop_exhausted rfl, SearchRun.afterAll_ending]

/-- The budget ends the search in the giant phase (R174). -/
theorem bsgsSearch_giant_truncated {n : Nat} (hn : n < m) (hb : (m + n : Int) = budget) (hroom : m + n ≤ room)
    (hmiss : ∀ x, solves g y p x → n ≤ x / m) :
    bsgsSearch g y p budget m room = ⟨babySteps g p m ++ giantMisses y p inv n, .truncated⟩ := by
  rw [bsgsSearch_giantMisses hp hgcd hinv hn.le hb.le hroom hmiss,
    giantLoop_truncated (by omega) (by omega), SearchRun.afterAll_ending]

/-- A full trace ends the search in the giant phase (R46). -/
theorem bsgsSearch_giant_overflow {n : Nat} (hn : n < m) (hroom : m + n = room) (hb : (room : Int) < budget)
    (hmiss : ∀ x, solves g y p x → n ≤ x / m) :
    bsgsSearch g y p budget m room = ⟨babySteps g p m ++ giantMisses y p inv n, .overflow⟩ := by
  rw [bsgsSearch_giantMisses hp hgcd hinv hn.le (by omega) hroom.le hmiss, show room - m - n = 0 by omega,
    giantLoop_overflow (by omega) (by omega), SearchRun.afterAll_ending]

end

end

/-! ## The command -/

/-- `DLBSGS` past its checks commits its search (R172). -/
theorem exec_dlbsgs {s : State} {m : Nat} (hp : 0 < s.xVal 2) (hb : 0 ≤ s.xVal 3) (hm : isCeilSqrt (s.xVal 2) m) :
    exec .dlbsgs s = (bsgsSearch (s.xVal 0) (s.xVal 1) (s.xVal 2) (s.xVal 3) m s.cfg.traceCap).outcome
      (s.xVal 0) (s.xVal 1) (s.xVal 2) s := by
  obtain rfl := (isCeilSqrt_iff _ _).mp hm
  apply exec_eq_outcome
  simp only [commandRule, dlbsgsRule, dlEntry_valid (s := s.prologue) hp hb]
  rfl

/-- `DLBSGS` raises at the checks of R166. -/
theorem exec_dlbsgs_invalid {s : State} (h : s.xVal 2 ≤ 0 ∨ s.xVal 3 < 0) : exec .dlbsgs s = s.raises 1 := by
  apply exec_invalidInput
  simp only [commandRule, dlbsgsRule, dlEntry_invalid (s := s.prologue) h]

/-- Settles O34: the giant step of the least solution is the first that hits. -/
theorem dlbsgsFinds : Obligations.DlbsgsFinds := by
  refine ⟨by decide, ?_⟩
  rintro s g y p budget inv m x rfl rfl rfl rfl hp hgcd hm hinv hx hb hroom
  have hbudget : ((m + x / m + 1 : Nat) : Int) ≤ s.xVal 3 := by exact_mod_cast hb
  rw [exec_dlbsgs hp ((Int.natCast_nonneg _).trans hbudget) hm, bsgsSearch_found hp hgcd hinv hm hx hb hroom]
  rfl

/-- Settles O35: without a solution every giant step misses. -/
theorem dlbsgsNotFound : Obligations.DlbsgsNotFound := by
  refine ⟨fun s => exec_dlbsgs_invalid, ?_⟩
  rintro s g y p budget inv m rfl rfl rfl rfl hp hgcd hm hinv hmiss hb hroom
  rw [exec_dlbsgs hp (by omega) hm, bsgsSearch_exhausted hp hgcd hinv hmiss hb hroom]
  rfl

/-- Settles O36: g^m has a factor in common with p because g has. -/
theorem dlbsgsNoInverse : Obligations.DlbsgsNoInverse := by
  rintro s g y p budget m rfl rfl rfl rfl hp hgcd hm hb hroom
  refine ⟨dlogEnd (s.xVal 0) (s.xVal 1) (s.xVal 2) true false true, ?_, rfl, by simp, by simp, by simp, by simp,
    by simpa using hgcd⟩
  rw [exec_dlbsgs hp (by omega) hm, bsgsSearch_noInverse (isCeilSqrt_pos hp hm) hgcd.ne' hb hroom]
  rfl

/-- Settles O37: the budget is tested before each record of either phase. -/
theorem dlbsgsTruncated : Obligations.DlbsgsTruncated := by
  rintro s g y p inv budget m rfl rfl rfl hbudget hp hm hroom
  rw [exec_dlbsgs hp (by omega) hm]
  refine ⟨fun hlt => ?_, fun hge hlt hgcd hinv hmiss => ?_⟩
  · rw [bsgsSearch_baby_truncated hbudget.symm hlt hroom]
    rfl
  · rw [bsgsSearch_giant_truncated hp hgcd hinv (n := budget - m) (by omega) (by omega) (by omega) hmiss]
    rfl

/-- Settles O38: the record after the last that fits raises in either phase. -/
theorem dlbsgsOverflow : Obligations.DlbsgsOverflow := by
  rintro s g y p budget m rfl rfl rfl rfl hp hm hfull
  rw [exec_dlbsgs hp (by omega) hm]
  refine ⟨fun hlt => ?_, fun hge hlt hgcd hmiss => ?_⟩
  · rw [bsgsSearch_baby_overflow hlt hfull]
    rfl
  · obtain ⟨inv, hinv, -⟩ := modInv_giantFactor (m := m) hp hgcd
    rw [bsgsSearch_giant_overflow hp hgcd hinv (n := s.cfg.traceCap - m) (by omega) (by omega) hfull hmiss]
    rfl

end Sys2Proof.Machine
end

section
/-! What both discrete-log solvers keep to, and where they agree (`43_discrete_log.md` R165, R169, R174 to R177):
statements O32, O33, O39 and O40. -/

namespace Sys2Proof.Machine

open Sys2Proof

/-! ## Every search ends as it may -/

/-- With a base coprime to the modulus and the baby phase done, the search of `DLBSGS` ends as it may. -/
theorem bsgsSearch_sound_of_coprime {g y p budget : Int} {m room : Nat} (hp : 0 < p) (hm : isCeilSqrt p m)
    (hgcd : g.gcd p = 1) (hb : (m : Int) ≤ budget) (hroom : m ≤ room) :
    (bsgsSearch g y p budget m room).Sound g y p budget room := by
  obtain ⟨inv, hinv, -⟩ := modInv_giantFactor (m := m) hp hgcd
  by_cases hfound : ∃ x, leastSolution g y p x ∧ ((m + x / m + 1 : Nat) : Int) ≤ budget ∧ m + x / m + 1 ≤ room
  · obtain ⟨x, hx, hxb, hxroom⟩ := hfound
    rw [bsgsSearch_found hp hgcd hinv hm hx (by exact_mod_cast hxb) hxroom]
    exact ⟨⟨x, rfl, hx.1⟩, by simp; omega⟩
  · have hmiss (n : Nat) (hnb : (m + n : Int) ≤ budget) (hnroom : m + n ≤ room) (x : Nat) (hx : solves g y p x) :
        n ≤ x / m := by
      obtain ⟨k, hk⟩ := exists_leastSolution hx
      have hquot : k / m ≤ x / m := Nat.div_le_div_right (le_of_leastSolution hk hx)
      by_contra hlt
      exact hfound ⟨k, hk, by omega, by omega⟩
    by_cases hcover : (2 * m : Int) ≤ budget ∧ 2 * m ≤ room
    · have hnone (x : Nat) : ¬ solves g y p x := by
        intro hx
        obtain ⟨k, hk⟩ := exists_leastSolution hx
        have hlt := leastSolution_div_lt hp hm hk
        have hge := hmiss m (by omega) (by omega) k hk.1
        omega
      rw [bsgsSearch_exhausted hp hgcd hinv hnone hcover.1 hcover.2]
      exact ⟨hnone, by simp; omega⟩
    · by_cases hbr : budget ≤ room
      · obtain ⟨n, hn⟩ : ∃ n : Nat, (m + n : Int) = budget := ⟨budget.toNat - m, by omega⟩
        rw [bsgsSearch_giant_truncated hp hgcd hinv (by omega) hn (by omega) (hmiss n hn.le (by omega))]
        exact ⟨trivial, by simp; omega⟩
      · obtain ⟨n, hn⟩ : ∃ n, m + n = room := ⟨room - m, by omega⟩
        have hfull : (room : Int) < budget := by omega
        rw [bsgsSearch_giant_overflow hp hgcd hinv (by omega) hn hfull (hmiss n (by omega) hn.le)]
        exact ⟨hfull, by simp; omega⟩

/-- Whatever the operands and the room, the search of `DLBSGS` ends as it may. -/
theorem bsgsSearch_sound {g y p budget : Int} {m room : Nat} (hp : 0 < p) (hb : 0 ≤ budget) (hm : isCeilSqrt p m) :
    (bsgsSearch g y p budget m room).Sound g y p budget room := by
  by_cases hbaby : (m : Int) ≤ budget ∧ m ≤ room
  · obtain ⟨hmb, hmroom⟩ := hbaby
    by_cases hgcd : g.gcd p = 1
    · exact bsgsSearch_sound_of_coprime hp hm hgcd hmb hmroom
    · rw [bsgsSearch_noInverse (isCeilSqrt_pos hp hm) hgcd hmb hmroom]
      exact ⟨trivial, by simpa using hmb⟩
  · by_cases hbr : budget ≤ room
    · obtain ⟨n, hn⟩ : ∃ n : Nat, (n : Int) = budget := ⟨budget.toNat, by omega⟩
      rw [bsgsSearch_baby_truncated hn (by omega) (by omega)]
      exact ⟨trivial, by simpa using hn.le⟩
    · have hfull : (room : Int) < budget := by omega
      rw [bsgsSearch_baby_overflow (by omega) hfull]
      exact ⟨hfull, by simpa using hfull.le⟩

/-- Past their checks both solvers commit a search that ends as it may. -/
theorem exec_dlog_sound {i : Instr} {s : State} (hi : i = .dlbf ∨ i = .dlbsgs) (hp : 0 < s.xVal 2) (hb : 0 ≤ s.xVal 3) :
    ∃ run : SearchRun, exec i s = run.outcome (s.xVal 0) (s.xVal 1) (s.xVal 2) s
      ∧ run.Sound (s.xVal 0) (s.xVal 1) (s.xVal 2) (s.xVal 3) s.cfg.traceCap := by
  rcases hi with rfl | rfl
  · exact ⟨_, exec_dlbf hp hb, bfSearch_sound hp hb⟩
  · have hm := (isCeilSqrt_iff (s.xVal 2) _).mpr rfl
    exact ⟨_, exec_dlbsgs hp hb hm, bsgsSearch_sound hp hb hm⟩

/-- A solver that ends with code `OK` is past its checks (R166). -/
theorem dlog_operands_of_ok {i : Instr} {s t : State} (hi : i = .dlbf ∨ i = .dlbsgs) (hexec : exec i s = .next t)
    (hcode : statusCode t.out.status = 0) : 0 < s.xVal 2 ∧ 0 ≤ s.xVal 3 := by
  by_contra hchecks
  have hinvalid : s.xVal 2 ≤ 0 ∨ s.xVal 3 < 0 := by omega
  have hraise : exec i s = s.raises 1 := by
    rcases hi with rfl | rfl
    · exact exec_dlbf_invalid hinvalid
    · exact exec_dlbsgs_invalid hinvalid
  exact statusCode_ne_zero_of_raises (c := .invalidInput) (hraise.symm.trans hexec) hcode

/-! ## What the flags say of the search -/

section
variable {g y p : Int} {s t : State} {run : SearchRun} (h : run.outcome g y p s = .next t)
  (hcode : statusCode t.out.status = 0)
include h hcode

/-- `ABSENT` clear means that the search found its answer (R165). -/
theorem SearchRun.found_of_not_absent (habsent : getFlag t.out.status .absent = false) :
    ∃ x, run.ending = .found x ∧ t.out.r = #v[x, 0, 0, 0] := by
  obtain ⟨records, ending⟩ := run
  cases ending with
  | found x =>
    cases h
    exact ⟨x, rfl, rfl⟩
  | exhausted =>
    cases h
    simp at habsent
  | truncated =>
    cases h
    simp at habsent
  | noInverse =>
    cases h
    simp at habsent
  | overflow => exact absurd hcode (statusCode_ne_zero_of_raises (c := .resourceLimit) h)

/-- `ABSENT` set, `TRUNCATED` and `W_NO_INVERSE` clear mean that the search was exhaustive (R165, R175). -/
theorem SearchRun.exhausted_of_absent (habsent : getFlag t.out.status .absent = true)
    (htruncated : getFlag t.out.status .truncated = false) (hinverse : getFlag t.out.status .wNoInverse = false) :
    run.ending = .exhausted := by
  obtain ⟨records, ending⟩ := run
  cases ending with
  | found x =>
    cases h
    simp at habsent
  | exhausted => rfl
  | truncated =>
    cases h
    simp at htruncated
  | noInverse =>
    cases h
    simp at hinverse
  | overflow => exact absurd hcode (statusCode_ne_zero_of_raises (c := .resourceLimit) h)

end

/-! ## The statements -/

/-- 4 is the least solution of 3^x = 13 modulo 17 (R167). -/
theorem leastSolution_example : leastSolution 3 13 17 4 := by
  unfold leastSolution solves
  decide

/-- The status of that example: 17 is a prime and shares no factor with 3 or 13 (R167). -/
theorem dlogEnd_example : dlogEnd 3 13 17 false false false = 0x80000000 := by
  have hprime : Nat.Prime (17 : Int).toNat := (by norm_num : Nat.Prime 17)
  simp only [dlogEnd, hprime]
  decide

/-- Settles O32: what a search finds is a solution. -/
theorem dlogSolutionCorrect : Obligations.DlogSolutionCorrect := by
  constructor
  · intro s hg hy hp hb hroom
    rw [exec_dlbf (by omega) (by omega), hg, hy, hp,
      bfSearch_found (by decide) leastSolution_example (by omega) (by omega)]
    exact ⟨_, rfl, rfl, dlogEnd_example⟩
  · intro i s t hi hexec hcode habsent
    obtain ⟨hp, hb⟩ := dlog_operands_of_ok hi hexec hcode
    obtain ⟨run, hrun, hsound⟩ := exec_dlog_sound hi hp hb
    obtain ⟨x, hend, hr⟩ := SearchRun.found_of_not_absent (hrun.symm.trans hexec) hcode habsent
    obtain ⟨k, rfl, hk⟩ : ∃ k : Nat, x = k ∧ solves (s.xVal 0) (s.xVal 1) (s.xVal 2) k := by
      have hending := hsound.ending
      rwa [hend] at hending
    have hpow : modPow (s.xVal 0) t.out.r[0] (s.xVal 2) = s.xVal 1 % s.xVal 2 := by
      rw [hr, modPow_eq_pow_emod hp]
      exact hk
    refine ⟨?_, hpow, fun hy hyp => hpow.trans (Int.emod_eq_of_lt hy hyp)⟩
    rw [hr]
    exact Int.natCast_nonneg k

/-- Settles O33: these flags mean an exhaustive search, and what an exhaustive search does not meet is no solution. -/
theorem dlogNullMeansNone : Obligations.DlogNullMeansNone := by
  intro i s t hi hexec hcode habsent htruncated hinverse
  obtain ⟨hp, hb⟩ := dlog_operands_of_ok hi hexec hcode
  obtain ⟨run, hrun, hsound⟩ := exec_dlog_sound hi hp hb
  have hend := SearchRun.exhausted_of_absent (hrun.symm.trans hexec) hcode habsent htruncated hinverse
  have hending := hsound.ending
  rwa [hend] at hending

/-- Settles O39: both find the least solution where there is one, and cover every exponent where there is none. -/
theorem solversAgree : Obligations.SolversAgree := by
  intro s m hp hgcd hm hpb hmb hproom hmroom
  obtain ⟨inv, hinv, -⟩ := modInv_giantFactor (m := m) hp hgcd
  have hb : 0 ≤ s.xVal 3 := hp.le.trans hpb
  rw [exec_dlbf hp hb, exec_dlbsgs hp hb hm]
  by_cases hsol : ∃ x, leastSolution (s.xVal 0) (s.xVal 1) (s.xVal 2) x
  · obtain ⟨x, hx⟩ := hsol
    have hxp := leastSolution_lt_modulus hp hx
    have hquot := leastSolution_div_lt hp hm hx
    have hquot' : (m + x / m + 1 : Int) ≤ 2 * m := by exact_mod_cast (by omega : m + x / m + 1 ≤ 2 * m)
    rw [bfSearch_found hp hx (by omega) (by omega),
      bsgsSearch_found hp hgcd hinv hm hx (hquot'.trans hmb) (by omega)]
    exact ⟨_, _, rfl, rfl, rfl, rfl, fun k hk => congrArg Nat.cast (leastSolution_unique hx hk)⟩
  · have hnone (x : Nat) : ¬ solves (s.xVal 0) (s.xVal 1) (s.xVal 2) x := fun hx => hsol (exists_leastSolution hx)
    rw [bfSearch_exhausted hp hpb hproom fun x _ => hnone x, bsgsSearch_exhausted hp hgcd hinv hnone hmb hmroom]
    exact ⟨_, _, rfl, rfl, rfl, rfl, fun k hk => absurd ⟨k, hk⟩ hsol⟩

/-- Settles O40: a search emits no more records than its budget, and overflows only within a larger one. -/
theorem dlogWithinBudget : Obligations.DlogWithinBudget := by
  intro i s hi hp hb
  obtain ⟨⟨records, ending⟩, hrun, hending, hlength⟩ := exec_dlog_sound hi hp hb
  rw [hrun]
  cases ending with
  | found x => exact ⟨_, rfl, hlength, fun _ => statusCode_dlogEnd ..⟩
  | exhausted => exact ⟨_, rfl, hlength, fun _ => statusCode_dlogEnd ..⟩
  | truncated => exact ⟨_, rfl, hlength, fun _ => statusCode_dlogEnd ..⟩
  | noInverse => exact ⟨_, rfl, hlength, fun _ => statusCode_dlogEnd ..⟩
  | overflow => exact ⟨_, rfl, hb, fun hroom => absurd hending hroom.not_gt⟩

end Sys2Proof.Machine
end

section
/-! The bijection mapper `MAPEXP` of `44_bijection_mapper.md` R191 and R192: statement O41. -/

namespace Sys2Proof.Machine

open Sys2Proof

/-! ## The clamp and the entries -/

/-- A count within the map is not clamped (R191). -/
theorem clampCount_of_le {count : Int} {cap : Nat} (h : count ≤ cap) : clampCount count cap = count.toNat :=
  min_eq_left (Int.toNat_le.mpr h)

/-- A count above the map is clamped to its capacity (R191). -/
theorem clampCount_of_lt {count : Int} {cap : Nat} (h : (cap : Int) < count) : clampCount count cap = cap :=
  min_eq_right (Int.lt_toNat.mpr h).le

/-- The entries as powers (R191). In `mapEntries` the whole range is cast to integers, here each index is. -/
theorem mapEntries_eq_pow_emod {n : Int} (hn : 0 < n) (e : Int) (c : Nat) :
    mapEntries e n c = (List.range c).map (fun (i : Nat) => (i : Int) ^ e.toNat % n % c) := by
  simp only [mapEntries, modPow_eq_pow_emod hn, bind_pure_comp, List.map_eq_map, List.map_map, Function.comp_def]

/-! ## MAPEXP -/

/-- `MAPEXP` raises at the checks of R191. -/
theorem mapexpRule_invalid {s : State} {o : ResultState} (h : s.xVal 1 ≤ 0 ∨ s.xVal 0 < 0 ∨ s.xVal 2 < 0) :
    mapexpRule s o = .error .invalidInput := by
  unfold mapexpRule
  dsimp only
  split_ifs
  · rfl
  · rfl
  · rfl
  · omega

/-- `MAPEXP` past the checks of R191. -/
theorem mapexpRule_valid {s : State} {o : ResultState} (hn : 0 < s.xVal 1) (he : 0 ≤ s.xVal 0) (hcount : 0 ≤ s.xVal 2) :
    mapexpRule s o = .ok { o with
      status := clampFlag (s.xVal 2) s.cfg.mapCap o.status
      map := mapEntries (s.xVal 0) (s.xVal 1) (clampCount (s.xVal 2) s.cfg.mapCap) } := by
  simp only [mapexpRule, if_neg hn.not_ge, if_neg he.not_gt, if_neg hcount.not_gt]

/-- `MAPEXP` past the checks of R191 maps 0..c−1, for the clamped count c, by powers modulo n and then modulo c. -/
theorem exec_mapexp_valid {s : State} {c : Nat} (hn : 0 < s.xVal 1) (he : 0 ≤ s.xVal 0) (hcount : 0 ≤ s.xVal 2)
    (hc : clampCount (s.xVal 2) s.cfg.mapCap = c) :
    exec .mapexp s = s.returns { noResults with
      status := if (s.cfg.mapCap : Int) < s.xVal 2 then 0x80000400 else 0x80000000
      map := (List.range c).map (fun (i : Nat) => (i : Int) ^ (s.xVal 0).toNat % s.xVal 1 % c) } := by
  rw [← clampFlag_readyStatus, ← mapEntries_eq_pow_emod hn, ← hc]
  exact exec_returns (mapexpRule_valid (s := s.prologue) hn he hcount)

/-- Settles O41: the clamped count, the count itself up to `MAP_CAP`, is the length and the second modulus. -/
theorem mapexpResult : Obligations.MapexpResult := by
  refine ⟨by decide, ?_⟩
  rintro s e n count rfl rfl rfl
  refine ⟨fun h => exec_invalidInput (mapexpRule_invalid (s := s.prologue) h),
    fun hn he hcount => ⟨fun hle => ?_, fun hlt => ?_⟩⟩
  · rw [exec_mapexp_valid hn he hcount (clampCount_of_le hle), if_neg hle.not_gt, Int.toNat_of_nonneg hcount]
    rfl
  · rw [exec_mapexp_valid hn he hcount (clampCount_of_lt hlt), if_pos hlt]

end Sys2Proof.Machine
end

section
/-! The field arithmetic of `45_aes128.md` R202, the inverse and affine map behind the substitution table of R203, and
the four transformations of R204 to R207: statements O42, O43 and O44. -/

namespace Sys2Proof.Machine

open Sys2Proof

/-! ## Multiplication by x -/

/-- A multiple of a byte by a sum of two bits. -/
theorem ite_bit_xor (p q : Bool) (a : Byte) :
    (if (p ^^ q) = true then a else 0) = (if p then a else 0) ^^^ (if q then a else 0) := by
  cases p <;> cases q <;> simp

/-- Multiplication by x is additive. -/
theorem xtime_xor (a b : Byte) : xtime (a ^^^ b) = xtime a ^^^ xtime b := by
  simp only [xtime, BitVec.shiftLeft_xor_distrib, BitVec.getLsbD_xor, ite_bit_xor]
  ac_rfl

/-- `xtime` in nine bits (R202): bit 8 of the shifted byte is bit 7 of the byte, and 0x11b clears it. -/
theorem setWidth_xtime (a : Byte) :
    (xtime a).setWidth 9 = (a.setWidth 9 <<< 1) ^^^ (if a.getLsbD 7 then 0x11b#9 else 0) := by
  have hcarry : a.setWidth 9 <<< 1 = (a <<< 1).setWidth 9 ^^^ (if a.getLsbD 7 then 0x100#9 else 0) := by
    revert a
    decide
  rw [hcarry, xtime, BitVec.setWidth_xor, BitVec.xor_assoc]
  cases a.getLsbD 7 <;> rfl

/-! ## The product -/

section
variable (n : Nat)

/-- A product goes through every additive map that commutes with multiplication by x. -/
theorem map_gmulLoop {f : Byte → Byte} (hxor : ∀ a b, f (a ^^^ b) = f a ^^^ f b)
    (hxtime : ∀ a, f (xtime a) = xtime (f a)) (a b : Byte) : f (gmulLoop n a b) = gmulLoop n (f a) b := by
  have hzero : f 0 = 0 := by simpa using hxor 0 0
  induction n generalizing a b with
  | zero => exact hzero
  | succ n ih => rw [gmulLoop, gmulLoop, hxor, ih, hxtime, apply_ite f, hzero]

theorem gmulLoop_xor_left (a a' b : Byte) : gmulLoop n (a ^^^ a') b = gmulLoop n a b ^^^ gmulLoop n a' b := by
  induction n generalizing a a' b with
  | zero => exact BitVec.xor_self.symm
  | succ n ih =>
    simp only [gmulLoop, xtime_xor, ih]
    cases b.getLsbD 0
    · simp
    · simp only [if_true]
      ac_rfl

theorem gmulLoop_xor_right (a b b' : Byte) : gmulLoop n a (b ^^^ b') = gmulLoop n a b ^^^ gmulLoop n a b' := by
  induction n generalizing a b b' with
  | zero => exact BitVec.xor_self.symm
  | succ n ih =>
    simp only [gmulLoop, BitVec.ushiftRight_xor_distrib, ih, BitVec.getLsbD_xor, ite_bit_xor]
    ac_rfl

/-- The product as a sum over the bits of the second factor, from any partial sum on. -/
theorem foldl_bits_eq_gmulLoop (a b acc : Byte) :
    (List.range n).foldl (fun acc k => acc ^^^ (if b.getLsbD k then xtime^[k] a else 0)) acc = acc ^^^ gmulLoop n a b := by
  induction n generalizing a b acc with
  | zero => simp [gmulLoop]
  | succ n ih =>
    have hbit (k : Nat) : b.getLsbD (k + 1) = (b >>> 1).getLsbD k := by rw [BitVec.getLsbD_ushiftRight, add_comm]
    simp only [List.range_succ_eq_map, List.foldl_cons, List.foldl_map, Nat.succ_eq_add_one, Function.iterate_succ_apply,
      hbit, ih, gmulLoop, BitVec.xor_assoc, Function.iterate_zero_apply]

end

theorem gmul_xor_left (a a' b : Byte) : gmul (a ^^^ a') b = gmul a b ^^^ gmul a' b := gmulLoop_xor_left 8 a a' b

theorem gmul_xor_right (a b b' : Byte) : gmul a (b ^^^ b') = gmul a b ^^^ gmul a b' := gmulLoop_xor_right 8 a b b'

theorem gmul_xtime_left (a b : Byte) : gmul (xtime a) b = xtime (gmul a b) :=
  (map_gmulLoop 8 xtime_xor (fun _ => rfl) a b).symm

/-- The powers of x below x^8 are the single bits. -/
theorem gmul_one_left : ∀ b : Byte, gmul 1 b = b := by decide +kernel

/-- Multiplication by `b` is additive and commutes with that by x, so it goes through the product 1 · a. -/
theorem gmul_comm (a b : Byte) : gmul a b = gmul b a :=
  calc gmul a b = gmul (gmul 1 a) b := by rw [gmul_one_left]
    _ = gmul (gmul 1 b) a := map_gmulLoop (f := (gmul · b)) 8 (gmul_xor_left · · b) (gmul_xtime_left · b) 1 a
    _ = gmul b a := by rw [gmul_one_left]

theorem gmul_one (a : Byte) : gmul a 1 = a := by rw [gmul_comm, gmul_one_left]

theorem gmul_two (a : Byte) : gmul a 2 = xtime a := by
  rw [gmul_comm, show (2 : Byte) = xtime 1 from by decide, gmul_xtime_left, gmul_one_left]

theorem gmul_three (a : Byte) : gmul a 3 = xtime a ^^^ a := by
  rw [show (3 : Byte) = 2 ^^^ 1 from by decide, gmul_xor_right, gmul_two, gmul_one]

/-- Settles O42: the product is bilinear and commutes with multiplication by x. -/
theorem aesFieldArithmetic : Obligations.AesFieldArithmetic := fun a b c =>
  ⟨setWidth_xtime a, ((foldl_bits_eq_gmulLoop 8 a b 0).trans BitVec.zero_xor).symm, gmul_one a, gmul_two a, gmul_three a,
    gmul_comm a b, gmul_xor_right a b c⟩

/-! ## The substitution table -/

/-- The affine map of R203. -/
def affineMap (b : Byte) : Byte :=
  b ^^^ b.rotateLeft 1 ^^^ b.rotateLeft 2 ^^^ b.rotateLeft 3 ^^^ b.rotateLeft 4 ^^^ 0x63

/-- The affine map undone: its linear part is invertible. -/
def affineInverse (b : Byte) : Byte := b.rotateLeft 1 ^^^ b.rotateLeft 3 ^^^ b.rotateLeft 6 ^^^ 0x05

theorem affineMap_affineInverse : ∀ b : Byte, affineMap (affineInverse b) = b := by decide +kernel

/-- Each of the 256 entries of the table, with the affine map undone, is the inverse in the field, or 0 for 0 (R203). -/
theorem gmul_affineInverse_sbox :
    ∀ a : Byte, gmul a (affineInverse (sbox a)) = 1 ∨ (a = 0 ∧ affineInverse (sbox a) = 0) := by decide +kernel

/-- Settles O43: the inverse is read off the table by undoing the affine map. -/
theorem aesSboxFormula : Obligations.AesSboxFormula := fun a =>
  ⟨affineInverse (sbox a), gmul_affineInverse_sbox a, (affineMap_affineInverse (sbox a)).symm⟩

/-! ## The transformations -/

section
variable (s key : AesBlock)

theorem getElem_subBytes {i : Nat} (h : i < 16) : (subBytes s)[i] = sbox s[i] := by simp [subBytes]

theorem getElem_shiftRows (r c : Fin 4) : (shiftRows s)[r.val + 4 * c.val] = s[r.val + 4 * ((c.val + r.val) % 4)] := by
  have hrow : (r.val + 4 * c.val) % 4 = r.val := by omega
  have hcolumn : (r.val + 4 * c.val) / 4 = c.val := by omega
  simp only [shiftRows, Vector.getElem_ofFn, Vector.get_eq_getElem, hrow, hcolumn]

/-- One byte of one column. -/
theorem getElem_mixColumns (c r : Fin 4) :
    (mixColumns s)[4 * c.val + r.val]
      = (mixColumn s[4 * c.val] s[4 * c.val + 1] s[4 * c.val + 2] s[4 * c.val + 3])[r] := by
  have hrow : (4 * c.val + r.val) % 4 = r.val := by omega
  have hcolumn : (4 * c.val + r.val) / 4 = c.val := by omega
  simp only [mixColumns, Vector.getElem_ofFn, Vector.get_eq_getElem, hrow, hcolumn, Fin.getElem_fin]

theorem getElem_addRoundKey {i : Nat} (h : i < 16) : (addRoundKey s key)[i] = s[i] ^^^ key[i] := by simp [addRoundKey]

end

/-- Settles O44: byte r + 4c of a block is row r and column c. -/
theorem aesTransforms : Obligations.AesTransforms := fun s key r c i =>
  ⟨getElem_subBytes s i.isLt, getElem_shiftRows s r c, getElem_mixColumns s c 0, getElem_mixColumns s c 1,
    getElem_mixColumns s c 2, getElem_mixColumns s c 3, getElem_addRoundKey s key i.isLt⟩

end Sys2Proof.Machine
end

section
/-! The key schedule of `45_aes128.md` R208 and R209: statement O45. -/

namespace Sys2Proof.Machine

open Sys2Proof

/-! ## The round constants -/

/-- The ten constants are the powers of x (R208). -/
theorem rcon_succ {i : Nat} (hlow : 1 ≤ i) (hhigh : i < 10) : rcon (i + 1) = xtime (rcon i) := by
  interval_cases i <;> decide

/-! ## The words of the schedule -/

/-- What an absent word of the schedule reads as. -/
abbrev zeroWord : AesWord := Vector.replicate 4 0

/-- A word is computed from words before it, so words after it make no difference. -/
theorem nextKeyWord_append {j : Nat} {w : List AesWord} (hj : 4 ≤ j) (hlen : j ≤ w.length) (rest : List AesWord) :
    nextKeyWord j (w ++ rest) = nextKeyWord j w := by
  rw [nextKeyWord, nextKeyWord, List.getD_append _ _ _ _ (by omega), List.getD_append _ _ _ _ (by omega)]

section
variable (n : Nat) (w : List AesWord)

/-- The words of a schedule stay when it is extended. -/
theorem extendKey_eq_append : ∃ rest, extendKey n w = w ++ rest := by
  induction n generalizing w with
  | zero => exact ⟨[], (List.append_nil w).symm⟩
  | succ n ih =>
    obtain ⟨rest, hrest⟩ := ih (w ++ [nextKeyWord w.length w])
    exact ⟨_, hrest.trans (List.append_assoc _ _ _)⟩

@[simp] theorem length_extendKey : (extendKey n w).length = w.length + n := by
  induction n generalizing w with
  | zero => rfl
  | succ n ih => rw [extendKey, ih, List.length_append, List.length_singleton, add_right_comm, add_assoc]

/-- Every added word is the next word of the schedule it stands in. -/
theorem getD_extendKey {j : Nat} (hw : 4 ≤ w.length) (hlow : w.length ≤ j) (hhigh : j < w.length + n) :
    (extendKey n w).getD j zeroWord = nextKeyWord j (extendKey n w) := by
  induction n generalizing w with
  | zero => omega
  | succ n ih =>
    rw [extendKey]
    rcases hlow.eq_or_lt with rfl | hlt
    · obtain ⟨rest, hrest⟩ := extendKey_eq_append n (w ++ [nextKeyWord w.length w])
      rw [hrest, List.append_assoc, nextKeyWord_append hw le_rfl]
      simp
    · exact ih _ (by simp; omega) (by simpa using hlt) (by simp; omega)

end

section
variable (key : AesBlock)

theorem length_keySchedule : (keySchedule key).length = 44 := length_extendKey 40 _

/-- The first four words are the key (R209). -/
theorem getElem_keySchedule_key (j b : Fin 4) :
    ((keySchedule key).getD j.val zeroWord)[b] = key[4 * j.val + b.val] := by
  obtain ⟨rest, hrest⟩ := extendKey_eq_append 40 [keyWord key 0, keyWord key 1, keyWord key 2, keyWord key 3]
  rw [keySchedule, hrest]
  fin_cases j <;> exact Vector.getElem_ofFn _

theorem getD_keySchedule {j : Nat} (hlow : 4 ≤ j) (hhigh : j < 44) :
    (keySchedule key).getD j zeroWord = nextKeyWord j (keySchedule key) := getD_extendKey 40 _ le_rfl hlow hhigh

end

/-! ## The bytes of the next word -/

section
variable {j : Nat} (w : List AesWord) (b : Fin 4)

/-- A word that is no multiple of 4: the exclusive-or of two earlier words (R209). -/
theorem getElem_nextKeyWord_of_ne (h : j % 4 ≠ 0) :
    (nextKeyWord j w)[b] = (w.getD (j - 4) zeroWord)[b] ^^^ (w.getD (j - 1) zeroWord)[b] := by
  simp only [nextKeyWord, if_neg h, Fin.getElem_fin, Vector.getElem_zipWith]

/-- A rotated and substituted word with a round constant added to its first byte (R209). -/
theorem getElem_subWord_rotWord (t : AesWord) (c : Byte) :
    (Vector.zipWith (· ^^^ ·) (subWord (rotWord t)) #v[c, 0, 0, 0])[b]
      = sbox t[(b.val + 1) % 4] ^^^ (if b = 0 then c else 0) := by
  fin_cases b <;> simp [subWord, rotWord]

/-- A word that is a multiple of 4 (R209). -/
theorem getElem_nextKeyWord_of_eq (h : j % 4 = 0) :
    (nextKeyWord j w)[b] = (w.getD (j - 4) zeroWord)[b] ^^^ sbox (w.getD (j - 1) zeroWord)[(b.val + 1) % 4]
      ^^^ (if b = 0 then rcon (j / 4) else 0) := by
  rw [BitVec.xor_assoc, ← getElem_subWord_rotWord]
  simp only [nextKeyWord, if_pos h, Fin.getElem_fin, Vector.getElem_zipWith]

/-- A round key is four words of the schedule, one after another (R209). -/
theorem getElem_roundKey (k : Nat) (j b : Fin 4) :
    (roundKey w k)[4 * j.val + b.val] = (w.getD (4 * k + j.val) zeroWord)[b] := by
  have hbyte : (4 * j.val + b.val) % 4 = b.val := by omega
  have hword : (4 * j.val + b.val) / 4 = j.val := by omega
  simp only [roundKey, Vector.getElem_ofFn, Vector.get_eq_getElem, hbyte, hword, Fin.getElem_fin]

end

/-- Settles O45: each word after the key is the next word of the finished schedule. -/
theorem aesKeySchedule : Obligations.AesKeySchedule := by
  refine ⟨⟨rfl, fun _ => rcon_succ⟩, ?_⟩
  intro key w z hw hz
  rw [hw, hz]
  refine ⟨length_keySchedule key, getElem_keySchedule_key key, fun j hlow hhigh hj b => ?_, fun j hlow hhigh hj b => ?_,
    fun k => getElem_roundKey _ k.val⟩
  · rw [getD_keySchedule key hlow hhigh, getElem_nextKeyWord_of_ne _ b hj]
  · rw [getD_keySchedule key hlow hhigh, getElem_nextKeyWord_of_eq _ b hj]

end Sys2Proof.Machine
end

section
/-! The encryption `AESENC` of `45_aes128.md` R210 to R217 as a run over single stages, the invariant of its trace, and
statements O46 and O47. -/

namespace Sys2Proof

/-- The trace has room for the 41 records of an encryption (R8, R215). -/
theorem Params.fortyOne_le_traceCap {c : Params} (h : c.ok = true) : 41 ≤ c.traceCap := by
  simp only [Params.ok, Bool.and_eq_true, decide_eq_true_eq] at h
  omega

end Sys2Proof

namespace Sys2Proof.Machine

open Sys2Proof

/-! ## One stage -/

/-- The key in the record of a stage of round `r`: the round key where it is added, else 0 (R214). -/
def stageKey (w : List AesWord) (r : Nat) : AesStage → AesBlock
  | .addRoundKey => roundKey w r
  | _ => Vector.replicate 16 0

/-- The record of a stage of round `r` that leaves the state `s` (R214). -/
def stageRecord (w : List AesWord) (r : Nat) (stage : AesStage) (s : AesBlock) : Record :=
  { aesRecord r stage s with key := stageKey w r stage }

/-- An encryption one stage further: the stage's transformation and its record. -/
def AesRun.stage (w : List AesWord) (run : AesRun) (r : Nat) (stage : AesStage) : AesRun :=
  let after := aesAfter stage.number.toNat run.s (stageKey w r stage)
  ⟨run.records ++ [stageRecord w r stage after], after⟩

/-- An encryption several stages further, each with its round. -/
def AesRun.stages (w : List AesWord) (run : AesRun) (stages : List (Nat × AesStage)) : AesRun :=
  stages.foldl (fun run x => run.stage w x.1 x.2) run

theorem AesRun.stages_cons (w : List AesWord) (run : AesRun) (x : Nat × AesStage) (stages : List (Nat × AesStage)) :
    run.stages w (x :: stages) = (run.stage w x.1 x.2).stages w stages := rfl

/-- The stages of round `r` ≥ 1 (R210). -/
def roundStages (r : Nat) : List (Nat × AesStage) :=
  if r = 10 then [(r, .subBytes), (r, .shiftRows), (r, .addRoundKey)]
  else [(r, .subBytes), (r, .shiftRows), (r, .mixColumns), (r, .addRoundKey)]

/-- The stages after the input record (R215). -/
def stageOrder : List (Nat × AesStage) :=
  (0, .addRoundKey) :: [1, 2, 3, 4, 5, 6, 7, 8, 9, 10].flatMap roundStages

theorem aesRound_eq_stages (w : List AesWord) (r : Nat) (run : AesRun) :
    aesRound w r run = run.stages w (roundStages r) := by
  unfold aesRound roundStages
  split
  all_goals
    simp only [AesRun.stages, AesRun.stage, List.foldl_cons, List.foldl_nil, List.append_assoc]
    rfl

/-- The encryption is the run over its stages from the input record on (R210, R216). -/
theorem aesEncrypt_eq_stages (pt key : AesBlock) :
    aesEncrypt pt key = AesRun.stages (keySchedule key) ⟨[aesRecord 0 .input pt], pt⟩ stageOrder := by
  simp only [aesEncrypt, stageOrder, AesRun.stages, List.foldl_cons (l := List.flatMap _ _), List.foldl_flatMap,
    aesRound_eq_stages]
  rfl

/-! ## The trace -/

/-- A record of an encryption with schedule `w`: `KIND` 5, and the key of its stage (R214). -/
def isAesRecord (w : List AesWord) (rec : Record) : Prop :=
  rec = { Record.zero with kind := 5, a := rec.a, b := rec.b, s := rec.s, key := rec.key }
    ∧ rec.key = if rec.b = 4 then roundKey w rec.a.toNat else Vector.replicate 16 0

/-- The state of a record is that of the record before it, after the stage it names (R204 to R207). -/
def isNextRecord (rec next : Record) : Prop := next.s = aesAfter next.b.toNat rec.s next.key

/-- What the trace of an encryption of `pt` records of the stages done so far. -/
structure AesRun.Traces (w : List AesWord) (pt : AesBlock) (order : List (Nat × Nat)) (run : AesRun) : Prop where
  /-- One record per stage, in order (R215). -/
  order : run.records.map (fun rec => (rec.a.toNat, rec.b.toNat)) = order
  /-- Each is an `AES` record (R214). -/
  records : ∀ rec ∈ run.records, isAesRecord w rec
  /-- The first state is the plaintext (R216). -/
  first : ∃ rec ∈ run.records.head?, rec.s = pt
  /-- Each state is its stage applied to the one before. -/
  next : run.records.IsChain isNextRecord
  /-- The last state is the state register. -/
  last : ∃ rec ∈ run.records.getLast?, rec.s = run.s

theorem stageRecord_isAesRecord (w : List AesWord) {r : Nat} (hr : r < 2 ^ 32) (stage : AesStage) (s : AesBlock) :
    isAesRecord w (stageRecord w r stage s) := by
  refine ⟨rfl, ?_⟩
  have hround : (BitVec.ofNat 32 r).toNat = r := Nat.mod_eq_of_lt hr
  cases stage
  case addRoundKey => simp [stageRecord, stageKey, aesRecord, AesStage.number, hround]
  all_goals rfl

section
variable {w : List AesWord} {pt : AesBlock} {order : List (Nat × Nat)} {run : AesRun}

/-- One more stage is one more record, the next of the last. -/
theorem AesRun.Traces.stage (h : run.Traces w pt order) {r : Nat} (hr : r < 2 ^ 32) (stage : AesStage) :
    (run.stage w r stage).Traces w pt (order ++ [(r, stage.number.toNat)]) where
  order := by
    have hround : (BitVec.ofNat 32 r).toNat = r := Nat.mod_eq_of_lt hr
    simp only [AesRun.stage, stageRecord, aesRecord, List.map_append, h.order, List.map_singleton, hround]
  records := List.forall_mem_append.mpr ⟨h.records, by simp [stageRecord_isAesRecord w hr]⟩
  first := by
    obtain ⟨rec, hrec, hs⟩ := h.first
    exact ⟨rec, List.mem_head?_append_of_mem_head? hrec, hs⟩
  next := by
    obtain ⟨rec, hrec, hs⟩ := h.last
    refine List.isChain_append.mpr ⟨h.next, .singleton _, fun x hx y hy => ?_⟩
    obtain rfl := Option.mem_unique hrec hx
    obtain rfl : _ = y := by simpa using hy
    rw [isNextRecord, hs]
    rfl
  last := ⟨_, List.getLast?_concat, rfl⟩

theorem AesRun.Traces.stages (h : run.Traces w pt order) {stages : List (Nat × AesStage)}
    (hstages : ∀ x ∈ stages, x.1 < 2 ^ 32) :
    (run.stages w stages).Traces w pt (order ++ stages.map fun x => (x.1, x.2.number.toNat)) := by
  induction stages generalizing run order with
  | nil => rwa [List.map_nil, List.append_nil]
  | cons x stages ih =>
    obtain ⟨hx, hrest⟩ := List.forall_mem_cons.mp hstages
    rw [AesRun.stages_cons, List.map_cons, List.append_cons]
    exact ih (h.stage hx x.2) hrest

end

/-- The trace of an encryption (R215). -/
theorem aesEncrypt_traces (pt key : AesBlock) : (aesEncrypt pt key).Traces (keySchedule key) pt aesOrder := by
  have hinput : AesRun.Traces (keySchedule key) pt [(0, 0)] ⟨[aesRecord 0 .input pt], pt⟩ :=
    { order := rfl
      records := List.forall_mem_singleton.mpr (stageRecord_isAesRecord _ (by decide) .input pt)
      first := ⟨_, rfl, rfl⟩
      next := .singleton _
      last := ⟨_, rfl, rfl⟩ }
  have horder : aesOrder = [(0, 0)] ++ stageOrder.map fun x => (x.1, x.2.number.toNat) := by decide
  rw [aesEncrypt_eq_stages, horder]
  exact hinput.stages (by decide)

theorem AesRun.Traces.length_records {w : List AesWord} {pt : AesBlock} {run : AesRun} (h : run.Traces w pt aesOrder) :
    run.records.length = 41 := by
  rw [← List.length_map, h.order]
  rfl

/-! ## AESENC -/

/-- What an encryption leaves (R212): its trace, and the state register as the ciphertext. -/
def aesResults (run : AesRun) : ResultState := { noResults with trace := run.records, obuf := run.s.toList }

/-- `AESENC` raises on an input that is not 32 bytes (R212). -/
theorem exec_aesenc_invalid {s : State} (h : s.ibufLen ≠ 32) : exec .aesenc s = s.raises 1 :=
  exec_invalidInput (if_pos h)

/-- The rule of `AESENC` on 32 bytes: the 41 records fit the trace and the ciphertext its buffer, so nothing raises. -/
theorem aesencRule_valid {s : State} (hc : s.cfg.ok = true) (h : s.ibufLen = 32) :
    aesencRule s ResultState.cleared
      = .ok (aesResults (aesEncrypt (blockAt s.ibuf 0) (blockAt s.ibuf 16))) := by
  have hemit := ResultState.emitAll_cleared s.cfg (aesEncrypt (blockAt s.ibuf 0) (blockAt s.ibuf 16)).records
  rw [(aesEncrypt_traces _ _).length_records, if_pos (Params.fortyOne_le_traceCap hc)] at hemit
  have hroom : 16 ≤ s.cfg.obufCap := by rw [Params.obufCap]; omega
  simp only [aesencRule, if_neg (not_not_intro h), hemit, ResultState.putObuf, Vector.length_toList, if_pos hroom]
  rw [cleared_eq_noResults, aesResults]

/-- `AESENC` on 32 bytes (R212). -/
theorem exec_aesenc_valid {s : State} (hc : s.cfg.ok = true) (h : s.ibufLen = 32) :
    exec .aesenc s = s.returns (aesResults (aesEncrypt (blockAt s.ibuf 0) (blockAt s.ibuf 16))) :=
  exec_returns (aesencRule_valid (s := s.prologue) hc h)

section
variable (pt key : AesBlock)

@[simp] theorem blockAt_append_zero : blockAt (pt.toList ++ key.toList) 0 = pt := by
  ext i hi
  simp [blockAt, List.getElem?_append_left]

@[simp] theorem blockAt_append_16 : blockAt (pt.toList ++ key.toList) 16 = key := by
  ext i hi
  simp [blockAt, List.getElem?_append_right]

end

/-- Settles O46: the trace is the run over the stages of R215, and its last record holds the ciphertext. -/
theorem aesencResult : Obligations.AesencResult := by
  refine ⟨by decide, fun s hc => ⟨exec_aesenc_invalid, fun pt key hlen hin => ?_⟩⟩
  have htrace := aesEncrypt_traces pt key
  have hlength := htrace.length_records
  obtain ⟨first, hfirst, hpt⟩ := htrace.first
  obtain ⟨last, hlast, hct⟩ := htrace.last
  rw [List.getLast?_eq_getElem?, hlength] at hlast
  refine ⟨(aesEncrypt pt key).records, ?_, hlength, htrace.order, htrace.records, ?_, fun n hn => ?_⟩
  · rw [exec_aesenc_valid hc hlen, hin, blockAt_append_zero, blockAt_append_16, aesResults, List.getD_eq_getElem?_getD,
      hlast, Option.getD_some, hct]
  · rw [List.getD_eq_getElem?_getD, ← List.head?_eq_getElem?, hfirst, Option.getD_some, hpt]
  · rw [List.getD_eq_getElem _ _ (by omega), List.getD_eq_getElem _ _ (by omega)]
    exact List.isChain_iff_getElem.mp htrace.next n (by omega)

/-- Settles O47: the encryption evaluated on the operands of R217. -/
theorem aesKnownAnswer : Obligations.AesKnownAnswer := by
  intro s hc hin
  have hlen : s.ibufLen = 32 := BitVec.eq_of_toNat_eq (by rw [← State.length_ibuf, hin]; rfl)
  refine ⟨_, exec_aesenc_valid hc hlen, ?_, (aesEncrypt_traces _ _).length_records⟩
  change (aesEncrypt (blockAt s.ibuf 0) (blockAt s.ibuf 16)).s.toList = _
  rw [hin]
  decide +kernel

end Sys2Proof.Machine
end

section
/-! The padding of `46_sha256.md` R232: statement O48. -/

namespace Sys2Proof.Machine

open Sys2Proof

/-! ## The length field -/

@[simp] theorem length_beBytes (n v : Nat) : (beBytes n v).length = n := by
  induction n with
  | zero => rfl
  | succ n ih => rw [beBytes, List.length_cons, ih]

/-- The `n` low bytes are the value modulo 256^n. -/
theorem beVal_beBytes (n v : Nat) : beVal (beBytes n v) = v % 256 ^ n := by
  induction n with
  | zero => rw [pow_zero, Nat.mod_one, beBytes, beVal_nil]
  | succ n ih =>
    rw [beBytes, beVal_cons, ih, length_beBytes, BitVec.toNat_ofNat, Nat.mod_pow_succ (b := 256), Nat.add_comm,
      Nat.mul_comm]

/-! ## The padded message -/

theorem padZeros_lt (l : Nat) : padZeros l < 64 := by
  unfold padZeros
  omega

/-- The zero bytes bring the message and its 0x80 to 56 modulo 64. -/
theorem add_padZeros_mod (l : Nat) : (l + 1 + padZeros l) % 64 = 56 := by
  unfold padZeros
  omega

@[simp] theorem length_shaPad (msg : List Byte) : (shaPad msg).length = 64 * ((msg.length + 8) / 64 + 1) := by
  have hlt := padZeros_lt msg.length
  have hmod := add_padZeros_mod msg.length
  simp only [shaPad, List.length_append, List.length_replicate, List.length_singleton, length_beBytes]
  omega

/-- Settles O48: eight bytes hold the bit length of a message below 2^61 bytes. -/
theorem shaPadding : Obligations.ShaPadding := by
  intro msg hmsg
  have hbits : beVal (beBytes 8 (8 * msg.length)) = 8 * msg.length := by
    rw [beVal_beBytes]
    exact Nat.mod_eq_of_lt (by omega)
  exact ⟨padZeros msg.length, beBytes 8 (8 * msg.length), padZeros_lt _, add_padZeros_mod _, length_beBytes _ _, hbits,
    rfl, length_shaPad msg⟩

end Sys2Proof.Machine
end

section
/-! The functions, the constants and the message schedule of `46_sha256.md` R233 to R236: statement O49. -/

namespace Sys2Proof.Machine

open Sys2Proof

/-! ## The six functions -/

section
variable (x y z : Word) {n i : Nat}

/-- A rotation takes bit i from bit i + n modulo 32. -/
theorem getLsbD_rotr32 (hn : n < 32) (hi : i < 32) : (rotr32 x n).getLsbD i = x.getLsbD ((i + n) % 32) := by
  simp only [rotr32, BitVec.getLsbD_or, BitVec.getLsbD_ushiftRight, BitVec.getLsbD_shiftLeft, hi, decide_true,
    Bool.true_and]
  by_cases hwrap : i + n < 32
  · have hlow : i < 32 - n := by omega
    rw [Nat.mod_eq_of_lt hwrap, Nat.add_comm n i]
    simp [hlow]
  · have hhigh : ¬ i < 32 - n := by omega
    have hbit : (i + n) % 32 = i - (32 - n) := by omega
    rw [BitVec.getLsbD_of_ge x (n + i) (by omega), hbit]
    simp [hhigh]

/-- A shift takes bit i from bit i + n, where there is one. -/
theorem getLsbD_ushiftRight_word : (x >>> n).getLsbD i = (decide (i + n < 32) && x.getLsbD (i + n)) := by
  rw [BitVec.getLsbD_ushiftRight, Nat.add_comm n i]
  by_cases hbit : i + n < 32
  · simp [hbit]
  · simp [hbit, BitVec.getLsbD_of_ge x (i + n) (by omega)]

theorem getLsbD_shaCh (hi : i < 32) :
    (shaCh x y z).getLsbD i = ((x.getLsbD i && y.getLsbD i) ^^ (!x.getLsbD i && z.getLsbD i)) := by
  simp [shaCh, hi]

theorem getLsbD_shaMaj :
    (shaMaj x y z).getLsbD i
      = (((x.getLsbD i && y.getLsbD i) ^^ (x.getLsbD i && z.getLsbD i)) ^^ (y.getLsbD i && z.getLsbD i)) := by
  simp [shaMaj]

end

/-! ## The constants -/

/-- The primes below 312, of which there are 64 (R235). -/
theorem filter_prime_range : (List.range 312).filter (fun p => decide p.Prime) =
    [2, 3, 5, 7, 11, 13, 17, 19, 23, 29, 31, 37, 41, 43, 47, 53, 59, 61, 67, 71, 73, 79, 83, 89, 97, 101, 103, 107, 109,
      113, 127, 131, 137, 139, 149, 151, 157, 163, 167, 173, 179, 181, 191, 193, 197, 199, 211, 223, 227, 229, 233, 239,
      241, 251, 257, 263, 269, 271, 277, 281, 283, 293, 307, 311] := by
  decide +kernel

/-- `n` is the integer part of the `k`-th root of `p`, times 2^32 when `scale` is 2^32 to the power `k`: its low word is
the first 32 bits of the fractional part. -/
def isFloorRoot (k scale p n : Nat) : Prop := n ^ k ≤ p * scale ∧ p * scale < (n + 1) ^ k

/-- The round constants come from the cube roots of the first 64 primes (R235). -/
theorem shaK_isFloorRoot :
    ∀ t < 64, ∃ whole < 8,
      isFloorRoot 3 (2 ^ 96) (((List.range 312).filter (fun p => decide p.Prime)).getD t 0)
        (whole * 2 ^ 32 + (shaK.getD t 0).toNat) := by
  rw [filter_prime_range]
  unfold isFloorRoot
  decide +kernel

/-- The initial words come from the square roots of the first eight primes (R234). -/
theorem shaInit_isFloorRoot :
    ∀ j < 8, ∃ whole < 8, isFloorRoot 2 (2 ^ 64) (([2, 3, 5, 7, 11, 13, 17, 19] : List Nat).getD j 0)
      (whole * 2 ^ 32
        + (([shaInit.a, shaInit.b, shaInit.c, shaInit.d, shaInit.e, shaInit.f, shaInit.g, shaInit.h] : List Word).getD
            j 0).toNat) := by
  unfold isFloorRoot
  decide +kernel

/-! ## The words of the schedule -/

/-- A word is computed from words before it, so words after it make no difference. -/
theorem nextScheduleWord_append {t : Nat} {w : List Word} (ht : 16 ≤ t) (hlen : t ≤ w.length) (rest : List Word) :
    nextScheduleWord (w ++ rest) t = nextScheduleWord w t := by
  have hbefore (d : Nat) (hd : 0 < d) : (w ++ rest).getD (t - d) 0 = w.getD (t - d) 0 :=
    List.getD_append _ _ _ _ (by omega)
  simp only [nextScheduleWord, hbefore 2, hbefore 7, hbefore 15, hbefore 16, Nat.zero_lt_succ]

section
variable (n : Nat) (w : List Word)

/-- The words of a schedule stay when it is extended. -/
theorem extendSchedule_eq_append : ∃ rest, extendSchedule n w = w ++ rest := by
  induction n generalizing w with
  | zero => exact ⟨[], (List.append_nil w).symm⟩
  | succ n ih =>
    obtain ⟨rest, hrest⟩ := ih (w ++ [nextScheduleWord w w.length])
    exact ⟨_, hrest.trans (List.append_assoc _ _ _)⟩

@[simp] theorem length_extendSchedule : (extendSchedule n w).length = w.length + n := by
  induction n generalizing w with
  | zero => rfl
  | succ n ih => rw [extendSchedule, ih, List.length_append, List.length_singleton, add_right_comm, add_assoc]

/-- Every added word is the next word of the schedule it stands in. -/
theorem getD_extendSchedule {t : Nat} (hw : 16 ≤ w.length) (hlow : w.length ≤ t) (hhigh : t < w.length + n) :
    (extendSchedule n w).getD t 0 = nextScheduleWord (extendSchedule n w) t := by
  induction n generalizing w with
  | zero => omega
  | succ n ih =>
    rw [extendSchedule]
    rcases hlow.eq_or_lt with rfl | hlt
    · obtain ⟨rest, hrest⟩ := extendSchedule_eq_append n (w ++ [nextScheduleWord w w.length])
      rw [hrest, List.append_assoc, nextScheduleWord_append hw le_rfl]
      simp
    · exact ih _ (by simp; omega) (by simpa using hlt) (by simp; omega)

end

section
variable (block : List Byte)

@[simp] theorem length_blockWords : (blockWords block).length = 16 := by simp [blockWords]

@[simp] theorem length_shaSchedule : (shaSchedule block).length = 64 := by simp [shaSchedule]

/-- The first 16 words are those of the block (R236). -/
theorem getD_shaSchedule_of_lt {t : Nat} (ht : t < 16) : (shaSchedule block).getD t 0 = be32At block (4 * t) := by
  obtain ⟨rest, hrest⟩ := extendSchedule_eq_append 48 (blockWords block)
  rw [shaSchedule, hrest, List.getD_append _ _ _ _ (by simpa using ht)]
  simp [blockWords, ht]

/-- The later words are computed from those before them (R236). -/
theorem getD_shaSchedule {t : Nat} (hlow : 16 ≤ t) (hhigh : t < 64) :
    (shaSchedule block).getD t 0 = nextScheduleWord (shaSchedule block) t :=
  getD_extendSchedule 48 _ (by simp) (by simpa using hlow) (by simpa using hhigh)

end

/-- Settles O49: bit by bit, root by root, and word by word in the finished schedule. (The model's own function has the
obligation's name.) -/
theorem shaSchedule_spec : Obligations.ShaSchedule := by
  refine ⟨fun x y z i hi => ⟨getLsbD_shaCh x y z hi, getLsbD_shaMaj x y z, ?_, ?_, ?_, ?_⟩, ⟨rfl, ?_, ?_, ?_⟩, ?_⟩
  · simp only [bigSigma0, BitVec.getLsbD_xor, getLsbD_rotr32 x _ hi, Nat.reduceLT]
  · simp only [bigSigma1, BitVec.getLsbD_xor, getLsbD_rotr32 x _ hi, Nat.reduceLT]
  · simp only [smallSigma0, BitVec.getLsbD_xor, getLsbD_rotr32 x _ hi, getLsbD_ushiftRight_word, Nat.reduceLT]
  · simp only [smallSigma1, BitVec.getLsbD_xor, getLsbD_rotr32 x _ hi, getLsbD_ushiftRight_word, Nat.reduceLT]
  · rw [filter_prime_range]
    rfl
  · intro t ht
    obtain ⟨whole, hwhole, hroot⟩ := shaK_isFloorRoot t ht
    refine ⟨whole, hwhole, ?_⟩
    rintro p n rfl rfl
    exact hroot
  · intro j hj
    obtain ⟨whole, hwhole, hroot⟩ := shaInit_isFloorRoot j hj
    refine ⟨whole, hwhole, ?_⟩
    rintro p n rfl rfl
    exact hroot
  · intro block w hblock hw
    rw [hw]
    refine ⟨length_shaSchedule block, fun t ht => ?_, fun t => getD_shaSchedule block⟩
    rw [getD_shaSchedule_of_lt block ht, be32At_toNat (by omega)]

end Sys2Proof.Machine
end

section
/-! The compression loop `SHA256` of `46_sha256.md` R237 to R246: the records of one block, of all blocks, and statements
O50 and O51. -/

namespace Sys2Proof

/-- A padded message fits its buffer (R8, R232). -/
theorem Params.padded_le_pbufCap (c : Params) {l : Nat} (h : l ≤ c.ibufCap) : 64 * ((l + 8) / 64 + 1) ≤ c.pbufCap := by
  unfold Params.pbufCap
  omega

/-- The trace has room for one record per byte of the padding buffer (R8, R244). -/
theorem Params.pbufCap_le_traceCap {c : Params} (h : c.ok = true) : c.pbufCap ≤ c.traceCap := by
  simp only [Params.ok, Bool.and_eq_true, decide_eq_true_eq] at h
  omega

end Sys2Proof

namespace Sys2Proof.Machine

open Sys2Proof

/-! ## The rounds of one block -/

/-- The working variables before round number `i` of a run of rounds, read from its records: those it began with, or
those of the record before. -/
def ShaRun.varsAt (run : ShaRun) (v : ShaVars) : Nat → ShaVars
  | 0 => v
  | i + 1 => recordVars (run.records.getD i Record.zero)

section
variable (blk : Nat) (kws : List (Word × Word)) (t : Nat) (v : ShaVars)

/-- The rounds after the first one are a run of their own. -/
theorem shaRounds_cons_varsAt (k w : Word) (i : Nat) :
    (shaRounds blk ((k, w) :: kws) t v).varsAt v (i + 1)
      = (shaRounds blk kws (t + 1) (shaRound v k w)).varsAt (shaRound v k w) i := by
  cases i <;> rfl

@[simp] theorem length_shaRounds : (shaRounds blk kws t v).records.length = kws.length := by
  induction kws generalizing t v with
  | nil => rfl
  | cons kw kws ih => rw [shaRounds, List.length_cons, ih, List.length_cons]

/-- The working variables at the end are those of the last record. -/
theorem shaRounds_v : (shaRounds blk kws t v).v = (shaRounds blk kws t v).varsAt v kws.length := by
  induction kws generalizing t v with
  | nil => rfl
  | cons kw kws ih => exact (ih _ _).trans (shaRounds_cons_varsAt blk kws t v kw.1 kw.2 _).symm

/-- Each record is that of the round applied to the working variables before it (R237). -/
theorem getD_shaRounds {i : Nat} (hi : i < kws.length) :
    (shaRounds blk kws t v).records.getD i Record.zero
      = shaRecord blk (t + i) (shaRound ((shaRounds blk kws t v).varsAt v i) kws[i].1 kws[i].2) kws[i].2 kws[i].1 := by
  induction kws generalizing t v i with
  | nil => exact absurd hi (Nat.not_lt_zero i)
  | cons kw kws ih =>
    cases i with
    | zero => rfl
    | succ i =>
      have hrest := ih (t + 1) (shaRound v kw.1 kw.2) (Nat.lt_of_succ_lt_succ hi)
      rw [← shaRounds_cons_varsAt, Nat.add_right_comm] at hrest
      exact hrest

end

/-! ## One block -/

theorem length_shaK : shaK.length = 64 := rfl

theorem length_shaK_zip (block : List Byte) : (shaK.zip (shaSchedule block)).length = 64 := by
  rw [List.length_zip, length_shaK, length_shaSchedule, Nat.min_self]

/-- A run of rounds that began with the running hash `h`, with its variables added into it (R237). -/
def ShaRun.addTo (run : ShaRun) (h : ShaVars) : ShaRun := ⟨run.records, h.add run.v⟩

section
variable (run : ShaRun) (h : ShaVars)

@[simp] theorem ShaRun.addTo_records : (run.addTo h).records = run.records := rfl

@[simp] theorem ShaRun.addTo_v : (run.addTo h).v = h.add run.v := rfl

/-- The working variables are read from the records alone. -/
@[simp] theorem ShaRun.addTo_varsAt (v : ShaVars) (i : Nat) : (run.addTo h).varsAt v i = run.varsAt v i := by
  cases i <;> rfl

end

/-- Block number `blk` of a padded message (R236). -/
def paddedBlock (padded : List Byte) (blk : Nat) : List Byte := (padded.drop (64 * blk)).take 64

/-- The compression of block number `blk` of a padded message into the running hash `h` (R237). It is irreducible: its
facts are the lemmas below, and no proof is to run its 64 rounds. -/
@[irreducible] def compressBlock (padded : List Byte) (blk : Nat) (h : ShaVars) : ShaRun :=
  shaCompress blk (paddedBlock padded blk) h

section
variable (padded : List Byte) (blk : Nat) (h : ShaVars)

theorem compressBlock_eq :
    compressBlock padded blk h
      = (shaRounds blk (shaK.zip (shaSchedule (paddedBlock padded blk))) 0 h).addTo h := by
  rw [compressBlock, shaCompress, ShaRun.addTo]

@[simp] theorem length_compressBlock : (compressBlock padded blk h).records.length = 64 := by
  rw [compressBlock_eq, ShaRun.addTo_records, length_shaRounds, length_shaK_zip]

/-- The running hash after a block: the one before it plus the variables of the block's last record (R237). -/
theorem compressBlock_v :
    (compressBlock padded blk h).v
      = h.add (recordVars ((compressBlock padded blk h).records.getD 63 Record.zero)) := by
  rw [compressBlock_eq, ShaRun.addTo_v, ShaRun.addTo_records, shaRounds_v, length_shaK_zip, ShaRun.varsAt]

theorem getD_compressBlock {t : Nat} (ht : t < 64) :
    (compressBlock padded blk h).records.getD t Record.zero
      = shaRecord blk t
          (shaRound ((compressBlock padded blk h).varsAt h t) (shaK.getD t 0)
            ((shaSchedule (paddedBlock padded blk)).getD t 0))
          ((shaSchedule (paddedBlock padded blk)).getD t 0) (shaK.getD t 0) := by
  have hround : t < (shaK.zip (shaSchedule (paddedBlock padded blk))).length := by rwa [length_shaK_zip]
  rw [compressBlock_eq, ShaRun.addTo_records, ShaRun.addTo_varsAt, getD_shaRounds _ _ _ _ hround, List.getElem_zip,
    Nat.zero_add, ← List.getD_eq_getElem _ 0, ← List.getD_eq_getElem _ 0]

end

/-! ## All blocks -/

section
variable (padded : List Byte) (n blk : Nat) (h : ShaVars)

/-- The first of several blocks, then the rest (R240). -/
theorem shaBlocks_succ :
    shaBlocks padded (n + 1) blk h
      = ⟨(compressBlock padded blk h).records
            ++ (shaBlocks padded n (blk + 1) (compressBlock padded blk h).v).records,
          (shaBlocks padded n (blk + 1) (compressBlock padded blk h).v).v⟩ := by
  rw [shaBlocks, compressBlock, paddedBlock]

@[simp] theorem length_shaBlocks : (shaBlocks padded n blk h).records.length = 64 * n := by
  induction n generalizing blk h with
  | zero => rfl
  | succ n ih =>
    rw [shaBlocks_succ, List.length_append, length_compressBlock, ih]
    omega

/-- The running hash one block further (R237). -/
theorem shaBlocks_succ_v :
    (shaBlocks padded (n + 1) blk h).v
      = (compressBlock padded (blk + n) (shaBlocks padded n blk h).v).v := by
  induction n generalizing blk h with
  | zero => rw [shaBlocks_succ]; rfl
  | succ n ih =>
    rw [shaBlocks_succ, ih, shaBlocks_succ padded n blk h, Nat.add_assoc, Nat.add_comm 1 n]

/-- The records of a block stand in the trace in the block's place (R244). -/
theorem getD_shaBlocks {b t : Nat} (hb : b < n) (ht : t < 64) :
    (shaBlocks padded n blk h).records.getD (64 * b + t) Record.zero
      = (compressBlock padded (blk + b) (shaBlocks padded b blk h).v).records.getD t Record.zero := by
  induction n generalizing blk h b with
  | zero => exact absurd hb (Nat.not_lt_zero b)
  | succ n ih =>
    rw [shaBlocks_succ]
    cases b with
    | zero =>
      rw [List.getD_append _ _ _ _ (by simpa using ht), Nat.mul_zero, Nat.zero_add]
      rfl
    | succ b =>
      have hplace : 64 * (b + 1) + t - 64 = 64 * b + t := by omega
      rw [List.getD_append_right _ _ _ _ (by rw [length_compressBlock]; omega), length_compressBlock, hplace,
        ih _ _ (Nat.lt_of_succ_lt_succ hb), shaBlocks_succ padded b blk h, Nat.add_assoc, Nat.add_comm 1 b]

end

/-! ## The trace of a hash -/

section
variable (padded : List Byte) (n : Nat)

/-- The running hash after the first `n` blocks. -/
def runningHash : ShaVars := (shaBlocks padded n 0 shaInit).v

/-- The trace of the first `n` blocks. -/
def blocksTrace : List Record := (shaBlocks padded n 0 shaInit).records

@[simp] theorem length_blocksTrace : (blocksTrace padded n).length = 64 * n := length_shaBlocks padded n 0 shaInit

theorem runningHash_succ : runningHash padded (n + 1) = (compressBlock padded n (runningHash padded n)).v := by
  rw [runningHash, shaBlocks_succ_v, Nat.zero_add, runningHash]

variable {n} {b t : Nat}

theorem getD_blocksTrace (hb : b < n) (ht : t < 64) :
    (blocksTrace padded n).getD (64 * b + t) Record.zero
      = (compressBlock padded b (runningHash padded b)).records.getD t Record.zero := by
  rw [blocksTrace, getD_shaBlocks padded n 0 shaInit hb ht, Nat.zero_add, runningHash]

/-- The running hash can be read from the trace (R244). -/
theorem hashFromTrace_blocksTrace (hb : b ≤ n) : hashFromTrace (blocksTrace padded n) b = runningHash padded b := by
  induction b with
  | zero => rfl
  | succ b ih =>
    rw [hashFromTrace, ih (by omega), getD_blocksTrace padded hb (by decide), runningHash_succ, compressBlock_v]

/-- So can the working variables before each round (R243). -/
theorem varsBefore_blocksTrace (hb : b < n) (ht : t < 64) :
    varsBefore (blocksTrace padded n) (64 * b + t)
      = (compressBlock padded b (runningHash padded b)).varsAt (runningHash padded b) t := by
  have hround : (64 * b + t) % 64 = t := by omega
  have hblock : (64 * b + t) / 64 = b := by omega
  rw [varsBefore, hround, hblock]
  cases t with
  | zero => rw [if_pos rfl, hashFromTrace_blocksTrace padded hb.le, ShaRun.varsAt]
  | succ t =>
    rw [if_neg t.succ_ne_zero, ← Nat.add_assoc, Nat.add_sub_cancel, getD_blocksTrace padded hb (by omega),
      ShaRun.varsAt]

/-- Each record of the trace is that of its round, from the variables before it (R237, R243). -/
theorem getD_blocksTrace_eq_shaRecord (hb : b < n) (ht : t < 64) :
    (blocksTrace padded n).getD (64 * b + t) Record.zero
      = shaRecord b t
          (shaRound (varsBefore (blocksTrace padded n) (64 * b + t)) (shaK.getD t 0)
            ((shaSchedule (paddedBlock padded b)).getD t 0))
          ((shaSchedule (paddedBlock padded b)).getD t 0) (shaK.getD t 0) := by
  rw [varsBefore_blocksTrace padded hb ht, getD_blocksTrace padded hb ht, getD_compressBlock _ _ _ ht]

end

/-! ## The serialised hash -/

/-- A word is its four bytes, most significant first (R12). -/
theorem be32At_wordBytes (w : Word) : be32At (wordBytes w) 0 = w := by
  change w.extractLsb' 24 8 ++ w.extractLsb' 16 8 ++ w.extractLsb' 8 8 ++ w.extractLsb' 0 8 = w
  rw [BitVec.extractLsb'_append_extractLsb'_eq_extractLsb' (by decide),
    BitVec.extractLsb'_append_extractLsb'_eq_extractLsb' (by decide),
    BitVec.extractLsb'_append_extractLsb'_eq_extractLsb' (by decide)]
  exact BitVec.extractLsb'_eq_self

@[simp] theorem ShaVars.length_bytes (v : ShaVars) : v.bytes.length = 32 := rfl

/-- The eight words of a serialised hash are those of the hash (R240). -/
theorem be32At_shaBytes (v : ShaVars) :
    (List.range 8).map (fun j => be32At v.bytes (4 * j)) = [v.a, v.b, v.c, v.d, v.e, v.f, v.g, v.h] := by
  have hwords : (List.range 8).map (fun j => be32At v.bytes (4 * j))
      = [v.a, v.b, v.c, v.d, v.e, v.f, v.g, v.h].map fun w => be32At (wordBytes w) 0 := rfl
  simpa only [be32At_wordBytes, List.map_id'] using hwords

/-! ## SHA256 -/

/-- What a hash leaves (R240): the padded message, its trace and the serialised hash. -/
def shaResults (padded : List Byte) : ResultState :=
  { noResults with trace := (shaHash padded).records, pbuf := padded, obuf := (shaHash padded).v.bytes }

theorem shaHash_records (padded : List Byte) : (shaHash padded).records = blocksTrace padded (padded.length / 64) := rfl

theorem shaHash_v (padded : List Byte) : (shaHash padded).v = runningHash padded (padded.length / 64) := rfl

/-- A padded message is made of whole blocks, so it has as many records as bytes (R244). -/
theorem length_shaHash_shaPad (msg : List Byte) :
    (shaHash (shaPad msg)).records.length = (shaPad msg).length := by
  rw [shaHash_records, length_blocksTrace, length_shaPad]
  omega

/-- The rule of `SHA256`: padded message, records and hash fit their buffers, so nothing raises (R240). -/
theorem sha256Rule_fits {s : State} (hc : s.cfg.ok = true) (hlen : s.ibufLen.toNat ≤ s.cfg.ibufCap) :
    sha256Rule s ResultState.cleared = .ok (shaResults (shaPad s.ibuf)) := by
  have hpadded : (shaPad s.ibuf).length ≤ s.cfg.pbufCap := by
    rw [length_shaPad, State.length_ibuf]
    exact s.cfg.padded_le_pbufCap hlen
  have htrace : (shaHash (shaPad s.ibuf)).records.length ≤ s.cfg.traceCap := by
    rw [length_shaHash_shaPad]
    exact hpadded.trans (Params.pbufCap_le_traceCap hc)
  have hhash : (shaHash (shaPad s.ibuf)).v.bytes.length ≤ s.cfg.obufCap := by
    rw [ShaVars.length_bytes, Params.obufCap]
    omega
  have hemit := ResultState.emitAll_eq s.cfg (shaHash (shaPad s.ibuf)).records
    { noResults with pbuf := shaPad s.ibuf } (Nat.zero_le _)
  rw [noResults_trace, List.length_nil, Nat.zero_add, List.nil_append, if_pos htrace] at hemit
  simp only [cleared_eq_noResults, sha256Rule, ResultState.putPbuf, if_pos hpadded, hemit, ResultState.putObuf,
    if_pos hhash, shaResults]

/-- `SHA256` (R240). -/
theorem exec_sha256 {s : State} (hc : s.cfg.ok = true) (hlen : s.ibufLen.toNat ≤ s.cfg.ibufCap) :
    exec .sha256 s = s.returns (shaResults (shaPad s.ibuf)) :=
  exec_returns (sha256Rule_fits (s := s.prologue) hc hlen)

/-- The record of a round, with the two temporary words of R237 named. -/
theorem exists_temporaries {rec : Record} {b t : Nat} {v : ShaVars} {k w : Word}
    (hrec : rec = shaRecord b t (shaRound v k w) w k) :
    ∃ t1 t2 : Word, rec.w[8] = w ∧ rec.w[9] = k
      ∧ t1 = v.h + bigSigma1 v.e + shaCh v.e v.f v.g + rec.w[9] + rec.w[8]
      ∧ t2 = bigSigma0 v.a + shaMaj v.a v.b v.c
      ∧ rec = { Record.zero with
          kind := 6, a := BitVec.ofNat 32 b, b := BitVec.ofNat 32 t
          w := #v[t1 + t2, v.a, v.b, v.c, v.d + t1, v.e, v.f, v.g, rec.w[8], rec.w[9]] } := by
  rw [hrec]
  exact ⟨_, _, rfl, rfl, rfl, rfl, rfl⟩

/-- Settles O50: record 64·b + t is round t of block b, and both kinds of working variables are read off the trace. -/
theorem sha256Result : Obligations.Sha256Result := by
  refine ⟨by decide, ?_⟩
  intro s padded hc hl hpadded
  rw [hpadded]
  have hlength := length_shaHash_shaPad s.ibuf
  refine ⟨(shaHash (shaPad s.ibuf)).records, (shaHash (shaPad s.ibuf)).v.bytes, exec_sha256 hc hl.2, hlength,
    ShaVars.length_bytes _, ⟨_, rfl, ?_⟩, fun n hn => ?_⟩
  · rw [be32At_shaBytes, shaHash_records, hashFromTrace_blocksTrace _ le_rfl, shaHash_v]
  · rw [hlength, length_shaPad] at hn
    have hblock : n / 64 < (shaPad s.ibuf).length / 64 := by
      rw [length_shaPad]
      omega
    have hrec := getD_blocksTrace_eq_shaRecord (shaPad s.ibuf) hblock (Nat.mod_lt n (by decide))
    rw [Nat.div_add_mod] at hrec
    obtain ⟨t1, t2, hround⟩ := exists_temporaries hrec
    rw [shaHash_records]
    exact ⟨_, _, t1, t2, rfl, rfl, hround⟩

/-- The hash of the padded empty message, evaluated (R246). -/
theorem shaHash_empty_bytes : (shaHash (0x80 :: List.replicate 63 0)).v.bytes =
    [0xe3, 0xb0, 0xc4, 0x42, 0x98, 0xfc, 0x1c, 0x14, 0x9a, 0xfb, 0xf4, 0xc8, 0x99, 0x6f, 0xb9, 0x24,
      0x27, 0xae, 0x41, 0xe4, 0x64, 0x9b, 0x93, 0x4c, 0xa4, 0x95, 0x99, 0x1b, 0x78, 0x52, 0xb8, 0x55] := by
  decide +kernel

/-- Settles O51: the only message of length 0 is the empty one. -/
theorem shaKnownAnswer : Obligations.ShaKnownAnswer := by
  intro s hc hlen
  have hibuf : s.ibuf = [] := by rw [← List.length_eq_zero_iff, State.length_ibuf, hlen]; rfl
  have hpad : shaPad s.ibuf = 0x80 :: List.replicate 63 0 := by rw [hibuf]; decide
  refine ⟨_, exec_sha256 hc (by simp [hlen]), ?_, hpad, ?_⟩
  · exact (length_shaHash_shaPad s.ibuf).trans (by rw [hpad]; rfl)
  · change (shaHash (shaPad s.ibuf)).v.bytes = _
    rw [hpad, shaHash_empty_bytes]

end Sys2Proof.Machine
end

section
/-! Reset and the idle step of `70_reset_and_hazards.md` R300 and R301, `INIT` and `READY` of `47_system.md` R260 and
R261: statements O2, O52 and O56. -/

namespace Sys2Proof.Machine

open Sys2Proof

/-! ## Reset -/

/-- A reset gives every 32-bit location its value after reset, 0 (R55, R300). -/
theorem State.readWord_doReset (s : State) (loc : WordLoc) : s.doReset.readWord loc = 0 :=
  calc s.doReset.readWord loc = (State.resetOf s.cfg).readWord loc := by cases loc <;> rfl
    _ = 0 := readWord_resetOf s.cfg loc

/-- A reset gives every byte location its value after reset, 0 (R55, R300). -/
theorem State.readByte_doReset (s : State) (loc : ByteLoc) : s.doReset.readByte loc = 0 :=
  calc s.doReset.readByte loc = (State.resetOf s.cfg).readByte loc := by cases loc <;> rfl
    _ = 0 := readByte_resetOf s.cfg loc

/-- Settles O2: a reset keeps the parameters, the rest of the queue and the replies, and nothing else. -/
theorem resetEventAndIdle : Obligations.ResetEventAndIdle := by
  refine ⟨fun s rest hp => ?_, fun s hp => step_nil hp⟩
  exact ⟨_, step_reset hp, State.readWord_doReset _, State.readByte_doReset _, rfl, rfl,
    fun k => blockVal_resetOf s.cfg (.r k), rfl, rfl, rfl⟩

/-! ## INIT -/

/-- Settles O52: the rule of `INIT` returns what the prologue leaves. -/
theorem initResult : Obligations.InitResult := by
  refine ⟨by decide, fun s => ?_⟩
  rw [← cleared_eq_noResults]
  exact exec_returns rfl

/-! ## READY -/

/-- The write of a command word, legal or not, changes `CMD` and the result state only, and leaves `READY` set
(R95, R97, R260). -/
theorem runWord_returns_ready (w : Word) (s : State) :
    ∃ o, runWord w s = (s.withCmd w).returns o ∧ getFlag o.status .ready = true := by
  cases hd : decode w with
  | ok i =>
    obtain ⟨o, hexec, hready, -⟩ := commandEnds i (s.withCmd w)
    exact ⟨o, (runWord_ok hd s).trans hexec, hready⟩
  | error e => exact ⟨_, runWord_error hd s, getFlag_ready_raised .illegalCommand⟩

/-- The write to `CMD` takes its effect whatever the word: it stores the word and leaves `READY` set (R70, R260). -/
theorem busAccess_write32_cmd_ready (w : Word) (s : State) :
    ∃ t, busAccess (.write32 WordLoc.cmd.addr w) s = .next t ∧ getFlag t.out.status .ready = true ∧ t.cmd = w := by
  obtain ⟨o, hrun, hready⟩ := runWord_returns_ready w s
  rw [busAccess_write32_cmd, hrun]
  exact ⟨_, rfl, hready, rfl⟩

/-- No bus access clears `READY`: the write to `CMD` sets it, and every other access leaves `STATUS` alone (R260). -/
theorem busAccess_keeps_ready {a : BusAccess} {s t : State} (h : busAccess a s = .next t)
    (hready : getFlag s.out.status .ready = true) : getFlag t.out.status .ready = true := by
  by_cases hcmd : ∃ w, a = .write32 WordLoc.cmd.addr w
  · obtain ⟨w, rfl⟩ := hcmd
    obtain ⟨u, hu, hset, -⟩ := busAccess_write32_cmd_ready w s
    cases hu.symm.trans h
    exact hset
  · obtain ⟨-, hout⟩ := busAccess_keeps_out (fun w hw => hcmd ⟨w, hw⟩) h
    rwa [hout]

/-- Settles O56: the only step that clears `READY` is a reset. -/
theorem readyIsSticky : Obligations.ReadyIsSticky := by
  refine ⟨by simp [State.reset, getFlag], fun s w rest hp => ?_, fun s t hstep hreset hready => ?_⟩
  · obtain ⟨t, ht, hready, hcmd⟩ := busAccess_write32_cmd_ready w (s.withPending rest)
    exact ⟨t, (step_access hp).trans ht, hready, hcmd, hcmd⟩
  · rcases step_cases hstep with ⟨-, rfl⟩ | ⟨rest, hp, -⟩ | ⟨a, rest, -, haccess⟩
    · exact hready
    · exact absurd (by rw [hp]; rfl) hreset
    · exact busAccess_keeps_ready haccess hready

end Sys2Proof.Machine
end

section
/-! The completion codes of `60_exceptions.md` R270 and R271: what each command ends with at its operand checks and past
them, and statement O55. -/

namespace Sys2Proof.Machine

open Sys2Proof

/-! ## The code of an end -/

/-- The code beside cleared results and no flags is `OK` (R270). -/
theorem statusCode_noResults : statusCode noResults.status = 0 := by decide

/-- The code that `raise` leaves (R272). -/
theorem statusCode_raised (c : ErrorCode) :
    statusCode (0x80000000 + BitVec.ofNat 32 c.number.toNat) = c.number.setWidth 4 := by
  cases c <;> decide

/-! ## At the operand checks -/

/-- Every command raises `INVALID_INPUT` at its operand checks (R271). -/
theorem exec_of_invalidOperands {i : Instr} {s : State} (h : invalidOperands s i) : exec i s = s.raises 1 := by
  cases i with
  | init => exact h.elim
  | modpow => exact exec_invalidInput (modpowRule_invalid (s := s.prologue) h)
  | gcd => exact h.elim
  | lcm => exact h.elim
  | egcd => exact h.elim
  | modinv => exact exec_invalidInput (modinvRule_invalid (s := s.prologue) h)
  | b2i => exact h.elim
  | i2b => exact exec_i2b_negative h
  | derive carm hint => exact exec_derive_invalid h
  | dhx => exact exec_invalidInput (dhxRule_invalid (s := s.prologue) h)
  | dlbf => exact exec_dlbf_invalid h
  | dlbsgs => exact exec_dlbsgs_invalid h
  | mapexp => exact exec_invalidInput (mapexpRule_invalid (s := s.prologue) h)
  | aesenc => exact exec_aesenc_invalid h
  | sha256 => exact h.elim

/-- At its operand checks every command ends with code `INVALID_INPUT` (R271). -/
theorem exec_invalidOperands_code {i : Instr} {s : State} (h : invalidOperands s i) :
    ∃ t, exec i s = .next t ∧ statusCode t.out.status = 1 :=
  ⟨_, exec_of_invalidOperands h, statusCode_raised .invalidInput⟩

/-! ## Past the operand checks -/

/-- The completion codes of a command past its operand checks (R271). -/
def CodePastChecks (i : Instr) (code : BitVec 4) : Prop :=
  code = 0 ∨ (code = 2 ∧ ∃ carm hint, i = .derive carm hint) ∨ (code = 4 ∧ (i = .b2i ∨ i = .dlbf ∨ i = .dlbsgs))

/-- The command ends with a code that R271 gives it past its operand checks. -/
def EndsPastChecks (i : Instr) (s : State) : Prop :=
  ∃ t, exec i s = .next t ∧ CodePastChecks i (statusCode t.out.status)

section
variable {i : Instr} {s : State}

theorem endsPastChecks_of_returns {o : ResultState} (h : exec i s = s.returns o) (hcode : statusCode o.status = 0) :
    EndsPastChecks i s := ⟨_, h, .inl hcode⟩

theorem endsPastChecks_of_exhausted {carm hint : Bool} (h : exec (.derive carm hint) s = s.raises 2) :
    EndsPastChecks (.derive carm hint) s :=
  ⟨_, h, .inr (.inl ⟨statusCode_raised .searchExhausted, carm, hint, rfl⟩)⟩

theorem endsPastChecks_of_overflow (hi : i = .b2i ∨ i = .dlbf ∨ i = .dlbsgs) (h : exec i s = s.raises 4) :
    EndsPastChecks i s := ⟨_, h, .inr (.inr ⟨statusCode_raised .resourceLimit, hi⟩)⟩

/-- A command whose rule returns with the code of a returned status (R98). -/
theorem endsPastChecks_of_rule {o : ResultState} (h : commandRule i s.prologue ResultState.cleared = .ok o)
    (hstatus : StatusReturned o.status) : EndsPastChecks i s := endsPastChecks_of_returns (exec_returns h) hstatus.code

theorem modpow_endsPastChecks (h : ¬ invalidOperands s .modpow) : EndsPastChecks .modpow s := by
  obtain ⟨hm, he⟩ := not_or.mp h
  exact endsPastChecks_of_rule (modpowRule_valid (s := s.prologue) (not_le.mp hm) (not_lt.mp he)) readyStatus_returned

theorem modinv_endsPastChecks (h : ¬ invalidOperands s .modinv) : EndsPastChecks .modinv s := by
  have hm : 0 < s.xVal 1 := not_le.mp h
  cases hinv : modInv (s.xVal 0) (s.xVal 1) with
  | some x => exact endsPastChecks_of_rule (modinvRule_some (s := s.prologue) hm hinv) readyStatus_returned
  | none =>
    exact endsPastChecks_of_rule (modinvRule_none (s := s.prologue) hm hinv)
      (readyStatus_returned.setFlag (by decide) true)

/-- `B2I` overflows its result register or returns (R128). -/
theorem b2i_endsPastChecks : EndsPastChecks .b2i s := by
  by_cases hfits : beVal s.ibuf < 256 ^ s.cfg.resb
  · exact endsPastChecks_of_returns (exec_b2i_fits hfits) statusCode_noResults
  · exact endsPastChecks_of_overflow (.inl rfl) (exec_b2i_overflow (not_lt.mp hfits))

/-- `DERIVE` exhausts its search or returns (R144, R145). -/
theorem derive_endsPastChecks {carm hint : Bool} (h : ¬ invalidOperands s (.derive carm hint)) :
    EndsPastChecks (.derive carm hint) s := by
  have hops : s.KeyOperands := s.keyOperands_or_invalid.resolve_right h
  cases hsearch : s.keySearch carm hint with
  | ok k => exact endsPastChecks_of_returns (exec_derive_found hops hsearch) statusCode_noResults
  | error c =>
    obtain rfl := exponentSearch_error hsearch
    exact endsPastChecks_of_exhausted (exec_derive_exhausted hops hsearch)

theorem dhx_endsPastChecks (hc : s.cfg.ok = true) (h : ¬ invalidOperands s .dhx) : EndsPastChecks .dhx s := by
  obtain ⟨hp, hexponents⟩ := not_or.mp h
  obtain ⟨ha, hb⟩ := not_or.mp hexponents
  exact endsPastChecks_of_returns (exec_dhx_valid hc (not_le.mp hp) (not_lt.mp ha) (not_lt.mp hb)) statusCode_noResults

/-- A discrete-log search overflows `TRACE` or returns (R167, R172, R276). -/
theorem dlog_endsPastChecks (hi : i = .dlbf ∨ i = .dlbsgs) (h : ¬ (s.xVal 2 ≤ 0 ∨ s.xVal 3 < 0)) :
    EndsPastChecks i s := by
  obtain ⟨hp, hb⟩ := not_or.mp h
  obtain ⟨⟨records, ending⟩, hrun, -⟩ := exec_dlog_sound hi (not_le.mp hp) (not_lt.mp hb)
  cases ending with
  | found x => exact endsPastChecks_of_returns hrun (statusCode_dlogEnd ..)
  | exhausted => exact endsPastChecks_of_returns hrun (statusCode_dlogEnd ..)
  | truncated => exact endsPastChecks_of_returns hrun (statusCode_dlogEnd ..)
  | noInverse => exact endsPastChecks_of_returns hrun (statusCode_dlogEnd ..)
  | overflow => exact endsPastChecks_of_overflow (.inr hi) hrun

theorem mapexp_endsPastChecks (h : ¬ invalidOperands s .mapexp) : EndsPastChecks .mapexp s := by
  obtain ⟨hn, hrest⟩ := not_or.mp h
  obtain ⟨he, hcount⟩ := not_or.mp hrest
  exact endsPastChecks_of_rule
    (mapexpRule_valid (s := s.prologue) (not_le.mp hn) (not_lt.mp he) (not_lt.mp hcount))
    (readyStatus_returned.clampFlag _ _)

/-- Past its operand checks every command ends with a code that R271 gives it there. -/
theorem exec_endsPastChecks (hc : s.cfg.ok = true) (hl : s.lensOk) (h : ¬ invalidOperands s i) : EndsPastChecks i s := by
  cases i with
  | init => exact endsPastChecks_of_rule rfl readyStatus_returned
  | modpow => exact modpow_endsPastChecks h
  | gcd => exact endsPastChecks_of_rule rfl readyStatus_returned
  | lcm => exact endsPastChecks_of_rule rfl readyStatus_returned
  | egcd => exact endsPastChecks_of_rule rfl readyStatus_returned
  | modinv => exact modinv_endsPastChecks h
  | b2i => exact b2i_endsPastChecks
  | i2b => exact endsPastChecks_of_returns (exec_i2b_nonneg hl (not_lt.mp h)) statusCode_noResults
  | derive carm hint => exact derive_endsPastChecks h
  | dhx => exact dhx_endsPastChecks hc h
  | dlbf => exact dlog_endsPastChecks (.inl rfl) h
  | dlbsgs => exact dlog_endsPastChecks (.inr rfl) h
  | mapexp => exact mapexp_endsPastChecks h
  | aesenc => exact endsPastChecks_of_returns (exec_aesenc_valid hc (not_not.mp h)) statusCode_noResults
  | sha256 => exact endsPastChecks_of_returns (exec_sha256 hc hl.2) statusCode_noResults

end

/-- Settles O55: at the operand checks the code is that of `INVALID_INPUT`, past them it is another one. -/
theorem completionCodes : Obligations.CompletionCodes := by
  intro i s hc hl
  by_cases hinvalid : invalidOperands s i
  · obtain ⟨t, hexec, hcode⟩ := exec_invalidOperands_code hinvalid
    exact ⟨t, hexec, by simp [hcode, hinvalid]⟩
  · obtain ⟨t, hexec, hcode | ⟨hcode, hi⟩ | ⟨hcode, hi⟩⟩ := exec_endsPastChecks hc hl hinvalid
    · exact ⟨t, hexec, by simp [hcode, hinvalid]⟩
    · exact ⟨t, hexec, by simp [hcode, hinvalid], fun _ => hi, by simp [hcode]⟩
    · exact ⟨t, hexec, by simp [hcode, hinvalid], by simp [hcode], fun _ => hi, by simp [hcode]⟩

end Sys2Proof.Machine
end
